-- ==== Sys2Proof/Word.lean ====
section
/-! DEFINITION. The word types of the interface (30_encoding.md R100, R107; 20_memory.md R60). -/

namespace Sys2Proof

/-- A byte of `IN`, of `FRBUF` or of a payload (R14: "A byte is a number in `0 .. 255`"). -/
abbrev Byte := BitVec 8

/-- A command word, bit 31 the most significant (R100). -/
abbrev CmdWord := BitVec 32

/-- A symbol word: bit 15 `MARK`, bits 14:0 `VAL` (R107). -/
abbrev SymWord := BitVec 16

end Sys2Proof
end

