-- ==== Sys2Proof/Config.lean ====
section
/-! DEFINITION. What an implementation fixes: the capacity parameters of 00_scope.md R12 and SPLIT_RESET (70_reset_and_hazards.md R301), with the values the spec suggests; and the free values of the response's wire form. -/

namespace Sys2Proof

/-- A capacity is a natural number or `unbounded` (R11). -/
inductive Capacity
  | atMost (n : Nat)
  | unbounded
deriving DecidableEq, Repr

/-- `c.allows n`: the value `n` does not pass the capacity `c`. -/
def Capacity.allows : Capacity → Nat → Bool
  | .atMost m, n => decide (n ≤ m)
  | .unbounded, _ => true

/-- The parameters a model takes (R12). `IDX_W` is the constant 15 of the symbol word (R107); `TRANSPORT` has no content (D2). -/
structure Params where
  /-- `CW_MAX`: largest `code_width`, and largest `mcs + 1` accepted. -/
  cwMax : Capacity
  /-- `RW_MAX`: largest `width` of `BR.READ`. -/
  rwMax : Capacity
  /-- `CTS_MAX`: largest colour-table size. -/
  ctsMax : Capacity
  /-- `IN_MAX`: most bytes of a loaded input. -/
  inMax : Capacity
  /-- `KEY_MAX`: largest dictionary key. -/
  keyMax : Capacity
  /-- `SEQ_MAX`: longest dictionary sequence. -/
  seqMax : Capacity
  /-- `OUT_MAX`: most symbols of the output. -/
  outMax : Capacity
  /-- `BUF_MAX`: most bytes of the InputBuffer. -/
  bufMax : Capacity
  /-- `SPLIT_RESET`: the engines can be reset separately (R301, default no). -/
  splitReset : Bool
deriving DecidableEq, Repr

/-- The suggested defaults of R12. DESIGN CHOICE (log entry 2): `State.reset` holds them; no statement rests on them. -/
def Params.suggested : Params where
  cwMax := .atMost 16
  rwMax := .atMost 16
  ctsMax := .atMost 256
  inMax := .atMost 255
  keyMax := .atMost 65535
  seqMax := .unbounded
  outMax := .unbounded
  bufMax := .unbounded
  splitReset := false

/-- The frame start sentinel `START` (R7, R97, R211). -/
def startByte : Byte := 0x01#8

/-- The frame end sentinel `END` (R7, R97, R211). -/
def endByte : Byte := 0x02#8

/-- The Clear-Code key `CLR = 1 << mcs` (R7). -/
def clrKey (mcs : Nat) : Nat := 1 <<< mcs

/-- The End-of-Information key `EOI = CLR + 1` (R7). -/
def eoiKey (mcs : Nat) : Nat := clrKey mcs + 1

/-- The all-ones code value of a width, `(1 << width) - 1` (R92, R176). -/
def allOnes (width : Nat) : Nat := 1 <<< width - 1

/-- The index of a colour that fits in the 15 bits of a symbol word (R107, `IDX_W`). -/
def Config.idxW : Nat := 15

/-- Free value (log entry 8): the 32-bit INFO word of an `info` of `2^32` or more, on which R105 is silent. -/
opaque Config.wideInfoWord : Nat → BitVec 32

/-- Free value (log entry 8): the 32-bit number word of a result of `2^32` or more, on which R105 is silent. -/
opaque Config.wideNumberWord : Nat → BitVec 32

/-- Free value (log entry 8): the symbol word of an index of `2^15` or more, which R107 excludes through `CTS_MAX`. -/
opaque Config.wideIndexWord : Nat → SymWord

end Sys2Proof
end

