-- ==== Sys2Proof/Syntax.lean ====
section
/-! DEFINITION. The instructions: one constructor per row of spec/opcode_table.json, and the small types their operands need. -/

namespace Sys2Proof

/-- A symbol of a dictionary sequence or of the output (R15): a colour index or one of the two markers. -/
inductive Symbol
  | idx (i : Nat)
  | mclr
  | meoi
deriving DecidableEq, Repr

/-- The decompressor's control state (R27). -/
inductive Phase
  | idle
  | expectClear
  | first
  | loop
deriving DecidableEq, Repr

/-- The class of a code value, without the modifier `CW.WIDEN` (R94). -/
inductive CwClass
  | clear
  | eoi
  | present
  | absent
deriving DecidableEq, Repr

/-- What the class of a code value depends on besides its bits (R94): the phase, the active `mcs`, and whether the code's key is present. -/
structure CodeContext where
  phase : Phase
  mcs : Nat
  present : Bool
deriving DecidableEq, Repr

/-- A payload, delivered whole with its command (R104). -/
inductive Payload
  | bytes (bs : List Byte)
  | symbols (ws : List SymWord)
deriving DecidableEq, Repr

/-- The bytes of a payload; symbol words sent to a command that takes bytes are discarded. DESIGN CHOICE (log entry 9). -/
def Payload.asBytes : Payload → List Byte
  | .bytes bs => bs
  | .symbols _ => []

/-- The symbol words of a payload; bytes sent to a command that takes symbol words are discarded. DESIGN CHOICE (log entry 9). -/
def Payload.asSymbols : Payload → List SymWord
  | .bytes _ => []
  | .symbols ws => ws

/-- The instructions. Operands are natural numbers (R13, R102: "All fields are unsigned and used as they stand"). -/
inductive Instr
  /-- `BR.LOAD [bytes]` (R121). -/
  | brLoad (bytes : List Byte)
  /-- `BR.READ width` (R122). -/
  | brRead (width : Nat)
  /-- `CT.INIT mcs, cts` (R143). -/
  | ctInit (mcs cts : Nat)
  /-- `CT.LOOKUP code` (R145). -/
  | ctLookup (code : Nat)
  /-- `CT.HAS code` (R148). -/
  | ctHas (code : Nat)
  /-- `CT.INSERT [words]` (R150); the payload is symbol words (R107). -/
  | ctInsert (words : List SymWord)
  /-- `LZW.DECODE mcs, cts, [bytes]` (R184). -/
  | lzwDecode (mcs cts : Nat) (bytes : List Byte)
  /-- `FR.APPEND [bytes]` (R212). -/
  | frAppend (bytes : List Byte)
  /-- `FR.HASFG` (R213). -/
  | frHasfg
  /-- `FR.SWG` (R214). -/
  | frSwg
  /-- `FR.TAKEG` (R215). -/
  | frTakeg
  /-- `FR.TAKEF` (R216). -/
  | frTakef
  /-- `FR.CLEAR` (R217). -/
  | frClear
  /-- `CW.WIDEN`: an all-ones code word `code:width` of class `cls` in phase FIRST or LOOP (R94, R176). -/
  | cwWiden (cls : CwClass) (code width : Nat)
  /-- `CW.CLEAR`: the code word `code:width` with `code = CLR` (R177). -/
  | cwClear (code width : Nat)
  /-- `CW.EOI`: the code word `code:width` with `code = EOI` in phase LOOP (R178). -/
  | cwEoi (code width : Nat)
  /-- `CW.PRESENT`: the code word `code:width` whose key is present (R179). -/
  | cwPresent (code width : Nat)
  /-- `CW.ABSENT`: the code word `code:width` whose key is absent (R180). -/
  | cwAbsent (code width : Nat)
  /-- `B.START`: the frame-stream byte `0x01` (R97). -/
  | bStart
  /-- `B.END`: the frame-stream byte `0x02` (R97). -/
  | bEnd
  /-- `B.DATA`: any other frame-stream byte (R97). -/
  | bData (b : Byte)
deriving DecidableEq, Repr

/-- An instruction as it lies on its own level of encoding: a command word with its payload (R100, R104), the bits of a code word in stream order (R90), or one byte of the frame stream (R97). -/
inductive Encoded
  | command (word : CmdWord) (payload : Payload)
  | code (bits : List Bool)
  | frameByte (b : Byte)
deriving DecidableEq, Repr

end Sys2Proof
end

