-- ==== Sys2Proof/WellFormed.lean ====
section
/-! DEFINITION. Which instructions have an encoding: the operand fields of 30_encoding.md R102, the code values of R90 and R94, the bytes of R97. -/

namespace Sys2Proof

/-- A code value that is a Clear-Code for some `mcs` its width can hold (R94). -/
def isClearValue (code width : Nat) : Bool :=
  (List.range width).any fun m => code == clrKey m

/-- A code value that is an End-of-Information code for some `mcs` its width can hold (R94). -/
def isEoiValue (code width : Nat) : Bool :=
  (List.range width).any fun m => code == eoiKey m

/-- A code word of `width >= 1` bits holds its value (R90, R91). -/
def codeInRange (code width : Nat) : Bool := decide (1 ≤ width) && decide (code < 2 ^ width)

/-- A value that a code word of the class can have (R94). -/
def classValue : CwClass → Nat → Nat → Bool
  | .clear, c, w => isClearValue c w
  | .eoi, c, w => isEoiValue c w
  | .present, _, _ => true
  | .absent, _, _ => true

/-- The check: every operand fits its field (R102), every code value its width (R90) and class (R94), and `B.DATA` is no sentinel (R97). -/
def Instr.wf : Instr → Bool
  | .brLoad _ => true
  | .brRead width => decide (width < 2 ^ 8)
  | .ctInit mcs cts => decide (mcs < 2 ^ 8) && decide (cts < 2 ^ 16)
  | .ctLookup code => decide (code < 2 ^ 24)
  | .ctHas code => decide (code < 2 ^ 24)
  | .ctInsert _ => true
  | .lzwDecode mcs cts _ => decide (mcs < 2 ^ 8) && decide (cts < 2 ^ 16)
  | .frAppend _ => true
  | .frHasfg => true
  | .frSwg => true
  | .frTakeg => true
  | .frTakef => true
  | .frClear => true
  | .cwWiden cls c w => codeInRange c w && classValue cls c w && decide (c = allOnes w)
  | .cwClear c w => codeInRange c w && classValue .clear c w
  | .cwEoi c w => codeInRange c w && classValue .eoi c w && decide (c ≠ allOnes w)
  | .cwPresent c w => codeInRange c w
  | .cwAbsent c w => codeInRange c w
  | .bStart => true
  | .bEnd => true
  | .bData b => decide (b ≠ startByte) && decide (b ≠ endByte)

/-- The phases in which the widen rule is applied (R94, R176). -/
def Phase.widens : Phase → Bool
  | .idle => false
  | .expectClear => false
  | .first => true
  | .loop => true

/-- The condition of a class in a context, the rows of R94's table in their order; End-of-Information is recognised in phase LOOP only. -/
def CodeContext.classFits (ctx : CodeContext) : CwClass → Nat → Bool
  | .clear, c => decide (c = clrKey ctx.mcs)
  | .eoi, c => decide (c ≠ clrKey ctx.mcs) && decide (ctx.phase = .loop) && decide (c = eoiKey ctx.mcs)
  | .present, c => decide (c ≠ clrKey ctx.mcs) && !(decide (ctx.phase = .loop) && decide (c = eoiKey ctx.mcs)) && ctx.present
  | .absent, c => decide (c ≠ clrKey ctx.mcs) && !(decide (ctx.phase = .loop) && decide (c = eoiKey ctx.mcs)) && !ctx.present

/-- The instruction can be read in the context: commands and frame bytes always, a code word where R94's conditions hold. -/
def Instr.fits (ctx : CodeContext) : Instr → Bool
  | .brLoad _ => true
  | .brRead _ => true
  | .ctInit _ _ => true
  | .ctLookup _ => true
  | .ctHas _ => true
  | .ctInsert _ => true
  | .lzwDecode _ _ _ => true
  | .frAppend _ => true
  | .frHasfg => true
  | .frSwg => true
  | .frTakeg => true
  | .frTakef => true
  | .frClear => true
  | .cwWiden cls c _ => ctx.phase.widens && ctx.classFits cls c
  | .cwClear c w => ctx.classFits .clear c && !(ctx.phase.widens && decide (c = allOnes w))
  | .cwEoi c w => ctx.classFits .eoi c && !(ctx.phase.widens && decide (c = allOnes w))
  | .cwPresent c w => ctx.classFits .present c && !(ctx.phase.widens && decide (c = allOnes w))
  | .cwAbsent c w => ctx.classFits .absent c && !(ctx.phase.widens && decide (c = allOnes w))
  | .bStart => true
  | .bEnd => true
  | .bData _ => true

end Sys2Proof
end

