-- ==== Sys2Proof/Decode.lean ====
section
/-! DEFINITION. The decoder of the three levels of 30_encoding.md (command words, code words, frame-stream bytes) and of symbol words, total, rejecting by name; and after it the encoder. -/

namespace Sys2Proof

/-! ### Command words (R100 to R103) -/

/-- Why a command word matches no row of R101 (R103). -/
inductive Reject
  /-- UNIT 4 to 15. -/
  | unassignedUnit
  /-- A FUNC the unit does not assign. -/
  | unassignedFunc
  /-- A non-zero bit in an ARG position marked "must be 0". -/
  | argNotZero
deriving DecidableEq, Repr

/-- `UNIT`, bits 31:28 (R100). -/
def unitField (w : CmdWord) : Nat := w.toNat / 2 ^ 28

/-- `FUNC`, bits 27:24 (R100). -/
def funcField (w : CmdWord) : Nat := w.toNat / 2 ^ 24 % 2 ^ 4

/-- `ARG`, bits 23:0 (R100). -/
def argField (w : CmdWord) : Nat := w.toNat % 2 ^ 24

/-- A row whose ARG is marked "must be 0" (R101). -/
def noArg (arg : Nat) (i : Instr) : Except Reject Instr :=
  if arg = 0 then .ok i else .error .argNotZero

/-- The command a word and its payload stand for (R100 to R103): ARG[7:0] is `WIDTH` or `MCS`, ARG[23:8] is `CTS`, ARG[23:0] is `CODE`. -/
def decodeCommand (w : CmdWord) (p : Payload) : Except Reject Instr :=
  let arg := argField w
  match unitField w, funcField w with
  | 0, 0 => noArg arg (.brLoad p.asBytes)
  | 0, 1 => noArg (arg / 2 ^ 8) (.brRead (arg % 2 ^ 8))
  | 1, 0 => .ok (.ctInit (arg % 2 ^ 8) (arg / 2 ^ 8))
  | 1, 1 => .ok (.ctLookup arg)
  | 1, 2 => .ok (.ctHas arg)
  | 1, 3 => noArg arg (.ctInsert p.asSymbols)
  | 2, 0 => .ok (.lzwDecode (arg % 2 ^ 8) (arg / 2 ^ 8) p.asBytes)
  | 3, 0 => noArg arg (.frAppend p.asBytes)
  | 3, 1 => noArg arg .frHasfg
  | 3, 2 => noArg arg .frSwg
  | 3, 3 => noArg arg .frTakeg
  | 3, 4 => noArg arg .frTakef
  | 3, 5 => noArg arg .frClear
  | u, _ => .error (if u < 4 then .unassignedFunc else .unassignedUnit)

/-- A row of the opcode map: a word `w` selects it when `w & mask = match` (R101). -/
structure OpcodeRow where
  mnemonic : String
  matchBits : CmdWord
  mask : CmdWord
deriving DecidableEq, Repr

/-- The opcode map of R101, row by row. -/
def opcodeMap : List OpcodeRow :=
  [⟨"BR.LOAD", 0x00000000#32, 0xFFFFFFFF#32⟩, ⟨"BR.READ", 0x01000000#32, 0xFFFFFF00#32⟩,
   ⟨"CT.INIT", 0x10000000#32, 0xFF000000#32⟩, ⟨"CT.LOOKUP", 0x11000000#32, 0xFF000000#32⟩,
   ⟨"CT.HAS", 0x12000000#32, 0xFF000000#32⟩, ⟨"CT.INSERT", 0x13000000#32, 0xFFFFFFFF#32⟩,
   ⟨"LZW.DECODE", 0x20000000#32, 0xFF000000#32⟩, ⟨"FR.APPEND", 0x30000000#32, 0xFFFFFFFF#32⟩,
   ⟨"FR.HASFG", 0x31000000#32, 0xFFFFFFFF#32⟩, ⟨"FR.SWG", 0x32000000#32, 0xFFFFFFFF#32⟩,
   ⟨"FR.TAKEG", 0x33000000#32, 0xFFFFFFFF#32⟩, ⟨"FR.TAKEF", 0x34000000#32, 0xFFFFFFFF#32⟩,
   ⟨"FR.CLEAR", 0x35000000#32, 0xFFFFFFFF#32⟩]

/-- `w & mask = match` (R101). -/
def OpcodeRow.selects (r : OpcodeRow) (w : CmdWord) : Bool := decide (w &&& r.mask = r.matchBits)

/-- The mnemonic of an instruction, as the opcode table spells it. -/
def Instr.mnemonic : Instr → String
  | .brLoad _ => "BR.LOAD"
  | .brRead _ => "BR.READ"
  | .ctInit _ _ => "CT.INIT"
  | .ctLookup _ => "CT.LOOKUP"
  | .ctHas _ => "CT.HAS"
  | .ctInsert _ => "CT.INSERT"
  | .lzwDecode _ _ _ => "LZW.DECODE"
  | .frAppend _ => "FR.APPEND"
  | .frHasfg => "FR.HASFG"
  | .frSwg => "FR.SWG"
  | .frTakeg => "FR.TAKEG"
  | .frTakef => "FR.TAKEF"
  | .frClear => "FR.CLEAR"
  | .cwWiden _ _ _ => "CW.WIDEN"
  | .cwClear _ _ => "CW.CLEAR"
  | .cwEoi _ _ => "CW.EOI"
  | .cwPresent _ _ => "CW.PRESENT"
  | .cwAbsent _ _ => "CW.ABSENT"
  | .bStart => "B.START"
  | .bEnd => "B.END"
  | .bData _ => "B.DATA"

/-! ### Code words (R90 to R94) -/

/-- The class of a code value, tested in R94's order. -/
def classOf (ctx : CodeContext) (c : Nat) : CwClass :=
  if c = clrKey ctx.mcs then .clear
  else if ctx.phase = .loop ∧ c = eoiKey ctx.mcs then .eoi
  else if ctx.present then .present
  else .absent

/-- The code word of a class. -/
def codeInstr : CwClass → Nat → Nat → Instr
  | .clear => .cwClear
  | .eoi => .cwEoi
  | .present => .cwPresent
  | .absent => .cwAbsent

/-- The instruction a code word of value `c` fetched at width `w` stands for: its class, with the modifier `CW.WIDEN` where the value is all ones in phase FIRST or LOOP (R94). -/
def decodeCode (ctx : CodeContext) (c w : Nat) : Instr :=
  if ctx.phase.widens ∧ c = allOnes w then .cwWiden (classOf ctx c) c w
  else codeInstr (classOf ctx c) c w

/-- The value of bits in stream order, earlier bits at the low end (R66, R91). -/
def bitsToNat : List Bool → Nat
  | [] => 0
  | b :: bs => b.toNat + 2 * bitsToNat bs

/-! ### Frame-stream bytes (R97) -/

/-- The class of a frame-stream byte, selected by the whole byte (R97). -/
def decodeFrameByte (b : Byte) : Instr :=
  if b = startByte then .bStart
  else if b = endByte then .bEnd
  else .bData b

/-! ### The three levels together -/

/-- The instruction an encoded form stands for; the context is read for code words only. -/
def Encoded.decode (ctx : CodeContext) : Encoded → Except Reject Instr
  | .command w p => decodeCommand w p
  | .code bits => .ok (decodeCode ctx (bitsToNat bits) bits.length)
  | .frameByte b => .ok (decodeFrameByte b)

/-! ### Symbol words (R107) -/

/-- The symbol of a symbol word: `MARK = 0` is an index, `0x8000` and `0x8001` the markers, any other word unassigned (R107). -/
def symbolOfWord (w : SymWord) : Option Symbol :=
  if w.toNat < 2 ^ Config.idxW then some (.idx w.toNat)
  else if w = 0x8000#16 then some .mclr
  else if w = 0x8001#16 then some .meoi
  else none

/-- The symbols of a payload, `none` if some word is unassigned (R150). -/
def symbolsOfWords : List SymWord → Option (List Symbol)
  | [] => some []
  | w :: ws =>
    match symbolOfWord w, symbolsOfWords ws with
    | some x, some xs => some (x :: xs)
    | _, _ => none

/-! ### The encoder -/

/-- A command word from its three fields (R100). -/
def commandWord (unit func arg : Nat) : CmdWord :=
  BitVec.ofNat 32 (unit * 2 ^ 28 + func * 2 ^ 24 + arg)

/-- The `width` bits of a code value in stream order, least-significant bit first (R90, R91). -/
def codeBits (code : Nat) : (width : Nat) → List Bool
  | 0 => []
  | w + 1 => code.testBit 0 :: codeBits (code / 2) w

/-- The encoded form of an instruction (R90, R97, R101, R102). -/
def encode : Instr → Encoded
  | .brLoad bs => .command (commandWord 0 0 0) (.bytes bs)
  | .brRead width => .command (commandWord 0 1 width) (.bytes [])
  | .ctInit mcs cts => .command (commandWord 1 0 (cts * 2 ^ 8 + mcs)) (.bytes [])
  | .ctLookup code => .command (commandWord 1 1 code) (.bytes [])
  | .ctHas code => .command (commandWord 1 2 code) (.bytes [])
  | .ctInsert ws => .command (commandWord 1 3 0) (.symbols ws)
  | .lzwDecode mcs cts bs => .command (commandWord 2 0 (cts * 2 ^ 8 + mcs)) (.bytes bs)
  | .frAppend bs => .command (commandWord 3 0 0) (.bytes bs)
  | .frHasfg => .command (commandWord 3 1 0) (.bytes [])
  | .frSwg => .command (commandWord 3 2 0) (.bytes [])
  | .frTakeg => .command (commandWord 3 3 0) (.bytes [])
  | .frTakef => .command (commandWord 3 4 0) (.bytes [])
  | .frClear => .command (commandWord 3 5 0) (.bytes [])
  | .cwWiden _ c w => .code (codeBits c w)
  | .cwClear c w => .code (codeBits c w)
  | .cwEoi c w => .code (codeBits c w)
  | .cwPresent c w => .code (codeBits c w)
  | .cwAbsent c w => .code (codeBits c w)
  | .bStart => .frameByte startByte
  | .bEnd => .frameByte endByte
  | .bData b => .frameByte b

/-- The symbol word of a symbol (R107); an index of `2^15` or more has none, and its word is a free value (log entry 8). -/
def Symbol.toWord : Symbol → SymWord
  | .idx i => if i < 2 ^ Config.idxW then BitVec.ofNat 16 i else Config.wideIndexWord i
  | .mclr => 0x8000#16
  | .meoi => 0x8001#16

/-- One byte from at most eight bits, the first bit the least significant and missing bits zero (R66, R113). -/
def byteOfBits (bits : List Bool) : Byte := BitVec.ofNat 8 (bitsToNat (bits.take 8))

/-- The bytes of a bit string, eight bits to a byte, the unused high bits of the last byte zero (R113). -/
def packBits : List Bool → List Byte
  | [] => []
  | b0 :: b1 :: b2 :: b3 :: b4 :: b5 :: b6 :: b7 :: rest =>
    byteOfBits [b0, b1, b2, b3, b4, b5, b6, b7] :: packBits rest
  | bits => [byteOfBits bits]

/-- The bytes of a code stream written as `value:width` pairs in fetch order (R113). -/
def packCodes (codes : List (Nat × Nat)) : List Byte :=
  packBits (codes.flatMap fun cw => codeBits cw.1 cw.2)

/-! ### The table's words -/

/-- The context in which a code word of the table's 16-bit pattern is read: phase LOOP over the fresh table of `mcs = 2`, `cts = 4` (keys 0 to 5 present). DESIGN CHOICE (log entry 10). -/
def tableContext (c : Nat) : CodeContext := ⟨.loop, 2, decide (c < 6)⟩

/-- The instruction of a table word of `nbits` bits: a frame byte, a code word of 16 bits, or a command word with an empty payload. -/
def decodeTableWord (nbits w : Nat) : Option Instr :=
  match nbits with
  | 8 => some (decodeFrameByte (BitVec.ofNat 8 w))
  | 16 => some (decodeCode (tableContext (w % 2 ^ 16)) (w % 2 ^ 16) 16)
  | 32 => (decodeCommand (BitVec.ofNat 32 w) (.bytes [])).toOption
  | _ => none

end Sys2Proof
end

