-- ==== Sys2Proof/Machine/State.lean ====
section
/-! DEFINITION. The state of the block as plain data (10_state.md), the machine's own stops, and the state after reset (R50). -/

namespace Sys2Proof.Machine

/-- `IN`: bytes by address, addresses strictly rising (R34, R61). An unlisted address holds no byte, and reading it stops the machine (log entry 1). -/
abbrev Memory := List Host.Cell

/-- `DICT`: sequences of symbols by key, keys strictly rising; an unlisted key is absent (R35). -/
abbrev Dict := List (Nat × List Symbol)

/-- The error kinds (R260, R261). The block never raises the first two: they number a host's own errors (R106). -/
inductive FaultKind
  | malformedHeader
  | unsupportedFeature
  | decodeProtocolViolation
  | truncatedInput
  | noFrameAvailable
  | capacityExceeded
deriving DecidableEq, Repr

/-- The refusal reasons (R269). -/
inductive RefuseReason
  | badCommand
  | badConfig
  | notReady
  | engineFaulted
deriving DecidableEq, Repr

/-- A recorded fault `(kind, info)` (R32, R42). -/
structure FaultRecord where
  kind : FaultKind
  info : Nat
deriving DecidableEq, Repr

/-- The two engines (R1, R20). -/
inductive Engine
  | lzw
  | fr
deriving DecidableEq, Repr

/-- What a response says of its operation (R105, R106). -/
inductive Status
  | ok
  | fault (kind : FaultKind)
  | refused (reason : RefuseReason)
deriving DecidableEq, Repr

/-- The result of an operation (R101, R105). -/
inductive Result
  | nothing
  | number (v : Nat)
  | bit (b : Bool)
  | bytes (bs : List Byte)
  | symbols (ss : List Symbol)
deriving DecidableEq, Repr

/-- The response of an operation (R105): the status, the fault's `info` (else 0) and the result. -/
structure Response where
  status : Status
  info : Nat
  result : Result
deriving DecidableEq, Repr

/-- What a reset input resets: the block (R300), or with `SPLIT_RESET` one engine (R301). -/
inductive ResetTarget
  | block
  | engine (e : Engine)
deriving DecidableEq, Repr

/-- What the host does next (R80, R240, R300): issue a command, send one byte of the frame stream (log entry 5), or assert reset. -/
inductive HostInput
  | command (word : CmdWord) (payload : Payload)
  | frameByte (b : Byte)
  | rst (target : ResetTarget)
deriving DecidableEq, Repr

/-- The state. The field comments give the spec's name and rule. -/
structure State where
  /-- `br_valid` (R22). -/
  brValid : Bool
  /-- `in_len` (R23). -/
  inLen : Nat
  /-- `bitpos` (R24). -/
  bitpos : Nat
  /-- `code_width` (R25). -/
  codeWidth : Nat
  /-- `cur` (R26). -/
  cur : Nat
  /-- `prev` (R26). -/
  prev : Nat
  /-- `phase` (R27). -/
  phase : Phase
  /-- `mcs` (R28). -/
  mcs : Nat
  /-- `cts` (R28). -/
  cts : Nat
  /-- `ct_valid` (R29). -/
  ctValid : Bool
  /-- `max_key` (R30). -/
  maxKey : Nat
  /-- `out_len` (R31). -/
  outLen : Nat
  /-- `lzw_fault` (R32). -/
  lzwFault : Option FaultRecord
  /-- `lzw_refused` (R33). -/
  lzwRefused : Bool
  /-- `IN` (R34). -/
  input : Memory
  /-- `DICT` (R35). -/
  dict : Dict
  /-- `OUT` (R36). -/
  out : List Symbol
  /-- `FRBUF` (R40), oldest byte first; `fr_len` is its length. -/
  frbuf : List Byte
  /-- `fr_fault` (R42). -/
  frFault : Option FaultRecord
  /-- `fr_refused` (R43). -/
  frRefused : Bool
  /-- The parameters of R12, fixed for a machine: no step writes them (log entry 2). -/
  params : Params
  /-- What the host is still going to do, in order: the input of the step (log entry 3). -/
  host : List HostInput
  /-- The response of the latest operation: the output of the step (R105, log entry 4). -/
  response : Option Response
deriving DecidableEq, Repr

/-- The stops of the model itself. The block has none ("No behaviour of the block is `stuck`", 93_implementation_defined.md); each stands for something the notation leaves undefined in a state no run reaches. -/
inductive Fault
  /-- Raised by a read at bit address `pos` of `IN` (R61) where `in_len` covers an address that holds no byte. Safe: no state that meets `State.Inv` raises it. -/
  | inputAbsent (pos : Nat)
  /-- Raised by a LOOP step (R179, R180) that needs element 0 of an empty sequence, which R14 leaves undefined and R186 excludes. Safe: no state that meets `State.Inv` raises it. -/
  | emptySequence (key : Nat)
deriving DecidableEq, Repr

/-- The refusals of the model itself (the block's own refusals are NEXT states, R268). -/
inductive Refusal
  /-- Raised by the arm of an instruction that has no meaning yet. Safe. -/
  | notModelled (mnemonic : String)
  /-- Raised by a code-word instruction executed while no decode is in progress: a code word exists only inside a decode (R27, R90). Safe. -/
  | noDecodeInProgress
  /-- Raised by a reset input of one engine on a block without `SPLIT_RESET`, which has one reset input (R300, R301). Safe. -/
  | noSplitReset
deriving DecidableEq, Repr

/-- The outcome of a step. -/
abbrev StepOutcome := Host.Outcome State Fault Refusal

/-- The state right after reset, with given parameters and pending host inputs (R50, R300). The registers R50 leaves unspecified hold 0 and nothing is listed in IN and DICT: DESIGN CHOICE (log entry 1). -/
def State.resetWith (p : Params) (h : List HostInput) : State where
  brValid := false
  inLen := 0
  bitpos := 0
  codeWidth := 0
  cur := 0
  prev := 0
  phase := .idle
  mcs := 0
  cts := 0
  ctValid := false
  maxKey := 0
  outLen := 0
  lzwFault := none
  lzwRefused := false
  input := []
  dict := []
  out := []
  frbuf := []
  frFault := none
  frRefused := false
  params := p
  host := h
  response := none

/-- The state right after reset (R50), on a block with the suggested parameters (log entry 2) and nothing yet to do for the host. -/
def State.reset : State := State.resetWith Params.suggested []

end Sys2Proof.Machine
end

