-- ==== Sys2Proof/Machine/Ops.lean ====
section
/-! DEFINITION. The operations every instruction shares: the memories' reads and writes, the three outcomes of an operation (fault entry among them), the reset, and the loading of IN and of a fresh table. -/

namespace Sys2Proof.Machine

/-! ### Memories -/

/-- The canonical form of IN: addresses strictly rising. Nothing is listed by default, so no entry equals what an unlisted address reads as. -/
abbrev Memory.wf (m : Memory) : Prop := m.Pairwise fun x y => x.1 < y.1

/-- The canonical form of DICT: keys strictly rising. -/
abbrev Dict.wf (d : Dict) : Prop := d.Pairwise fun x y => x.1 < y.1

/-- What is listed at a key, `none` if nothing is. -/
def readCell {α : Type} : List (Nat × α) → Nat → Option α
  | [], _ => none
  | (a, v) :: m, k => if a = k then some v else readCell m k

/-- List a value at a key, in its place in the rising order, replacing what was listed there. -/
def writeCell {α : Type} : List (Nat × α) → Nat → α → List (Nat × α)
  | [], k, v => [(k, v)]
  | (a, u) :: m, k, v =>
    if k < a then (k, v) :: (a, u) :: m
    else if k = a then (k, v) :: m
    else (a, u) :: writeCell m k v

/-- The bytes `b0 b1 ...` at the addresses `a, a+1, ...` (R121: `IN[0 .. n-1] <- b0 .. b(n-1)`). -/
def bytesFrom : Nat → List Byte → Memory
  | _, [] => []
  | a, b :: bs => (a, b) :: bytesFrom (a + 1) bs

/-- Byte `a` of `IN` (R16: `IN[i]`). -/
def readIn (s : State) (a : Nat) : Option Byte := readCell s.input a

/-- The sequence under a key of `DICT`, `none` when the key is absent (R16: `DICT[k]`). -/
def readDict (s : State) (k : Nat) : Option (List Symbol) := readCell s.dict k

/-- `DICT[k] <- seq` (R16). -/
def writeDict (k : Nat) (seq : List Symbol) (s : State) : State :=
  { s with dict := writeCell s.dict k seq }

/-! ### The three outcomes of an operation (R17) -/

/-- `ok(v)`: the response carries the result (R17, R105). -/
def ok (v : Result) (s : State) : StepOutcome :=
  .next { s with response := some ⟨.ok, 0, v⟩ }

/-- Fault entry (R270), the one operation every fault goes through: the engine's fault record is written, the response carries status and info and no result; the LZW engine also drops `br_valid`, `ct_valid` and its phase, the FR engine leaves FRBUF as it was. -/
def enterFault (e : Engine) (kind : FaultKind) (info : Nat) (s : State) : State :=
  match e with
  | .lzw =>
    { s with
      lzwFault := some ⟨kind, info⟩
      brValid := false
      ctValid := false
      phase := .idle
      response := some ⟨.fault kind, info, .nothing⟩ }
  | .fr =>
    { s with
      frFault := some ⟨kind, info⟩
      response := some ⟨.fault kind, info, .nothing⟩ }

/-- `raise Fault(kind, info)` ends the operation (R17, R270). There is no return from a fault but reset (R274). -/
def raise (e : Engine) (kind : FaultKind) (info : Nat) (s : State) : StepOutcome :=
  .next (enterFault e kind info s)

/-- The state after a refusal: nothing but the engine's sticky refused flag and the response (R17, R268). -/
def enterRefusal (e : Engine) (reason : RefuseReason) (s : State) : State :=
  match e with
  | .lzw => { s with lzwRefused := true, response := some ⟨.refused reason, 0, .nothing⟩ }
  | .fr => { s with frRefused := true, response := some ⟨.refused reason, 0, .nothing⟩ }

/-- `refuse(reason)` ends the operation (R17, R268). -/
def refuse (e : Engine) (reason : RefuseReason) (s : State) : StepOutcome :=
  .next (enterRefusal e reason s)

/-- The fault record of an engine (R32, R42). -/
def faultOf (e : Engine) (s : State) : Option FaultRecord :=
  match e with
  | .lzw => s.lzwFault
  | .fr => s.frFault

/-- The first check of every operation (R242, R271): a faulted engine refuses `EngineFaulted`. -/
def unlessFaulted (e : Engine) (s : State) (go : StepOutcome) : StepOutcome :=
  if faultOf e s = none then go else refuse e .engineFaulted s

/-! ### Dispatch of an unmatched word (R240, R241) -/

/-- The engine a command word belongs to: UNIT 3 is FR, every other UNIT the LZW engine (R103, R240). -/
def engineOf (w : CmdWord) : Engine := if unitField w = 3 then .fr else .lzw

/-- A word that matches no row: `EngineFaulted` if its engine is faulted, else `BadCommand`; its payload is discarded (R240, R241). -/
def refuseUnmatched (w : CmdWord) (s : State) : StepOutcome :=
  unlessFaulted (engineOf w) s (refuse (engineOf w) .badCommand s)

/-! ### Reset (R50, R300, R301) -/

/-- The LZW engine at its reset values, the rest unchanged (R50, R301). -/
def resetLzw (s : State) : State :=
  { s with
    brValid := false, inLen := 0, bitpos := 0, codeWidth := 0, cur := 0, prev := 0,
    phase := .idle, mcs := 0, cts := 0, ctValid := false, maxKey := 0, outLen := 0,
    lzwFault := none, lzwRefused := false, input := [], dict := [], out := [] }

/-- The FR engine at its reset values, the rest unchanged (R50, R301). -/
def resetFr (s : State) : State :=
  { s with frbuf := [], frFault := none, frRefused := false }

/-- The reset input between operations (R300, R301); the parameters and what the host does next are no state of the block and stay. The response port is emptied: DESIGN CHOICE (log entry 4). -/
def applyReset (t : ResetTarget) (s : State) : StepOutcome :=
  match t with
  | .block => .next { resetFr (resetLzw s) with response := none }
  | .engine e =>
    if s.params.splitReset then
      match e with
      | .lzw => .next { resetLzw s with response := none }
      | .fr => .next { resetFr s with response := none }
    else .refused .noSplitReset

/-! ### Loading IN and a fresh table -/

/-- Construct the BitReader over a byte sequence: the body of `BR.LOAD` (R121), which `LZW.DECODE` performs too (R171). -/
def loadInput (bs : List Byte) (s : State) : State :=
  { s with input := bytesFrom 0 bs, inLen := bs.length, bitpos := 0, brValid := true }

/-- The entries of a fresh table: the literals `0 .. cts-1`, then the two sentinels (R143). -/
def freshDict (mcs cts : Nat) : Dict :=
  (List.range cts).map (fun i => (i, [Symbol.idx i])) ++ [(clrKey mcs, [.mclr]), (eoiKey mcs, [.meoi])]

/-- Initialize or reinitialize the table: the body of `CT.INIT` (R143), which `LZW.DECODE` performs at its start (R171) and on a Clear-Code (R177). -/
def initTable (mcs cts : Nat) (s : State) : State :=
  { s with dict := freshDict mcs cts, maxKey := clrKey mcs + 1, mcs := mcs, cts := cts, ctValid := true }

end Sys2Proof.Machine
end

