-- ==== Sys2Proof/Machine/Operands.lean ====
section
/-! DEFINITION. The operands' legality (30_encoding.md R102, 41_codetable.md R142), the bits a read consumes (20_memory.md R66), and the response in the bits of the interface (R105 to R107). -/

namespace Sys2Proof.Machine

/-- The legality of `mcs, cts` for `CT.INIT` and `LZW.DECODE` (R142). -/
def legalConfig (p : Params) (mcs cts : Nat) : Bool :=
  p.cwMax.allows (mcs + 1) && p.ctsMax.allows cts && p.keyMax.allows (clrKey mcs + 1)
    && decide (cts ≤ clrKey mcs)

/-- Bit address `q` of IN: bit `q mod 8` of byte `IN[q div 8]`, bit 0 the least significant (R61). -/
def inputBit (m : Memory) (q : Nat) : Option Bool :=
  (readCell m (q / 8)).map fun b => b.getLsbD (q % 8)

/-- The number of `width` bits at bit address `pos`, bit `i` of it the bit at `pos + i` (R66, R91, R122); `none` if some byte is not there. -/
def readBits (m : Memory) (pos : Nat) : (width : Nat) → Option Nat
  | 0 => some 0
  | w + 1 =>
    match readBits m pos w, inputBit m (pos + w) with
    | some v, some b => some (v + b.toNat <<< w)
    | _, _ => none

/-! ### The response's bits (R105 to R107) -/

/-- The STATUS number of a fault kind (R106). -/
def FaultKind.code : FaultKind → BitVec 8
  | .malformedHeader => 0x01#8
  | .unsupportedFeature => 0x02#8
  | .decodeProtocolViolation => 0x03#8
  | .truncatedInput => 0x04#8
  | .noFrameAvailable => 0x05#8
  | .capacityExceeded => 0x06#8

/-- The STATUS number of a refusal reason (R106). -/
def RefuseReason.code : RefuseReason → BitVec 8
  | .badCommand => 0x80#8
  | .badConfig => 0x81#8
  | .notReady => 0x82#8
  | .engineFaulted => 0x84#8

/-- The STATUS number (R106). -/
def Status.code : Status → BitVec 8
  | .ok => 0x00#8
  | .fault k => k.code
  | .refused r => r.code

/-- The result as it is delivered (R105). -/
inductive WireResult
  | nothing
  | number (v : BitVec 32)
  | bit (b : Bool)
  | bytes (bs : List Byte)
  | symbols (ws : List SymWord)
deriving DecidableEq, Repr

/-- The response as it is delivered (R105). -/
structure WireResponse where
  status : BitVec 8
  info : BitVec 32
  result : WireResult
deriving DecidableEq, Repr

/-- A number in 32 bits; of one that does not fit the word is a free value (R105, log entry 8). -/
def word32 (wide : Nat → BitVec 32) (v : Nat) : BitVec 32 :=
  if v < 2 ^ 32 then BitVec.ofNat 32 v else wide v

/-- The result in the interface's bits: a number zero-extended to 32 bits, symbols as symbol words (R105, R107). -/
def Result.wire : Result → WireResult
  | .nothing => .nothing
  | .number v => .number (word32 Config.wideNumberWord v)
  | .bit b => .bit b
  | .bytes bs => .bytes bs
  | .symbols ss => .symbols (ss.map Symbol.toWord)

/-- The response in the interface's bits (R105). -/
def Response.wire (r : Response) : WireResponse :=
  ⟨r.status.code, word32 Config.wideInfoWord r.info, r.result.wire⟩

end Sys2Proof.Machine
end

