-- ==== Sys2Proof/Machine/Flags.lean ====
section
/-! DEFINITION. The status bits and level outputs (10_state.md R38, 30_encoding.md R112): the sticky flags are State's own fields, the two predicates are computed from FRBUF. -/

namespace Sys2Proof.Machine

/-- The least index of a byte in a sequence, if it occurs (R14: `first_index`). -/
def firstIndex (b : Byte) : List Byte → Option Nat
  | [] => none
  | x :: xs => if x = b then some 0 else (firstIndex b xs).map (· + 1)

/-- `fr_swg`: the buffer is non-empty and its first byte is not START (R214). -/
def frSwgBit : List Byte → Bool
  | [] => false
  | b :: _ => decide (b ≠ startByte)

/-- `fr_hfg`: false if empty, true if it starts with garbage, else whether END occurs in it, tried in this order (R213). -/
def frHfgBit : List Byte → Bool
  | [] => false
  | b :: bs => if b ≠ startByte then true else (b :: bs).contains endByte

/-- The STATUS number of a fault record, `0x00` for none (R112). -/
def faultKindOutput : Option FaultRecord → BitVec 8
  | none => 0x00#8
  | some r => r.kind.code

/-- The level outputs (R112). -/
structure StatusOutputs where
  lzwFaultKind : BitVec 8
  frFaultKind : BitVec 8
  lzwRefused : Bool
  frRefused : Bool
  frHfg : Bool
  frSwg : Bool
deriving DecidableEq, Repr

/-- The level outputs of a state (R112). -/
def statusOutputs (s : State) : StatusOutputs where
  lzwFaultKind := faultKindOutput s.lzwFault
  frFaultKind := faultKindOutput s.frFault
  lzwRefused := s.lzwRefused
  frRefused := s.frRefused
  frHfg := frHfgBit s.frbuf
  frSwg := frSwgBit s.frbuf

end Sys2Proof.Machine
end

