-- ==== Sys2Proof/Machine/BitReader.lean ====
section
/-! DEFINITION. The BitReader: BR.LOAD and BR.READ (40_bitreader.md), and the read that the decompressor's fetch shares with BR.READ (R172). -/

namespace Sys2Proof.Machine

/-- Read `width` bits at `bitpos` and go on with the value and the advanced cursor, or raise `TruncatedInput` with `bitpos` as info and nothing consumed (R122, R123). -/
def consumeBits (width : Nat) (s : State) (go : Nat → State → StepOutcome) : StepOutcome :=
  if 8 * s.inLen < s.bitpos + width then raise .lzw .truncatedInput s.bitpos s
  else
    match readBits s.input s.bitpos width with
    | none => .fault (.inputAbsent s.bitpos)
    | some v => go v { s with bitpos := s.bitpos + width }

/-- `BR.LOAD [bytes]` (R121). -/
def execBrLoad (bytes : List Byte) (s : State) : StepOutcome :=
  unlessFaulted .lzw s <|
    if s.params.inMax.allows bytes.length then ok .nothing (loadInput bytes s)
    else raise .lzw .capacityExceeded 1 s

/-- `BR.READ width` (R122): `NotReady` before `BadConfig` before `TruncatedInput`. -/
def execBrRead (width : Nat) (s : State) : StepOutcome :=
  unlessFaulted .lzw s <|
    if s.brValid = false then refuse .lzw .notReady s
    else if s.params.rwMax.allows width = false then refuse .lzw .badConfig s
    else consumeBits width s fun v s' => ok (.number v) s'

end Sys2Proof.Machine
end

