-- ==== Sys2Proof/Machine/CodeTable.lean ====
section
/-! DEFINITION. The CodeTable: CT.INIT, CT.LOOKUP, CT.HAS, CT.INSERT (41_codetable.md), and the insertion that the decompressor shares with CT.INSERT (R193). -/

namespace Sys2Proof.Machine

/-- The info of a lookup of an absent key, `(2 << 24) | key` (R145, R261). -/
def absentKeyInfo (key : Nat) : Nat := (2 <<< 24) ||| key

/-- Insert a sequence under `max_key + 1` and go on, or raise `CapacityExceeded`: info 3 for KEY_MAX, then 4 for SEQ_MAX (R150, R193). -/
def insertNext (seq : List Symbol) (s : State) (go : State → StepOutcome) : StepOutcome :=
  if s.params.keyMax.allows (s.maxKey + 1) = false then raise .lzw .capacityExceeded 3 s
  else if s.params.seqMax.allows seq.length = false then raise .lzw .capacityExceeded 4 s
  else go (writeDict (s.maxKey + 1) seq { s with maxKey := s.maxKey + 1 })

/-- `CT.INIT mcs, cts` (R143). -/
def execCtInit (mcs cts : Nat) (s : State) : StepOutcome :=
  unlessFaulted .lzw s <|
    if legalConfig s.params mcs cts then ok .nothing (initTable mcs cts s)
    else refuse .lzw .badConfig s

/-- `CT.LOOKUP code` (R145). -/
def execCtLookup (code : Nat) (s : State) : StepOutcome :=
  unlessFaulted .lzw s <|
    if s.ctValid = false then refuse .lzw .notReady s
    else
      match readDict s code with
      | none => raise .lzw .decodeProtocolViolation (absentKeyInfo code) s
      | some seq => ok (.symbols seq) s

/-- `CT.HAS code` (R148). -/
def execCtHas (code : Nat) (s : State) : StepOutcome :=
  unlessFaulted .lzw s <|
    if s.ctValid = false then refuse .lzw .notReady s
    else ok (.bit (readDict s code).isSome) s

/-- `CT.INSERT [words]` (R150): an unassigned symbol word refuses `BadConfig` (R107). -/
def execCtInsert (words : List SymWord) (s : State) : StepOutcome :=
  unlessFaulted .lzw s <|
    if s.ctValid = false then refuse .lzw .notReady s
    else
      match symbolsOfWords words with
      | none => refuse .lzw .badConfig s
      | some seq => insertNext seq s (ok .nothing)

end Sys2Proof.Machine
end

