-- ==== Sys2Proof/Machine/Lzw.lean ====
section
/-! DEFINITION. The LzwDecompressor (42_lzw_decompress.md): the code-word classes of R173 to R180, one small step per code word, and LZW.DECODE, which is the entry of R171 and then these steps until the phase is IDLE again (R184). -/

namespace Sys2Proof.Machine

/-! ### The micro-operations -/

/-- The info of a first code word that is not the Clear-Code, `(1 << 24) | code` (R173, R261). -/
def notClearInfo (code : Nat) : Nat := (1 <<< 24) ||| code

/-- `widen(c)` (R176). -/
def widen (c : Nat) (s : State) (go : State → StepOutcome) : StepOutcome :=
  if c = allOnes s.codeWidth then
    if s.params.cwMax.allows (s.codeWidth + 1) = false then raise .lzw .capacityExceeded 2 s
    else go { s with codeWidth := s.codeWidth + 1 }
  else go s

/-- `append(s)` (R193). -/
def appendOut (seq : List Symbol) (s : State) (go : State → StepOutcome) : StepOutcome :=
  if s.params.outMax.allows (s.outLen + seq.length) = false then raise .lzw .capacityExceeded 5 s
  else go { s with out := s.out ++ seq, outLen := s.outLen + seq.length }

/-- `finish()` (R182). -/
def finish (s : State) : StepOutcome :=
  ok (.symbols s.out) { s with brValid := false, ctValid := false, phase := .idle }

/-- The step in phase EXPECT_CLEAR, after its fetch (R173). -/
def expectClear (c : Nat) (s : State) : StepOutcome :=
  if c = clrKey s.mcs then .next { s with cur := c, phase := .first }
  else raise .lzw .decodeProtocolViolation (notClearInfo c) s

/-- The lookup and append of the step in phase FIRST (R174). -/
def firstCode (c : Nat) (s : State) : StepOutcome :=
  match readDict s c with
  | none => raise .lzw .decodeProtocolViolation (absentKeyInfo c) s
  | some seq => appendOut seq s fun s' => .next { s' with cur := c, phase := .loop }

/-- `present(c, prev)` with `prev` in its register (R179, R181). Its lookup of `c` finds a sequence whenever the class is right; where it does not, the lookup is the impossible one of R263. -/
def presentCode (c : Nat) (s : State) : StepOutcome :=
  match readDict s c with
  | none => raise .lzw .decodeProtocolViolation (absentKeyInfo c) s
  | some seq =>
    appendOut seq s fun s' =>
      match seq with
      | [] => .fault (.emptySequence c)
      | k :: _ =>
        match readDict s' s'.prev with
        | none => raise .lzw .decodeProtocolViolation (absentKeyInfo s'.prev) s'
        | some p => insertNext (p ++ [k]) s' fun s'' => .next { s'' with phase := .loop }

/-- `absent(c, prev)` with `prev` in its register; it does not depend on `c` (R180, R181). -/
def absentCode (s : State) : StepOutcome :=
  match readDict s s.prev with
  | none => raise .lzw .decodeProtocolViolation (absentKeyInfo s.prev) s
  | some p =>
    match p with
    | [] => .fault (.emptySequence s.prev)
    | k :: _ =>
      appendOut (p ++ [k]) s fun s' =>
        insertNext (p ++ [k]) s' fun s'' => .next { s'' with phase := .loop }

/-! ### The code-word classes

Each runs after the fetch, which has advanced `bitpos` (R172). `width` is the width the word was fetched at. -/

/-- `CW.CLEAR` (R177): legal first word in EXPECT_CLEAR (R173); in FIRST and LOOP it reinitializes the table with the decode's own `mcs`, `cts`, keeps the width, and goes on as a present code. -/
def execCwClear (code _width : Nat) (s : State) : StepOutcome :=
  match s.phase with
  | .idle => .refused .noDecodeInProgress
  | .expectClear => expectClear code s
  | .first => firstCode code (initTable s.mcs s.cts s)
  | .loop => presentCode code (initTable s.mcs s.cts { s with cur := code })

/-- `CW.EOI` (R178): ends the decode in LOOP; in FIRST it is handled as present (R190). -/
def execCwEoi (code _width : Nat) (s : State) : StepOutcome :=
  match s.phase with
  | .idle => .refused .noDecodeInProgress
  | .expectClear => expectClear code s
  | .first => firstCode code s
  | .loop => finish { s with cur := code }

/-- `CW.PRESENT` (R179; in FIRST the append of R174 only). -/
def execCwPresent (code _width : Nat) (s : State) : StepOutcome :=
  match s.phase with
  | .idle => .refused .noDecodeInProgress
  | .expectClear => expectClear code s
  | .first => firstCode code s
  | .loop => presentCode code { s with cur := code }

/-- `CW.ABSENT` (R180; in FIRST the fault of R174). -/
def execCwAbsent (code _width : Nat) (s : State) : StepOutcome :=
  match s.phase with
  | .idle => .refused .noDecodeInProgress
  | .expectClear => expectClear code s
  | .first => raise .lzw .decodeProtocolViolation (absentKeyInfo code) s
  | .loop => absentCode { s with cur := code }

/-- The meaning of a class. -/
def execClass : CwClass → Nat → Nat → State → StepOutcome
  | .clear => execCwClear
  | .eoi => execCwEoi
  | .present => execCwPresent
  | .absent => execCwAbsent

/-- `CW.WIDEN`: the widen rule, then the code's class (R94, R176). In EXPECT_CLEAR the rule is not applied (R191). -/
def execCwWiden (cls : CwClass) (code width : Nat) (s : State) : StepOutcome :=
  match s.phase with
  | .idle => .refused .noDecodeInProgress
  | .expectClear => execClass cls code width s
  | .first => widen code s (execClass cls code width)
  | .loop => widen code { s with cur := code } (execClass cls code width)

/-! ### The step over code words -/

/-- What the class of a code value depends on, in a state (R94). -/
def codeContext (c : Nat) (s : State) : CodeContext := ⟨s.phase, s.mcs, (readDict s c).isSome⟩

/-- The fetch of a step (R172): `code_width` bits, after `prev <- cur` in phase LOOP (R175). -/
def fetchCode (s : State) (go : Nat → State → StepOutcome) : StepOutcome :=
  let s := if s.phase = .loop then { s with prev := s.cur } else s
  consumeBits s.codeWidth s go

/-- The meaning of the code word `c` fetched at the current width: class and modifier as `decodeCode` reads them (R94). -/
def runCode (c : Nat) (s : State) : StepOutcome :=
  let ctx := codeContext c s
  if ctx.phase.widens ∧ c = allOnes s.codeWidth then execCwWiden (classOf ctx c) c s.codeWidth s
  else execClass (classOf ctx c) c s.codeWidth s

/-- One step of a decode: fetch one code word and run it (R173, R174, R175). -/
def codeStep (s : State) : StepOutcome := fetchCode s runCode

/-- At most `n` steps, until the phase is IDLE (R182, R183). -/
def runDecode : Nat → State → StepOutcome
  | 0, s => .next s
  | n + 1, s =>
    match codeStep s with
    | .next s' => if s'.phase = .idle then .next s' else runDecode n s'
    | .fault f => .fault f
    | .refused r => .refused r

/-- The initialisation of a decode (R171, the lines after the checks). -/
def enterDecode (mcs cts : Nat) (bytes : List Byte) (s : State) : State :=
  { initTable mcs cts (loadInput bytes s) with
    codeWidth := mcs + 1, out := [], outLen := 0, phase := .expectClear }

/-- The bound of R185 on the fetches of a decode over `n` bytes. -/
def maxFetches (mcs n : Nat) : Nat := 1 + 8 * n / (mcs + 1)

/-- `LZW.DECODE mcs, cts, [bytes]` (R170, R171, R184), atomic for the host (R80): the checks in R171's order, the initialisation, then the steps until the decode ends. -/
def execLzwDecode (mcs cts : Nat) (bytes : List Byte) (s : State) : StepOutcome :=
  unlessFaulted .lzw s <|
    if legalConfig s.params mcs cts = false then refuse .lzw .badConfig s
    else if s.params.inMax.allows bytes.length = false then raise .lzw .capacityExceeded 1 s
    else runDecode (maxFetches mcs bytes.length) (enterDecode mcs cts bytes s)

end Sys2Proof.Machine
end

