-- ==== Sys2Proof/Machine/Reassembler.lean ====
section
/-! DEFINITION. The FrameReassembler (43_frame_reassembler.md): FR.APPEND, FR.HASFG, FR.SWG, FR.TAKEG, FR.TAKEF, FR.CLEAR, and the arrival of one byte of the frame stream (R97). -/

namespace Sys2Proof.Machine

/-- The bytes enter FRBUF at its end, or `CapacityExceeded` 6 is raised and FRBUF stays (R212). -/
def arrive (bytes : List Byte) (s : State) : StepOutcome :=
  unlessFaulted .fr s <|
    if s.params.bufMax.allows (s.frbuf.length + bytes.length) then
      ok .nothing { s with frbuf := s.frbuf ++ bytes }
    else raise .fr .capacityExceeded 6 s

/-- `FR.APPEND [bytes]` (R212). -/
def execFrAppend (bytes : List Byte) (s : State) : StepOutcome := arrive bytes s

/-- `FR.HASFG` (R213). -/
def execFrHasfg (s : State) : StepOutcome :=
  unlessFaulted .fr s (ok (.bit (frHfgBit s.frbuf)) s)

/-- `FR.SWG` (R214). -/
def execFrSwg (s : State) : StepOutcome :=
  unlessFaulted .fr s (ok (.bit (frSwgBit s.frbuf)) s)

/-- The length of the garbage before the first START, all of the buffer if there is none (R215). -/
def garbageLength (buf : List Byte) : Nat := (firstIndex startByte buf).getD buf.length

/-- `FR.TAKEG` (R215). -/
def execFrTakeg (s : State) : StepOutcome :=
  unlessFaulted .fr s <|
    ok (.bytes (s.frbuf.take (garbageLength s.frbuf)))
      { s with frbuf := s.frbuf.drop (garbageLength s.frbuf) }

/-- `FR.TAKEF` (R216): the prefix up to and including the first END; START is not looked for. -/
def execFrTakef (s : State) : StepOutcome :=
  unlessFaulted .fr s <|
    match firstIndex endByte s.frbuf with
    | none => raise .fr .noFrameAvailable s.frbuf.length s
    | some j => ok (.bytes (s.frbuf.take (j + 1))) { s with frbuf := s.frbuf.drop (j + 1) }

/-- `FR.CLEAR` (R217). -/
def execFrClear (s : State) : StepOutcome :=
  unlessFaulted .fr s (ok .nothing { s with frbuf := [] })

/-! ### One byte of the frame stream (R97)

A byte's arrival is an `FR.APPEND` (R276); what its class means is what FRBUF then answers (R213 to R216). DESIGN CHOICE (log entry 5): executing a frame-stream byte is the `FR.APPEND` of that byte alone. -/

/-- `B.START`: a start sentinel arrives. -/
def execBStart (s : State) : StepOutcome := arrive [startByte] s

/-- `B.END`: an end sentinel arrives. -/
def execBEnd (s : State) : StepOutcome := arrive [endByte] s

/-- `B.DATA`: a byte of content or garbage arrives. -/
def execBData (b : Byte) (s : State) : StepOutcome := arrive [b] s

end Sys2Proof.Machine
end

