-- ==== Sys2Proof/Machine/Dispatch.lean ====
section
/-! DEFINITION. One arm per instruction: its meaning. -/

namespace Sys2Proof.Machine

def exec (i : Instr) (s : State) : Host.Outcome State Fault Refusal :=
  match i with
  | .brLoad bytes => Sys2Proof.Machine.execBrLoad bytes s
  | .brRead width => Sys2Proof.Machine.execBrRead width s
  | .ctInit mcs cts => Sys2Proof.Machine.execCtInit mcs cts s
  | .ctLookup code => Sys2Proof.Machine.execCtLookup code s
  | .ctHas code => Sys2Proof.Machine.execCtHas code s
  | .ctInsert words => Sys2Proof.Machine.execCtInsert words s
  | .lzwDecode mcs cts bytes => Sys2Proof.Machine.execLzwDecode mcs cts bytes s
  | .frAppend bytes => Sys2Proof.Machine.execFrAppend bytes s
  | .frHasfg => Sys2Proof.Machine.execFrHasfg s
  | .frSwg => Sys2Proof.Machine.execFrSwg s
  | .frTakeg => Sys2Proof.Machine.execFrTakeg s
  | .frTakef => Sys2Proof.Machine.execFrTakef s
  | .frClear => Sys2Proof.Machine.execFrClear s
  | .cwWiden cls code width => Sys2Proof.Machine.execCwWiden cls code width s
  | .cwClear code width => Sys2Proof.Machine.execCwClear code width s
  | .cwEoi code width => Sys2Proof.Machine.execCwEoi code width s
  | .cwPresent code width => Sys2Proof.Machine.execCwPresent code width s
  | .cwAbsent code width => Sys2Proof.Machine.execCwAbsent code width s
  | .bStart => Sys2Proof.Machine.execBStart s
  | .bEnd => Sys2Proof.Machine.execBEnd s
  | .bData b => Sys2Proof.Machine.execBData b s

end Sys2Proof.Machine
end

