-- ==== Sys2Proof/Machine/Issue.lean ====
section
/-! DEFINITION. What the block does with one host input (44_host_protocol.md R240), and with one code word while a decode is in progress (R172 to R175). -/

namespace Sys2Proof.Machine

/-- A command word with its payload: a matching row's meaning, else the refusal of an unmatched word (R240). A meaning's own first check is the fault record, so `EngineFaulted` comes before everything (R242). -/
def issueCommand (w : CmdWord) (p : Payload) (s : State) : StepOutcome :=
  match decodeCommand w p with
  | .ok i => exec i s
  | .error _ => refuseUnmatched w s

/-- One host input: a command, a byte of the frame stream (log entry 5), or reset (R300). -/
def issue (x : HostInput) (s : State) : StepOutcome :=
  match x with
  | .command w p => issueCommand w p s
  | .frameByte b => exec (decodeFrameByte b) s
  | .rst t => applyReset t s

/-- The code word `c` fetched at the current width, run as the instruction it decodes to (R94). -/
def issueCode (c : Nat) (s : State) : StepOutcome :=
  exec (decodeCode (codeContext c s) c s.codeWidth) s

/-- The state in which the next step fetches and runs the table word `w` of `nbits` bits: the host's next input is that command word (with an empty payload) or frame byte; a code word lies in IN at `bitpos = 0` of a decode in phase LOOP at width 16 over a fresh table of `mcs = 2`, `cts = 4`. The code word before it, which the step reads as `prev` (R26, R175), is taken to be the literal 0, and OUT to be empty: DESIGN CHOICE (log entry 10). -/
def placeTableWord (s : State) (nbits w : Nat) : State :=
  match nbits with
  | 8 => { s with phase := .idle, host := .frameByte (BitVec.ofNat 8 w) :: s.host }
  | 16 =>
    { enterDecode 2 4 [BitVec.ofNat 8 w, BitVec.ofNat 8 (w / 2 ^ 8)] s with
      codeWidth := 16, cur := 0, phase := .loop }
  | _ => { s with phase := .idle, host := .command (BitVec.ofNat 32 w) (.bytes []) :: s.host }

end Sys2Proof.Machine
end

