-- ==== Sys2Proof/Machine/Step.lean ====
section
/-! DEFINITION. The step, and where it fetches. -/

namespace Sys2Proof.Machine

/-- One step (R80, R240): in phase IDLE the host's next input, and nothing at all while there is none (R300: "the block waits for its first command"); in any other phase the next code word at `bitpos` (R27, R172). The other phases are those of the small-step reading of R173 to R175: `LZW.DECODE` itself runs whole, so no step from phase IDLE ends in them. -/
def step (s : State) : Host.Outcome State Fault Refusal :=
  match s.phase with
  | .idle =>
    match s.host with
    | [] => .next s
    | x :: rest => issue x { s with host := rest }
  | .expectClear => fetchCode s issueCode
  | .first => fetchCode s issueCode
  | .loop => fetchCode s issueCode

/-- `s` with the table word `w` of `nbits` bits where the next step fetches. -/
def State.withFetchWord (s : State) (nbits w : Nat) : State := placeTableWord s nbits w

end Sys2Proof.Machine
end

