-- ==== Sys2Proof/Machine/HostLoops.lean ====
section
/-! DEFINITION. The host's loops over the block's operations: FR.DRAIN (44_host_protocol.md R243) and LZW.IMAGE (R245). They have no command word (R111); each is a sequence of ordinary operations, run here without interleaving (20_memory.md R82). -/

namespace Sys2Proof.Machine

/-- One operation and its response; `none` if the model itself stops. -/
def runOp (i : Instr) (s : State) : Option (Response × State) :=
  match exec i s with
  | .next s' => s'.response.map fun r => (r, s')
  | .fault _ => none
  | .refused _ => none

/-- A sequence of operations and their responses. -/
def runOps : List Instr → State → Option (List Response × State)
  | [], s => some ([], s)
  | i :: is, s =>
    match runOp i s with
    | none => none
    | some (r, s') => (runOps is s').map fun (rs, t) => (r :: rs, t)

/-- An item the consumer protocol takes (R243). -/
inductive Item
  | garbage (bs : List Byte)
  | frame (bs : List Byte)
deriving DecidableEq, Repr

/-- The bytes of an item. -/
def Item.bytes : Item → List Byte
  | .garbage bs => bs
  | .frame bs => bs

/-- Take one item with the given operation and go on with the loop. -/
def takeItem (i : Instr) (tag : List Byte → Item) (s : State)
    (go : State → Option (List Item × State)) : Option (List Item × State) :=
  match runOp i s with
  | some (⟨.ok, _, .bytes bs⟩, s') => (go s').map fun (items, t) => (tag bs :: items, t)
  | _ => none

/-- `FR.DRAIN` (R243), with a bound on its iterations (R244(b): `fr_len`); `none` if the bound runs out, a fault is raised or an operation is refused. -/
def frDrain : Nat → State → Option (List Item × State)
  | 0, _ => none
  | n + 1, s =>
    match runOp .frHasfg s with
    | some (⟨.ok, _, .bit true⟩, s1) =>
      match runOp .frSwg s1 with
      | some (⟨.ok, _, .bit true⟩, s2) => takeItem .frTakeg .garbage s2 (frDrain n)
      | some (⟨.ok, _, .bit false⟩, s2) => takeItem .frTakef .frame s2 (frDrain n)
      | _ => none
    | some (⟨.ok, _, .bit false⟩, s1) => some ([], s1)
    | _ => none

/-- How `LZW.IMAGE` ends (R245): at the sub-block length of zero; aborted by an `LZW.DECODE` that does not answer OK, with its response; or at the end of a file that has no such length (log entry 21). -/
inductive ImageEnd
  | complete
  | aborted (r : Response)
  | fileEnded
deriving DecidableEq, Repr

/-- What `LZW.IMAGE` leaves: the sequences decoded, in order, which the host paints (R6); the rest of the file; how it ended; the block's state. -/
structure ImageRun where
  decoded : List (List Symbol)
  rest : List Byte
  ending : ImageEnd
  final : State
deriving DecidableEq, Repr

/-- A sub-block's symbols stand before those of the sub-blocks behind it. -/
def ImageRun.after (syms : List Symbol) (r : ImageRun) : ImageRun := { r with decoded := syms :: r.decoded }

/-- The loop of `LZW.IMAGE` (R245), with a bound on its iterations: one independent `LZW.DECODE` per sub-block (R189) until a length of zero; `none` if the bound runs out or the model itself stops. -/
def lzwSubBlocks (mcs cts : Nat) : Nat → List Byte → State → Option ImageRun
  | 0, _, _ => none
  | _ + 1, [], s => some ⟨[], [], .fileEnded, s⟩
  | n + 1, len :: file, s =>
    if len.toNat = 0 then some ⟨[], file, .complete, s⟩
    else if file.length < len.toNat then some ⟨[], file, .fileEnded, s⟩
    else
      match runOp (.lzwDecode mcs cts (file.take len.toNat)) s with
      | some (⟨.ok, _, .symbols syms⟩, s') =>
        (lzwSubBlocks mcs cts n (file.drop len.toNat) s').map (ImageRun.after syms)
      | some (r, s') => some ⟨[], file.drop len.toNat, .aborted r, s'⟩
      | none => none

/-- `LZW.IMAGE` (R245) from the image data of a file on: the `mcs` byte, then the sub-blocks, each of which takes at least one byte. `cts` is the size of the global colour table. -/
def lzwImage (cts : Nat) (file : List Byte) (s : State) : Option ImageRun :=
  match file with
  | [] => some ⟨[], [], .fileEnded, s⟩
  | mcs :: blocks => lzwSubBlocks mcs.toNat cts (blocks.length + 1) blocks s

end Sys2Proof.Machine
end

