-- ==== Sys2Proof/Safety.lean ====
section
/-! DEFINITION. What claims are stated in: runs without a fault or a refusal, the invariant of the states a run can reach, and the parts of the state that belong to one engine. -/

namespace Sys2Proof.Machine

/-! ### Safe runs -/

/-- No fault and no refusal is recorded, the premise R33 and R268 give claims about a run. -/
def State.clean (s : State) : Bool :=
  s.lzwFault.isNone && s.frFault.isNone && !s.lzwRefused && !s.frRefused

/-! ### What stands in IN -/

/-- The `width` bits of IN from bit address `pos` on are there and spell `v`: bit `i` of `v` is bit `(pos+i) mod 8` of byte `(pos+i) div 8` (R66, R91). -/
def BitsAre (s : State) (pos width v : Nat) : Prop :=
  v < 2 ^ width ∧
  ∀ i < width, ∃ b, readIn s ((pos + i) / 8) = some b ∧ v.testBit i = b.getLsbD ((pos + i) % 8)

/-- The next code word is there and has the value `c` (R90, R91, R172). -/
def CodeAt (s : State) (c : Nat) : Prop :=
  s.bitpos + s.codeWidth ≤ 8 * s.inLen ∧ BitsAre s s.bitpos s.codeWidth c

/-- The state in which the code word just fetched is run: the cursor is past it, and in phase LOOP `prev` is what `cur` was (R172, R175). -/
def afterFetch (s : State) : State :=
  { s with bitpos := s.bitpos + s.codeWidth, prev := if s.phase = .loop then s.cur else s.prev }

/-- The entry a fresh table holds under a key: the literals, the two sentinels, nothing else (R62, R143). -/
def freshEntry (mcs cts k : Nat) : Option (List Symbol) :=
  if k < cts then some [.idx k]
  else if k = 2 ^ mcs then some [.mclr]
  else if k = 2 ^ mcs + 1 then some [.meoi]
  else none

/-! ### The engines' parts (R20) -/

/-- The LZW engine's part of two states is the same (R21 to R37). -/
structure SameLzw (s t : State) : Prop where
  brValid : s.brValid = t.brValid
  inLen : s.inLen = t.inLen
  bitpos : s.bitpos = t.bitpos
  codeWidth : s.codeWidth = t.codeWidth
  cur : s.cur = t.cur
  prev : s.prev = t.prev
  phase : s.phase = t.phase
  mcs : s.mcs = t.mcs
  cts : s.cts = t.cts
  ctValid : s.ctValid = t.ctValid
  maxKey : s.maxKey = t.maxKey
  outLen : s.outLen = t.outLen
  lzwFault : s.lzwFault = t.lzwFault
  lzwRefused : s.lzwRefused = t.lzwRefused
  input : s.input = t.input
  dict : s.dict = t.dict
  out : s.out = t.out

/-- The FR engine's part of two states is the same (R40 to R44). -/
structure SameFr (s t : State) : Prop where
  frbuf : s.frbuf = t.frbuf
  frFault : s.frFault = t.frFault
  frRefused : s.frRefused = t.frRefused

/-- The engine whose operation an instruction is (R101, R240); a code word is the LZW engine's, a frame-stream byte the FR engine's. -/
def engineOfInstr : Instr → Engine
  | .brLoad _ => .lzw
  | .brRead _ => .lzw
  | .ctInit _ _ => .lzw
  | .ctLookup _ => .lzw
  | .ctHas _ => .lzw
  | .ctInsert _ => .lzw
  | .lzwDecode _ _ _ => .lzw
  | .frAppend _ => .fr
  | .frHasfg => .fr
  | .frSwg => .fr
  | .frTakeg => .fr
  | .frTakef => .fr
  | .frClear => .fr
  | .cwWiden _ _ _ => .lzw
  | .cwClear _ _ => .lzw
  | .cwEoi _ _ => .lzw
  | .cwPresent _ _ => .lzw
  | .cwAbsent _ _ => .lzw
  | .bStart => .fr
  | .bEnd => .fr
  | .bData _ => .fr

/-- A code word, which runs inside a decode only; every other instruction is an operation of the host. -/
def isCodeWord : Instr → Bool
  | .cwWiden _ _ _ => true
  | .cwClear _ _ => true
  | .cwEoi _ _ => true
  | .cwPresent _ _ => true
  | .cwAbsent _ _ => true
  | _ => false

/-- What a fault inside a decode leaves: the record, the response with status and info and no result, no reader, no table, phase IDLE; the FR engine, the refused flag, the parameters and the host's inputs as they were (R183, R270). It says nothing of the registers and memories that R272 makes unobservable. -/
def FaultsWith (s : State) (kind : FaultKind) (info : Nat) (o : StepOutcome) : Prop :=
  ∃ t, o = .next t ∧ t.lzwFault = some ⟨kind, info⟩ ∧ t.response = some ⟨.fault kind, info, .nothing⟩ ∧
    t.brValid = false ∧ t.ctValid = false ∧ t.phase = .idle ∧
    SameFr s t ∧ t.lzwRefused = s.lzwRefused ∧ t.params = s.params ∧ t.host = s.host

/-! ### Bytes in and out of the FR engine (R220) -/

/-- The bytes an operation appends to FRBUF. -/
def appendedBytes : Instr → List Byte
  | .frAppend bs => bs
  | .bStart => [startByte]
  | .bEnd => [endByte]
  | .bData b => [b]
  | _ => []

/-- The bytes a response of the FR engine returns. -/
def returnedBytes (r : Response) : List Byte :=
  match r.result with
  | .bytes bs => bs
  | _ => []

/-! ### The invariant -/

/-- One capacity is no larger than another. -/
def capacityLe : Capacity → Capacity → Bool
  | .atMost m, .atMost n => decide (m ≤ n)
  | _, .unbounded => true
  | .unbounded, .atMost _ => false

/-- The constraints on the parameters (92_eei_decisions.md, open parameters; R107): `RW_MAX >= CW_MAX`, `SEQ_MAX >= 1`, `CTS_MAX <= 2^15`. -/
def paramsWf (p : Params) : Bool :=
  capacityLe p.cwMax p.rwMax && p.seqMax.allows 1 && capacityLe p.ctsMax (.atMost (2 ^ Config.idxW))

/-- A value that a code of the largest width can have (R26: `< 2^CW_MAX`). -/
def belowCodes : Capacity → Nat → Bool
  | .atMost w, c => decide (c < 2 ^ w)
  | .unbounded, _ => true

/-- A symbol that has a symbol word (R107). -/
def symbolFits : Symbol → Bool
  | .idx i => decide (i < 2 ^ Config.idxW)
  | .mclr => true
  | .meoi => true

/-- `IN` holds exactly the bytes `0 .. in_len-1`, the cursor lies in it, and `in_len` passes no capacity (R23, R24, R34). -/
abbrev State.InputOk (s : State) : Prop :=
  s.input.map Prod.fst = List.range s.inLen ∧ s.bitpos ≤ 8 * s.inLen ∧ s.params.inMax.allows s.inLen

/-- While the table is valid: the configuration is legal, the table begins with the fresh entries, the derived keys follow without a gap up to `max_key`, and no capacity is passed (R28, R30, R35, R62, R142, R146). -/
abbrev State.TableOk (s : State) : Prop :=
  s.ctValid = true →
    legalConfig s.params s.mcs s.cts ∧
    s.dict.take (s.cts + 2) = freshDict s.mcs s.cts ∧
    (s.dict.drop (s.cts + 2)).map Prod.fst = List.range' (eoiKey s.mcs + 1) (s.maxKey - eoiKey s.mcs) ∧
    eoiKey s.mcs ≤ s.maxKey ∧
    s.params.keyMax.allows s.maxKey ∧
    ∀ e ∈ s.dict, s.params.seqMax.allows e.2.length

/-- While a decode is in progress: input and table are there, the engine is not faulted, the width has not fallen below its start, and every derived entry has length at least 2 (R22, R29, R186, R188). -/
abbrev State.DecodeOk (s : State) : Prop :=
  s.phase ≠ .idle →
    s.brValid = true ∧ s.ctValid = true ∧ s.lzwFault = none ∧ s.mcs + 1 ≤ s.codeWidth ∧
    ∀ e ∈ s.dict.drop (s.cts + 2), 2 ≤ e.2.length

/-- `code_width`, `cur` and `prev` are in their ranges (R25, R26). -/
abbrev State.CodesOk (s : State) : Prop :=
  s.params.cwMax.allows s.codeWidth ∧ belowCodes s.params.cwMax s.cur ∧ belowCodes s.params.cwMax s.prev

/-- `out_len` is the length of OUT, FRBUF passes no capacity, and every stored symbol has a symbol word (R31, R36, R40, R107). -/
abbrev State.SequencesOk (s : State) : Prop :=
  s.outLen = s.out.length ∧ s.params.outMax.allows s.outLen ∧ s.params.bufMax.allows s.frbuf.length ∧
  (∀ x ∈ s.out, symbolFits x) ∧ ∀ e ∈ s.dict, ∀ x ∈ e.2, symbolFits x

/-- The kinds an engine can record (R261). -/
def kindsOf : Engine → List FaultKind
  | .lzw => [.decodeProtocolViolation, .truncatedInput, .capacityExceeded]
  | .fr => [.noFrameAvailable, .capacityExceeded]

/-- A fault record is of a kind its engine raises, and a faulted LZW engine has no reader, no table and no decode (R261, R270). -/
abbrev State.FaultsOk (s : State) : Prop :=
  (∀ r ∈ s.lzwFault, r.kind ∈ kindsOf .lzw ∧ s.brValid = false ∧ s.ctValid = false ∧ s.phase = .idle) ∧
  ∀ r ∈ s.frFault, r.kind ∈ kindsOf .fr

/-- A status the block produces (R106: the kinds reserved for the host are never produced). -/
def statusProduced : Status → Bool
  | .ok => true
  | .fault k => k ∈ kindsOf .lzw || k ∈ kindsOf .fr
  | .refused _ => true

/-- The symbols of a result all have symbol words (R107). -/
def resultFits : Result → Bool
  | .symbols ss => ss.all symbolFits
  | _ => true

/-- A response whose status is not OK carries no result, INFO is the fault's info, else 0, and what is emitted is assigned (R105, R106, R107). -/
abbrev State.ResponseOk (s : State) : Prop :=
  ∀ r ∈ s.response, statusProduced r.status ∧ resultFits r.result ∧
    (r.status ≠ .ok → r.result = .nothing) ∧ ((∀ k, r.status ≠ .fault k) → r.info = 0)

/-- The invariant of the states a run can reach. -/
structure State.Inv (s : State) : Prop where
  params : paramsWf s.params = true
  input : s.InputOk
  dictWf : Dict.wf s.dict
  table : s.TableOk
  decode : s.DecodeOk
  codes : s.CodesOk
  sequences : s.SequencesOk
  faults : s.FaultsOk
  response : s.ResponseOk

/-- The next host input asks for a reset of one engine on a block that cannot do it (R301). -/
def State.asksSplitReset (s : State) : Bool :=
  match s.host with
  | .rst (.engine _) :: _ => !s.params.splitReset
  | _ => false

end Sys2Proof.Machine
end

