-- ==== Sys2Proof/Certificates/Slice0/Obligations.lean ====
section
/-! DEFINITION. The statements for the provers, from the numbered rules of spec/. `enterFault` and `enterRefusal` are the model's fault entry and refusal; `FaultEntryRecordsTheFault` and `RefusalsChangeOnlyTheRefusedFlag` say what they leave. -/

open Sys2Proof Sys2Proof.Machine

/-! ### Encodings -/

/-- Decoding the encoded form of a well-formed instruction, in a context it can be read in, gives it back with every operand (R90 to R97, R101, R102). -/
def Obligations.DecodeOfEncodeIsTheInstruction : Prop :=
  ∀ (ctx : CodeContext) (i : Instr), i.wf = true → i.fits ctx = true →
    (encode i).decode ctx = .ok i

/-- A command word decodes exactly when it selects a row of the opcode map; the row is unique, has the instruction's mnemonic, and encoding the instruction gives the word back (R101 to R103). -/
def Obligations.CommandWordsFollowTheOpcodeMap : Prop :=
  ∀ (w : CmdWord) (p : Payload),
    match decodeCommand w p with
    | .ok i =>
      (opcodeMap.filter fun r => r.selects w).map OpcodeRow.mnemonic = [i.mnemonic] ∧
      i.wf = true ∧ ∃ q, encode i = .command w q
    | .error _ => ∀ r ∈ opcodeMap, r.selects w = false

/-- Words written out in the spec's small programs, vectors and rules decode to what they stand for (R91, R97, R101, R107; P1 to P4, V-CMD-01 to V-CMD-08). -/
def Obligations.WordsOfTheSpecDecode : Prop :=
  decodeCommand 0x00000000#32 (.bytes [0x8C#8, 0x5F#8]) = .ok (.brLoad [0x8C#8, 0x5F#8]) ∧
  decodeCommand 0x01000003#32 (.bytes []) = .ok (.brRead 3) ∧
  decodeCommand 0x10000402#32 (.bytes []) = .ok (.ctInit 2 4) ∧
  decodeCommand 0x11000006#32 (.bytes []) = .ok (.ctLookup 6) ∧
  decodeCommand 0x12000007#32 (.bytes []) = .ok (.ctHas 7) ∧
  decodeCommand 0x13000000#32 (.symbols [1#16, 1#16]) = .ok (.ctInsert [1#16, 1#16]) ∧
  decodeCommand 0x20010008#32 (.bytes [0x00#8]) = .ok (.lzwDecode 8 256 [0x00#8]) ∧
  decodeCommand 0x30000000#32 (.bytes [0x01#8, 0x10#8]) = .ok (.frAppend [0x01#8, 0x10#8]) ∧
  decodeCommand 0x31000000#32 (.bytes []) = .ok .frHasfg ∧
  decodeCommand 0x32000000#32 (.bytes []) = .ok .frSwg ∧
  decodeCommand 0x33000000#32 (.bytes []) = .ok .frTakeg ∧
  decodeCommand 0x34000000#32 (.bytes []) = .ok .frTakef ∧
  decodeCommand 0x35000000#32 (.bytes []) = .ok .frClear ∧
  decodeCommand 0x01000103#32 (.bytes []) = .error .argNotZero ∧
  decodeCommand 0x31000001#32 (.bytes []) = .error .argNotZero ∧
  decodeCommand 0x14000000#32 (.bytes []) = .error .unassignedFunc ∧
  decodeCommand 0xF0000000#32 (.bytes []) = .error .unassignedUnit ∧
  (Encoded.code [false, false, true]).decode ⟨.expectClear, 2, true⟩ = .ok (.cwClear 4 3) ∧
  (Encoded.code [true, false, true]).decode ⟨.loop, 2, true⟩ = .ok (.cwEoi 5 3) ∧
  (Encoded.code [true, false, false]).decode ⟨.first, 2, true⟩ = .ok (.cwPresent 1 3) ∧
  (Encoded.code [false, true, true]).decode ⟨.loop, 2, false⟩ = .ok (.cwAbsent 6 3) ∧
  (Encoded.code [true, true, true]).decode ⟨.loop, 2, false⟩ = .ok (.cwWiden .absent 7 3) ∧
  (Encoded.frameByte 0x01#8).decode ⟨.idle, 0, false⟩ = .ok .bStart ∧
  (Encoded.frameByte 0x02#8).decode ⟨.idle, 0, false⟩ = .ok .bEnd ∧
  (Encoded.frameByte 0xAA#8).decode ⟨.idle, 0, false⟩ = .ok (.bData 0xAA#8) ∧
  symbolOfWord 0x8000#16 = some .mclr ∧ symbolOfWord 0x8001#16 = some .meoi ∧
  symbolOfWord 0x0003#16 = some (.idx 3) ∧ symbolOfWord 0x8002#16 = none

/-- Symbol words and symbols name each other one to one, and the unassigned words are `0x8002 .. 0xFFFF` (R107). -/
def Obligations.SymbolWordsNameSymbolsOneToOne : Prop :=
  (∀ x : Symbol, symbolFits x = true → symbolOfWord x.toWord = some x) ∧
  (∀ (w : SymWord) (x : Symbol), symbolOfWord w = some x → x.toWord = w) ∧
  (∀ w : SymWord, symbolOfWord w = none ↔ 0x8002 ≤ w.toNat)

/-- A code stream packed into bytes and loaded spells, at the bit where each code word begins, that code word's value at its width (R90, R91, R113). -/
def Obligations.PackedCodeStreamSpellsItsCodeWords : Prop :=
  ∀ (pre post : List (Nat × Nat)) (c w : Nat) (s : State),
    c < 2 ^ w →
    s.input = bytesFrom 0 (packCodes (pre ++ (c, w) :: post)) →
    BitsAre s (pre.map Prod.snd).sum w c

/-! ### Outcomes of an operation -/

/-- Each outcome is delivered under its STATUS number, and in a state that meets the invariant the response's number is `0x00`, `0x03` to `0x06`, `0x80`, `0x81`, `0x82` or `0x84`: the host's own two and the unassigned ones are never produced (R106). -/
def Obligations.ResponsesCarryTheStatusNumbers : Prop :=
  Status.ok.code = 0x00#8 ∧
  FaultKind.malformedHeader.code = 0x01#8 ∧ FaultKind.unsupportedFeature.code = 0x02#8 ∧
  (Status.fault .decodeProtocolViolation).code = 0x03#8 ∧ (Status.fault .truncatedInput).code = 0x04#8 ∧
  (Status.fault .noFrameAvailable).code = 0x05#8 ∧ (Status.fault .capacityExceeded).code = 0x06#8 ∧
  (Status.refused .badCommand).code = 0x80#8 ∧ (Status.refused .badConfig).code = 0x81#8 ∧
  (Status.refused .notReady).code = 0x82#8 ∧ (Status.refused .engineFaulted).code = 0x84#8 ∧
  ∀ (s : State) (r : Response), s.Inv → s.response = some r →
    r.wire.status ∈ [0x00#8, 0x03#8, 0x04#8, 0x05#8, 0x06#8, 0x80#8, 0x81#8, 0x82#8, 0x84#8]

/-- Fault entry: the instruction that writes a fault record leaves kind and info in the record, the code on the status output, status and info in a response without a result; the LZW engine loses reader, table and phase, the FR engine keeps its buffer; the other engine is as it was (R270). Every operation but `LZW.DECODE` changes nothing else (R272). -/
def Obligations.FaultEntryRecordsTheFault : Prop :=
  ∀ (i : Instr) (s t : State) (r : FaultRecord), exec i s = .next t →
    (s.lzwFault = none → t.lzwFault = some r →
      t.brValid = false ∧ t.ctValid = false ∧ t.phase = .idle ∧
      t.response = some ⟨.fault r.kind, r.info, .nothing⟩ ∧
      (statusOutputs t).lzwFaultKind = r.kind.code ∧ SameFr s t ∧
      (isCodeWord i = false → (∀ mcs cts bytes, i ≠ .lzwDecode mcs cts bytes) →
        t = { s with
          lzwFault := some r, brValid := false, ctValid := false, phase := .idle
          response := some ⟨.fault r.kind, r.info, .nothing⟩ })) ∧
    (s.frFault = none → t.frFault = some r →
      t = { s with frFault := some r, response := some ⟨.fault r.kind, r.info, .nothing⟩ } ∧
      (statusOutputs t).frFaultKind = r.kind.code)

/-- A refused operation performs nothing: the state differs in its engine's refused flag and in the response, which names the reason and has no result (R17, R268). -/
def Obligations.RefusalsChangeOnlyTheRefusedFlag : Prop :=
  ∀ (i : Instr) (s t : State) (reason : RefuseReason) (info : Nat) (v : Result),
    isCodeWord i = false → exec i s = .next t →
    t.response = some ⟨.refused reason, info, v⟩ →
    (engineOfInstr i = .lzw →
      t = { s with lzwRefused := true, response := some ⟨.refused reason, 0, .nothing⟩ }) ∧
    (engineOfInstr i = .fr →
      t = { s with frRefused := true, response := some ⟨.refused reason, 0, .nothing⟩ })

/-- While an engine's fault record is not `none`, every operation addressed to it is refused `EngineFaulted` and changes nothing but the refused flag (and the response); nothing of the other engine changes (R271). -/
def Obligations.FaultedEngineRefusesEveryOperation : Prop :=
  ∀ (i : Instr) (s : State), isCodeWord i = false →
    (engineOfInstr i = .lzw → s.lzwFault ≠ none →
      exec i s = .next { s with lzwRefused := true, response := some ⟨.refused .engineFaulted, 0, .nothing⟩ }) ∧
    (engineOfInstr i = .fr → s.frFault ≠ none →
      exec i s = .next { s with frRefused := true, response := some ⟨.refused .engineFaulted, 0, .nothing⟩ })

/-- A word that selects no row, issued between operations: refused `BadCommand` by the engine of its UNIT (UNIT 3 is FR, all others LZW), or `EngineFaulted` if that engine is faulted; nothing else changes and the payload is discarded (R103, R240, R241). -/
def Obligations.UnassignedCommandsAreRefused : Prop :=
  ∀ (s : State) (w : CmdWord) (p : Payload) (rest : List HostInput),
    s.phase = .idle → s.host = .command w p :: rest → (∀ r ∈ opcodeMap, r.selects w = false) →
    (w.extractLsb' 28 4 = 3#4 →
      step s = .next { s with
        host := rest, frRefused := true
        response := some ⟨.refused (if s.frFault = none then .badCommand else .engineFaulted), 0, .nothing⟩ }) ∧
    (w.extractLsb' 28 4 ≠ 3#4 →
      step s = .next { s with
        host := rest, lzwRefused := true
        response := some ⟨.refused (if s.lzwFault = none then .badCommand else .engineFaulted), 0, .nothing⟩ })

/-- Only reset clears a fault record or a refused flag, and a record is written once: any other step keeps a record that is there and a flag that is set (R32, R33, R42, R43, R274, R275). -/
def Obligations.FaultsAndRefusedFlagsStayUntilReset : Prop :=
  ∀ s t : State, s.Inv → step s = .next t →
    (∀ target rest, s.phase = .idle → s.host ≠ .rst target :: rest) →
    (∀ r, s.lzwFault = some r → t.lzwFault = some r) ∧
    (∀ r, s.frFault = some r → t.frFault = some r) ∧
    (s.lzwRefused = true → t.lzwRefused = true) ∧
    (s.frRefused = true → t.frRefused = true)

/-- After reset every register that R50 lists has the value R50 gives it, and the reset input between operations puts any state there, whatever was faulted or refused before (R50, R274, R300). -/
def Obligations.ResetLeavesTheValuesOfR50 : Prop :=
  ∀ (s : State) (rest : List HostInput),
    s.phase = .idle → s.host = .rst .block :: rest →
    ∃ t, step s = .next t ∧ t.host = rest ∧ t.params = s.params ∧
      ∀ u, u = t ∨ u = State.reset →
        u.brValid = false ∧ u.ctValid = false ∧ u.inLen = 0 ∧ u.bitpos = 0 ∧ u.phase = .idle ∧
        u.outLen = 0 ∧ u.out = [] ∧ u.lzwFault = none ∧ u.lzwRefused = false ∧
        u.frbuf = [] ∧ u.frFault = none ∧ u.frRefused = false

/-! ### The step -/

/-- Between operations a step runs the instruction that the host's next command word and payload decode to, or that its next frame-stream byte decodes to, on the state without that input; with no input the block waits (R240, R300). The frame byte as an input of its own is the model's choice (log entry 5). -/
def Obligations.StepRunsTheDecodedInput : Prop :=
  ∀ (s : State) (rest : List HostInput), s.phase = .idle →
    (∀ w p i, s.host = .command w p :: rest → decodeCommand w p = .ok i →
      step s = exec i { s with host := rest }) ∧
    (∀ b, s.host = .frameByte b :: rest →
      step s = exec (decodeFrameByte b) { s with host := rest }) ∧
    (s.host = [] → step s = .next s)

/-- During a decode a step fetches the code word at `bitpos` and runs the instruction it decodes to, with the cursor past the word and, in phase LOOP, `prev` set to what `cur` was (R94, R172, R175). -/
def Obligations.StepRunsTheFetchedCodeWord : Prop :=
  ∀ (s : State) (c : Nat), s.phase ≠ .idle → CodeAt s c →
    step s = exec (decodeCode ⟨s.phase, s.mcs, (readDict s c).isSome⟩ c s.codeWidth) (afterFetch s)

/-- A step never writes the parameters, and takes at most the first of the host's inputs (R12, R80). -/
def Obligations.StepKeepsParametersAndHostOrder : Prop :=
  ∀ s t : State, step s = .next t →
    t.params = s.params ∧ (t.host = s.host ∨ ∃ x, s.phase = .idle ∧ s.host = x :: t.host)

/-! ### BitReader -/

/-- `BR.LOAD`: `EngineFaulted`, then `CapacityExceeded` 1, else the bytes are in IN and nowhere else, the cursor is at 0 and the reader is valid; nothing else changes (R121). -/
def Obligations.BrLoadConstructsTheReader : Prop :=
  ∀ (bytes : List Byte) (s : State),
    (s.lzwFault ≠ none → exec (.brLoad bytes) s = .next (enterRefusal .lzw .engineFaulted s)) ∧
    (s.lzwFault = none → s.params.inMax.allows bytes.length = false →
      exec (.brLoad bytes) s = .next (enterFault .lzw .capacityExceeded 1 s)) ∧
    (s.lzwFault = none → s.params.inMax.allows bytes.length = true →
      ∃ m, exec (.brLoad bytes) s = .next { s with
          input := m, inLen := bytes.length, bitpos := 0, brValid := true
          response := some ⟨.ok, 0, .nothing⟩ } ∧
        ∀ a, readCell m a = bytes[a]?)

/-- `BR.READ width`: where the bits are there it answers the number whose bit `i` is the bit at `bitpos + i`, and moves only the cursor (R66, R122). -/
def Obligations.BrReadReturnsTheBitsAtTheCursor : Prop :=
  ∀ (width : Nat) (s : State), s.lzwFault = none → s.brValid = true → s.InputOk →
    s.params.rwMax.allows width = true → s.bitpos + width ≤ 8 * s.inLen →
    ∃ v, BitsAre s s.bitpos width v ∧
      exec (.brRead width) s = .next { s with
        bitpos := s.bitpos + width, response := some ⟨.ok, 0, .number v⟩ }

/-- `TruncatedInput` is raised when and only when fewer than `width` bits remain, with `bitpos` as info and the cursor unchanged; a read that ends on the last bit succeeds (R123). -/
def Obligations.BrReadFaultsExactlyPastTheEnd : Prop :=
  ∀ (width : Nat) (s : State), s.lzwFault = none → s.brValid = true → s.InputOk →
    s.params.rwMax.allows width = true →
    ∃ t, exec (.brRead width) s = .next t ∧
      (8 * s.inLen < s.bitpos + width ↔ t.lzwFault ≠ none) ∧
      (8 * s.inLen < s.bitpos + width →
        t = { s with
          lzwFault := some ⟨.truncatedInput, s.bitpos⟩, brValid := false, ctValid := false
          phase := .idle, response := some ⟨.fault .truncatedInput, s.bitpos, .nothing⟩ }) ∧
      (s.bitpos + width = 8 * s.inLen → t.bitpos = 8 * s.inLen ∧ t.lzwFault = none)

/-- `BR.READ 0` returns 0 and changes nothing, wherever the cursor is and whatever is loaded (R124). -/
def Obligations.BrReadOfWidthZeroChangesNothing : Prop :=
  ∀ s : State, s.lzwFault = none → s.brValid = true → s.bitpos ≤ 8 * s.inLen →
    exec (.brRead 0) s = .next { s with response := some ⟨.ok, 0, .number 0⟩ }

/-- Reading `w1` then `w2` bits leaves the same state as reading `w1 + w2` at once, whose value is `a + (b << w1)` (R125). -/
def Obligations.BrReadsCompose : Prop :=
  ∀ (w1 w2 : Nat) (s : State), s.lzwFault = none → s.brValid = true → s.InputOk →
    s.params.rwMax.allows (w1 + w2) = true → s.bitpos + (w1 + w2) ≤ 8 * s.inLen →
    ∃ a b sa sb, exec (.brRead w1) s = .next sa ∧ exec (.brRead w2) sa = .next sb ∧
      sa.response = some ⟨.ok, 0, .number a⟩ ∧ sb.response = some ⟨.ok, 0, .number b⟩ ∧
      exec (.brRead (w1 + w2)) s = .next { sb with response := some ⟨.ok, 0, .number (a + b <<< w1)⟩ }

/-- Without a reader `BR.READ`, without a table `CT.LOOKUP`, `CT.HAS` and `CT.INSERT` are refused `NotReady`, before their operands are looked at (R126, R149, R242, R277); with a reader, a width above RW_MAX is refused `BadConfig` (R122, R269). -/
def Obligations.NotReadyComesBeforeBadConfig : Prop :=
  ∀ s : State, s.lzwFault = none →
    (s.brValid = false → ∀ width, exec (.brRead width) s = .next (enterRefusal .lzw .notReady s)) ∧
    (s.brValid = true → ∀ width, s.params.rwMax.allows width = false →
      exec (.brRead width) s = .next (enterRefusal .lzw .badConfig s)) ∧
    (s.ctValid = false → ∀ code ws,
      exec (.ctLookup code) s = .next (enterRefusal .lzw .notReady s) ∧
      exec (.ctHas code) s = .next (enterRefusal .lzw .notReady s) ∧
      exec (.ctInsert ws) s = .next (enterRefusal .lzw .notReady s))

/-! ### CodeTable -/

/-- `CT.INIT`: `EngineFaulted`, then `BadConfig` on an illegal configuration; else exactly the literals and the two sentinels are present, `max_key = CLR + 1`, `mcs` and `cts` are the operands, and outside the table nothing changes (R143, R152). -/
def Obligations.CtInitSeedsTheTable : Prop :=
  ∀ (mcs cts : Nat) (s : State),
    (s.lzwFault ≠ none → exec (.ctInit mcs cts) s = .next (enterRefusal .lzw .engineFaulted s)) ∧
    (s.lzwFault = none → legalConfig s.params mcs cts = false →
      exec (.ctInit mcs cts) s = .next (enterRefusal .lzw .badConfig s)) ∧
    (s.lzwFault = none → legalConfig s.params mcs cts = true →
      ∃ d, exec (.ctInit mcs cts) s = .next { s with
          dict := d, maxKey := 2 ^ mcs + 1, mcs := mcs, cts := cts, ctValid := true
          response := some ⟨.ok, 0, .nothing⟩ } ∧
        ∀ k, readCell d k =
          if k < cts then some [.idx k]
          else if k = 2 ^ mcs then some [.mclr]
          else if k = 2 ^ mcs + 1 then some [.meoi]
          else none)

/-- `CT.INIT` and `LZW.DECODE` are refused `BadConfig`, changing nothing, exactly on the four conditions of R142: where none of them holds an unfaulted engine runs `CT.INIT` to OK and does not refuse `LZW.DECODE` at all (R142, R171). -/
def Obligations.IllegalConfigurationsAreRefused : Prop :=
  ∀ (mcs cts : Nat) (bytes : List Byte) (s : State), s.lzwFault = none →
    (s.params.cwMax.allows (mcs + 1) = false ∨ s.params.ctsMax.allows cts = false ∨
        s.params.keyMax.allows (2 ^ mcs + 1) = false ∨ 2 ^ mcs < cts →
      exec (.ctInit mcs cts) s = .next (enterRefusal .lzw .badConfig s) ∧
      exec (.lzwDecode mcs cts bytes) s = .next (enterRefusal .lzw .badConfig s)) ∧
    (¬ (s.params.cwMax.allows (mcs + 1) = false ∨ s.params.ctsMax.allows cts = false ∨
        s.params.keyMax.allows (2 ^ mcs + 1) = false ∨ 2 ^ mcs < cts) →
      (∃ t, exec (.ctInit mcs cts) s = .next t ∧ t.response = some ⟨.ok, 0, .nothing⟩) ∧
      ∃ t, exec (.lzwDecode mcs cts bytes) s = .next t ∧ t.lzwRefused = s.lzwRefused ∧
        ∀ reason info v, t.response ≠ some ⟨.refused reason, info, v⟩)

/-- Immediately after `CT.INIT mcs, cts`, `CT.LOOKUP c` returns `[c]` for every literal code `c` below `cts` (R144). -/
def Obligations.LiteralLookupAfterInit : Prop :=
  ∀ (mcs cts c : Nat) (s : State), s.lzwFault = none → legalConfig s.params mcs cts = true → c < cts →
    ∃ t, exec (.ctInit mcs cts) s = .next t ∧
      exec (.ctLookup c) t = .next { t with response := some ⟨.ok, 0, .symbols [.idx c]⟩ }

/-- `CT.LOOKUP`: `EngineFaulted`, then `NotReady`; else the sequence of a present key is returned and nothing changes, and an absent key faults `DecodeProtocolViolation` with `(2 << 24) | code` (R145). -/
def Obligations.CtLookupReturnsOrFaults : Prop :=
  ∀ (code : Nat) (s : State),
    (s.lzwFault ≠ none → exec (.ctLookup code) s = .next (enterRefusal .lzw .engineFaulted s)) ∧
    (s.lzwFault = none → s.ctValid = false →
      exec (.ctLookup code) s = .next (enterRefusal .lzw .notReady s)) ∧
    (s.lzwFault = none → s.ctValid = true →
      (∀ seq, readDict s code = some seq →
        exec (.ctLookup code) s = .next { s with response := some ⟨.ok, 0, .symbols seq⟩ }) ∧
      (readDict s code = none →
        exec (.ctLookup code) s =
          .next (enterFault .lzw .decodeProtocolViolation ((2 <<< 24) ||| code) s)))

/-- `CT.HAS`: `EngineFaulted`, then `NotReady`; else it answers whether the key is present and changes nothing, and under the invariant the present keys are exactly `0 .. cts-1` and `CLR .. max_key`, with `max_key >= CLR + 1` (R146, R148). -/
def Obligations.CtHasAnswersThePresentSet : Prop :=
  ∀ (code : Nat) (s : State),
    (s.lzwFault ≠ none → exec (.ctHas code) s = .next (enterRefusal .lzw .engineFaulted s)) ∧
    (s.lzwFault = none → s.ctValid = false →
      exec (.ctHas code) s = .next (enterRefusal .lzw .notReady s)) ∧
    (s.lzwFault = none → s.ctValid = true →
      exec (.ctHas code) s =
        .next { s with response := some ⟨.ok, 0, .bit (readDict s code).isSome⟩ }) ∧
    (s.Inv → s.ctValid = true →
      2 ^ s.mcs + 1 ≤ s.maxKey ∧
      ((readDict s code).isSome = true ↔ code < s.cts ∨ (2 ^ s.mcs ≤ code ∧ code ≤ s.maxKey)))

/-- `CT.INSERT`: `EngineFaulted`, then `NotReady`; an unassigned symbol word is refused `BadConfig`; a passed KEY_MAX faults with 3, then a passed SEQ_MAX with 4; else the sequence, empty or not, stands under `max_key + 1`, every other key reads as before, and nothing else changes (R150). -/
def Obligations.CtInsertAddsTheNextKey : Prop :=
  ∀ (words : List SymWord) (s : State),
    (s.lzwFault ≠ none → exec (.ctInsert words) s = .next (enterRefusal .lzw .engineFaulted s)) ∧
    (s.lzwFault = none → s.ctValid = false →
      exec (.ctInsert words) s = .next (enterRefusal .lzw .notReady s)) ∧
    (s.lzwFault = none → s.ctValid = true →
      ((∃ w ∈ words, 0x8002 ≤ w.toNat) →
        exec (.ctInsert words) s = .next (enterRefusal .lzw .badConfig s)) ∧
      (∀ seq : List Symbol, words.map symbolOfWord = seq.map some →
        (s.params.keyMax.allows (s.maxKey + 1) = false →
          exec (.ctInsert words) s = .next (enterFault .lzw .capacityExceeded 3 s)) ∧
        (s.params.keyMax.allows (s.maxKey + 1) = true → s.params.seqMax.allows words.length = false →
          exec (.ctInsert words) s = .next (enterFault .lzw .capacityExceeded 4 s)) ∧
        (s.params.keyMax.allows (s.maxKey + 1) = true → s.params.seqMax.allows words.length = true →
          ∃ d, exec (.ctInsert words) s = .next { s with
              maxKey := s.maxKey + 1, dict := d, response := some ⟨.ok, 0, .nothing⟩ } ∧
            ∀ k, readCell d k = if k = s.maxKey + 1 then some seq else readDict s k)))

/-- After `CT.INIT mcs, cts` and `n` successful insertions `max_key = (1 << mcs) + 1 + n`, and the `j`-th insertion used the key `(1 << mcs) + 1 + j` (R151). -/
def Obligations.InsertionKeysCountUpFromEoi : Prop :=
  ∀ (mcs cts : Nat) (payloads : List (List SymWord)) (rs : List Response) (s t : State),
    s.lzwFault = none → legalConfig s.params mcs cts = true →
    runOps (.ctInit mcs cts :: payloads.map .ctInsert) s = some (rs, t) →
    (∀ r ∈ rs, r.status = .ok) →
    t.maxKey = 2 ^ mcs + 1 + payloads.length ∧
    ∀ (j : Nat) (ws : List SymWord), payloads[j]? = some ws →
      readDict t (2 ^ mcs + 1 + (j + 1)) = symbolsOfWords ws

/-- During a decode a key holds `[MCLR]` if and only if it is `CLR`, and `[MEOI]` if and only if it is `EOI`, so the test by value and the test by number agree (R95, R147). -/
def Obligations.SentinelsByValueAndByNumberAgree : Prop :=
  ∀ (s : State) (k : Nat), s.Inv → s.phase ≠ .idle →
    (readDict s k = some [.mclr] ↔ k = 2 ^ s.mcs) ∧
    (readDict s k = some [.meoi] ↔ k = 2 ^ s.mcs + 1)

/-! ### LzwDecompressor -/

/-- In phase EXPECT_CLEAR every code word, whatever its class, must be the Clear-Code: then `cur` and the phase change and nothing else (no widening even if it is all ones); any other value faults with `(1 << 24) | code` (R96, R173, R191). -/
def Obligations.FirstCodeWordMustBeClear : Prop :=
  ∀ (cls : CwClass) (c w : Nat) (s : State), s.phase = .expectClear →
    (c = 2 ^ s.mcs →
      exec (codeInstr cls c w) s = .next { s with cur := c, phase := .first } ∧
      exec (.cwWiden cls c w) s = .next { s with cur := c, phase := .first }) ∧
    (c ≠ 2 ^ s.mcs →
      FaultsWith s .decodeProtocolViolation ((1 <<< 24) ||| c) (exec (codeInstr cls c w) s) ∧
      FaultsWith s .decodeProtocolViolation ((1 <<< 24) ||| c) (exec (.cwWiden cls c w) s))

/-- In phase FIRST a present code's sequence is appended and nothing is inserted, End-of-Information included, which does not stop here; an absent code faults with `(2 << 24) | code`; OUT_MAX passed faults with 5 (R174, R190, R193). -/
def Obligations.FirstRealCodeIsAppended : Prop :=
  ∀ (c w : Nat) (s : State), s.phase = .first →
    (∀ seq, readDict s c = some seq → s.params.outMax.allows (s.outLen + seq.length) = true →
      exec (.cwPresent c w) s = .next { s with
        out := s.out ++ seq, outLen := s.outLen + seq.length, cur := c, phase := .loop } ∧
      exec (.cwEoi c w) s = exec (.cwPresent c w) s) ∧
    (∀ seq, readDict s c = some seq → s.params.outMax.allows (s.outLen + seq.length) = false →
      FaultsWith s .capacityExceeded 5 (exec (.cwPresent c w) s)) ∧
    (readDict s c = none →
      FaultsWith s .decodeProtocolViolation ((2 <<< 24) ||| c) (exec (.cwAbsent c w) s))

/-- `CW.PRESENT` in phase LOOP: the code's sequence is appended (OUT_MAX passed faults with 5); then, if `prev` is present, its sequence and the first symbol of the appended one are inserted under `max_key + 1`, every other key as before (KEY_MAX passed faults with 3, then SEQ_MAX with 4, after the append); if `prev` is absent, `DecodeProtocolViolation` with `(2 << 24) | prev` (R179, R181, R193). -/
def Obligations.PresentCodeAppendsAndInserts : Prop :=
  ∀ (c w : Nat) (x : Symbol) (xs : List Symbol) (s t : State), s.phase = .loop →
    readDict s c = some (x :: xs) →
    t = { s with cur := c, out := s.out ++ x :: xs, outLen := s.outLen + (xs.length + 1) } →
    (s.params.outMax.allows (s.outLen + (xs.length + 1)) = false →
      FaultsWith s .capacityExceeded 5 (exec (.cwPresent c w) s)) ∧
    (s.params.outMax.allows (s.outLen + (xs.length + 1)) = true →
      (readDict s s.prev = none →
        FaultsWith s .decodeProtocolViolation ((2 <<< 24) ||| s.prev) (exec (.cwPresent c w) s)) ∧
      (∀ p, readDict s s.prev = some p →
        (s.params.keyMax.allows (s.maxKey + 1) = false →
          FaultsWith s .capacityExceeded 3 (exec (.cwPresent c w) s)) ∧
        (s.params.keyMax.allows (s.maxKey + 1) = true → s.params.seqMax.allows (p.length + 1) = false →
          FaultsWith s .capacityExceeded 4 (exec (.cwPresent c w) s)) ∧
        (s.params.keyMax.allows (s.maxKey + 1) = true → s.params.seqMax.allows (p.length + 1) = true →
          ∃ d, exec (.cwPresent c w) s = .next { t with maxKey := s.maxKey + 1, dict := d } ∧
            ∀ k, readCell d k = if k = s.maxKey + 1 then some (p ++ [x]) else readDict s k)))

/-- `CW.ABSENT` in phase LOOP, whatever the absent code is: the sequence of `prev` with its own first symbol at the end is appended (OUT_MAX passed faults with 5), and the same sequence is inserted under `max_key + 1`, every other key as before (KEY_MAX passed faults with 3, then SEQ_MAX with 4, after the append); if `prev` is absent, `DecodeProtocolViolation` with `(2 << 24) | prev` (R180, R181, R193). -/
def Obligations.AbsentCodeRepeatsThePreviousSequence : Prop :=
  ∀ (c w : Nat) (s : State), s.phase = .loop →
    (readDict s s.prev = none →
      FaultsWith s .decodeProtocolViolation ((2 <<< 24) ||| s.prev) (exec (.cwAbsent c w) s)) ∧
    (∀ x xs t, readDict s s.prev = some (x :: xs) →
      t = { s with cur := c, out := s.out ++ (x :: xs ++ [x]), outLen := s.outLen + (xs.length + 2) } →
      (s.params.outMax.allows (s.outLen + (xs.length + 2)) = false →
        FaultsWith s .capacityExceeded 5 (exec (.cwAbsent c w) s)) ∧
      (s.params.outMax.allows (s.outLen + (xs.length + 2)) = true →
        (s.params.keyMax.allows (s.maxKey + 1) = false →
          FaultsWith s .capacityExceeded 3 (exec (.cwAbsent c w) s)) ∧
        (s.params.keyMax.allows (s.maxKey + 1) = true → s.params.seqMax.allows (xs.length + 2) = false →
          FaultsWith s .capacityExceeded 4 (exec (.cwAbsent c w) s)) ∧
        (s.params.keyMax.allows (s.maxKey + 1) = true → s.params.seqMax.allows (xs.length + 2) = true →
          ∃ d, exec (.cwAbsent c w) s = .next { t with maxKey := s.maxKey + 1, dict := d } ∧
            ∀ k, readCell d k = if k = s.maxKey + 1 then some (x :: xs ++ [x]) else readDict s k)))

/-- `CW.CLEAR` after the first code word reinitializes the table with the decode's own `mcs`, `cts`, keeps the width, and is then handled as present: in FIRST the marker is appended; in LOOP it is appended and `DICT[prev]` of the fresh table with the marker at its end is inserted under `CLR + 2`, or, where `prev` is not in the fresh table, the step faults (R152, R177, R181). -/
def Obligations.ClearCodeReinitializesAndFallsThrough : Prop :=
  ∀ (w : Nat) (s : State), s.cts ≤ 2 ^ s.mcs → s.params.outMax.allows (s.outLen + 1) = true →
    (s.phase = .first →
      ∃ d, exec (.cwClear (2 ^ s.mcs) w) s = .next { s with
          dict := d, maxKey := 2 ^ s.mcs + 1, ctValid := true
          out := s.out ++ [.mclr], outLen := s.outLen + 1, cur := 2 ^ s.mcs, phase := .loop } ∧
        ∀ k, readCell d k = freshEntry s.mcs s.cts k) ∧
    (s.phase = .loop →
      (∀ p, freshEntry s.mcs s.cts s.prev = some p →
        s.params.keyMax.allows (2 ^ s.mcs + 2) = true → s.params.seqMax.allows 2 = true →
        ∃ d, exec (.cwClear (2 ^ s.mcs) w) s = .next { s with
            dict := d, maxKey := 2 ^ s.mcs + 2, ctValid := true
            out := s.out ++ [.mclr], outLen := s.outLen + 1, cur := 2 ^ s.mcs } ∧
          ∀ k, readCell d k =
            if k = 2 ^ s.mcs + 2 then some (p ++ [.mclr]) else freshEntry s.mcs s.cts k) ∧
      (freshEntry s.mcs s.cts s.prev = none →
        FaultsWith s .decodeProtocolViolation ((2 <<< 24) ||| s.prev) (exec (.cwClear (2 ^ s.mcs) w) s)))

/-- `CW.EOI` in phase LOOP ends the decode with the output as its result: nothing is looked up, appended or inserted; reader and table are gone and the phase is IDLE (R178, R182). -/
def Obligations.EndOfInformationReturnsTheOutput : Prop :=
  ∀ (c w : Nat) (s : State), s.phase = .loop →
    exec (.cwEoi c w) s = .next { s with
      cur := c, brValid := false, ctValid := false, phase := .idle
      response := some ⟨.ok, 0, .symbols s.out⟩ }

/-- `CW.WIDEN` in phases FIRST and LOOP, whatever the class: the width grows by one before the class is handled, or `CapacityExceeded` 2 is raised where CW_MAX would be passed; on a value that is not all ones the rule does nothing (R94, R176). -/
def Obligations.AllOnesCodeWidensByOne : Prop :=
  ∀ (cls : CwClass) (w : Nat) (s : State), s.phase = .first ∨ s.phase = .loop →
    (s.params.cwMax.allows (s.codeWidth + 1) = true →
      exec (.cwWiden cls (2 ^ s.codeWidth - 1) w) s =
        exec (codeInstr cls (2 ^ s.codeWidth - 1) w) { s with codeWidth := s.codeWidth + 1 }) ∧
    (s.params.cwMax.allows (s.codeWidth + 1) = false →
      FaultsWith s .capacityExceeded 2 (exec (.cwWiden cls (2 ^ s.codeWidth - 1) w) s)) ∧
    ∀ c, c ≠ 2 ^ s.codeWidth - 1 → exec (.cwWiden cls c w) s = exec (codeInstr cls c w) s

/-- An all-ones code word completes in phase LOOP in each class: End-of-Information ends the decode at the wider width; a Clear-Code, a present and an absent code go on at the wider width with one more entry (R176 to R180). -/
def Obligations.WidenedCodeWordsComplete : Prop :=
  ∀ (cls : CwClass) (w : Nat) (s : State), s.phase = .loop → s.params.cwMax.allows (s.codeWidth + 1) = true →
    (cls = .eoi →
      exec (.cwWiden cls (2 ^ s.codeWidth - 1) w) s = .next { s with
        codeWidth := s.codeWidth + 1, cur := 2 ^ s.codeWidth - 1
        brValid := false, ctValid := false, phase := .idle
        response := some ⟨.ok, 0, .symbols s.out⟩ }) ∧
    (s.params.outMax = .unbounded → s.params.keyMax = .unbounded → s.params.seqMax = .unbounded →
      (∀ x xs p, cls = .present → readDict s (2 ^ s.codeWidth - 1) = some (x :: xs) → readDict s s.prev = some p →
        ∃ d, exec (.cwWiden cls (2 ^ s.codeWidth - 1) w) s = .next { s with
            codeWidth := s.codeWidth + 1, cur := 2 ^ s.codeWidth - 1
            out := s.out ++ x :: xs, outLen := s.outLen + (xs.length + 1), maxKey := s.maxKey + 1, dict := d } ∧
          readCell d (s.maxKey + 1) = some (p ++ [x])) ∧
      (∀ x xs, cls = .absent → readDict s s.prev = some (x :: xs) →
        ∃ d, exec (.cwWiden cls (2 ^ s.codeWidth - 1) w) s = .next { s with
            codeWidth := s.codeWidth + 1, cur := 2 ^ s.codeWidth - 1
            out := s.out ++ (x :: xs ++ [x]), outLen := s.outLen + (xs.length + 2)
            maxKey := s.maxKey + 1, dict := d } ∧
          readCell d (s.maxKey + 1) = some (x :: xs ++ [x])) ∧
      (cls = .clear → 2 ^ s.codeWidth - 1 = 2 ^ s.mcs → s.cts ≤ 2 ^ s.mcs → s.prev < s.cts →
        ∃ d, exec (.cwWiden cls (2 ^ s.codeWidth - 1) w) s = .next { s with
            codeWidth := s.codeWidth + 1, cur := 2 ^ s.codeWidth - 1
            dict := d, maxKey := 2 ^ s.mcs + 2, ctValid := true
            out := s.out ++ [.mclr], outLen := s.outLen + 1 } ∧
          readCell d (2 ^ s.mcs + 2) = some [.idx s.prev, .mclr]))

/-- Over a code word that raises no fault the width never falls, grows by at most one, and grows only when the word fetched in phase FIRST or LOOP is all ones at the width then current (R92, R93, R188). -/
def Obligations.CodeWidthGrowsOnlyOnAllOnes : Prop :=
  ∀ s t : State, s.phase ≠ .idle → step s = .next t → t.lzwFault = none →
    t.codeWidth = s.codeWidth ∨
    (t.codeWidth = s.codeWidth + 1 ∧ (s.phase = .first ∨ s.phase = .loop) ∧
      CodeAt s (2 ^ s.codeWidth - 1))

/-- A fetch that would pass the end of the input faults `TruncatedInput` with the cursor as info, in every phase of a decode, before anything of the word is handled (R172, R185, R262). -/
def Obligations.FetchPastTheEndFaults : Prop :=
  ∀ s : State, s.phase ≠ .idle → 8 * s.inLen < s.bitpos + s.codeWidth →
    FaultsWith s .truncatedInput s.bitpos (step s)

/-- An absent code in phase LOOP that is not the next key is still absent afterwards, and the next step faults `DecodeProtocolViolation` on it unless it reads End-of-Information (R187); with the capacities unbounded, so that no `CapacityExceeded` comes first. -/
def Obligations.IrregularAbsentCodeFaultsNext : Prop :=
  ∀ (s t : State) (c c' : Nat), s.Inv → s.phase = .loop → CodeAt s c →
    readDict s c = none → c ≠ s.maxKey + 1 → step s = .next t → t.phase = .loop →
    t.params.cwMax = .unbounded → t.params.outMax = .unbounded →
    CodeAt t c' → c' ≠ 2 ^ s.mcs + 1 →
    readDict t c = none ∧
    FaultsWith t .decodeProtocolViolation ((2 <<< 24) ||| c) (step t)

/-- `LZW.DECODE` is atomic and is its entry followed by the small steps until the phase is IDLE again; there are at most `1 + floor(8 * in_len / (mcs + 1))` of them, so every decode ends (R80, R171, R184, R185). -/
def Obligations.LzwDecodeIsEntryThenSteps : Prop :=
  ∀ (mcs cts : Nat) (bytes : List Byte) (s : State),
    s.lzwFault = none → legalConfig s.params mcs cts = true → s.params.inMax.allows bytes.length = true →
    ∃ n t, 1 ≤ n ∧ n ≤ 1 + 8 * bytes.length / (mcs + 1) ∧
      exec (.lzwDecode mcs cts bytes) s = .next t ∧ t.phase = .idle ∧
      Host.Core.run Sys2Proof.core n (enterDecode mcs cts bytes s) = .next t ∧
      ∀ k < n, ∃ u : State,
        Host.Core.run Sys2Proof.core k (enterDecode mcs cts bytes s) = .next u ∧ u.phase ≠ .idle

/-- Entry of a decode: `EngineFaulted`, `BadConfig`, `CapacityExceeded` 1 before anything is loaded; and the state the steps start from has the reader at bit 0 of the payload, a fresh table, the width `mcs + 1`, an empty output and phase EXPECT_CLEAR (R70, R171). -/
def Obligations.DecodeEntryRewritesEverything : Prop :=
  ∀ (mcs cts : Nat) (bytes : List Byte) (s : State),
    (s.lzwFault ≠ none → exec (.lzwDecode mcs cts bytes) s = .next (enterRefusal .lzw .engineFaulted s)) ∧
    (s.lzwFault = none → legalConfig s.params mcs cts = false →
      exec (.lzwDecode mcs cts bytes) s = .next (enterRefusal .lzw .badConfig s)) ∧
    (s.lzwFault = none → legalConfig s.params mcs cts = true →
      s.params.inMax.allows bytes.length = false →
      FaultsWith s .capacityExceeded 1 (exec (.lzwDecode mcs cts bytes) s)) ∧
    (cts ≤ 2 ^ mcs →
      ∃ m d, enterDecode mcs cts bytes s = { s with
          input := m, inLen := bytes.length, bitpos := 0, brValid := true
          dict := d, maxKey := 2 ^ mcs + 1, mcs := mcs, cts := cts, ctValid := true
          codeWidth := mcs + 1, out := [], outLen := 0, phase := .expectClear } ∧
        (∀ a, readCell m a = bytes[a]?) ∧
        ∀ k, readCell d k = freshEntry mcs cts k)

/-- A sub-block that is one Clear-Code, the literal codes of any non-empty index sequence below `cts`, and End-of-Information, all at width `mcs + 1`, decodes to exactly that sequence, for every `mcs >= 1` and within the capacities it uses: only at `mcs = 1` is End-of-Information all ones, and only a second index makes an entry (R171 to R182, R192; the round trip of R194's mirror compressor for literal codes). -/
def Obligations.LiteralStreamDecodesToItsIndices : Prop :=
  ∀ (mcs cts : Nat) (xs : List Nat) (s : State),
    s.lzwFault = none → legalConfig s.params mcs cts = true → 1 ≤ mcs → xs ≠ [] → (∀ x ∈ xs, x < cts) →
    ∀ bytes : List Byte,
    bytes = packCodes ((2 ^ mcs, mcs + 1) :: xs.map (fun x => (x, mcs + 1)) ++ [(2 ^ mcs + 1, mcs + 1)]) →
    s.params.inMax.allows bytes.length = true → s.params.outMax.allows xs.length = true →
    s.params.keyMax.allows (2 ^ mcs + xs.length) = true →
    (2 ≤ xs.length → s.params.seqMax.allows 2 = true) → (mcs = 1 → s.params.cwMax.allows 3 = true) →
    ∃ t, exec (.lzwDecode mcs cts bytes) s = .next t ∧
      t.response = some ⟨.ok, 0, .symbols (xs.map .idx)⟩ ∧
      t.phase = .idle ∧ t.brValid = false ∧ t.ctValid = false ∧ t.lzwFault = none ∧
      t.lzwRefused = s.lzwRefused ∧ t.params = s.params ∧ t.host = s.host ∧ SameFr s t

/-- Nothing of what the block held before a decode shows in it: from two unfaulted states with the same parameters the same decode gives the same response and fault record, and where it succeeds the same registers and memories (R171, R189). -/
def Obligations.DecodeForgetsTheStateBefore : Prop :=
  ∀ (mcs cts : Nat) (bytes : List Byte) (s s' t t' : State),
    s.lzwFault = none → s'.lzwFault = none → s.params = s'.params →
    legalConfig s.params mcs cts = true → s.params.inMax.allows bytes.length = true →
    exec (.lzwDecode mcs cts bytes) s = .next t → exec (.lzwDecode mcs cts bytes) s' = .next t' →
    t.response = t'.response ∧ t.lzwFault = t'.lzwFault ∧
    (t.lzwFault = none →
      t.input = t'.input ∧ t.inLen = t'.inLen ∧ t.bitpos = t'.bitpos ∧ t.codeWidth = t'.codeWidth ∧
      t.cur = t'.cur ∧ t.prev = t'.prev ∧ t.dict = t'.dict ∧ t.maxKey = t'.maxKey ∧ t.mcs = t'.mcs ∧
      t.cts = t'.cts ∧ t.out = t'.out ∧ t.outLen = t'.outLen)

/-- However a decode ends, host operations find no reader and no table afterwards, and the response is either OK with all of OUT or a fault with no result; nothing of the FR engine, the parameters or the host's inputs changes (R37, R182, R183, R273). -/
def Obligations.DecodeEndsWithoutReaderOrTable : Prop :=
  ∀ (mcs cts : Nat) (bytes : List Byte) (s : State),
    s.lzwFault = none → legalConfig s.params mcs cts = true → s.params.inMax.allows bytes.length = true →
    ∃ t, exec (.lzwDecode mcs cts bytes) s = .next t ∧
      t.brValid = false ∧ t.ctValid = false ∧ t.phase = .idle ∧
      SameFr s t ∧ t.params = s.params ∧ t.host = s.host ∧ t.lzwRefused = s.lzwRefused ∧
      ((t.lzwFault = none ∧ t.response = some ⟨.ok, 0, .symbols t.out⟩) ∨
        ∃ k n, t.lzwFault = some ⟨k, n⟩ ∧ t.response = some ⟨.fault k, n, .nothing⟩)

/-! ### FrameReassembler -/

/-- `FR.APPEND`: `EngineFaulted`; else the payload stands after every buffered byte, or `CapacityExceeded` 6 is raised with the buffer unchanged; nothing else changes (R68, R212). -/
def Obligations.FrAppendExtendsTheBuffer : Prop :=
  ∀ (bytes : List Byte) (s : State),
    (s.frFault ≠ none → exec (.frAppend bytes) s = .next (enterRefusal .fr .engineFaulted s)) ∧
    (s.frFault = none → s.params.bufMax.allows (s.frbuf.length + bytes.length) = true →
      exec (.frAppend bytes) s =
        .next { s with frbuf := s.frbuf ++ bytes, response := some ⟨.ok, 0, .nothing⟩ }) ∧
    (s.frFault = none → s.params.bufMax.allows (s.frbuf.length + bytes.length) = false →
      exec (.frAppend bytes) s = .next { s with
        frFault := some ⟨.capacityExceeded, 6⟩
        response := some ⟨.fault .capacityExceeded, 6, .nothing⟩ })

/-- `FR.HASFG` answers 0 on the empty buffer, 1 on one that does not start with `0x01`, else whether a `0x02` is buffered; `FR.SWG` answers whether the buffer is non-empty and does not start with `0x01`; neither changes anything, both are refused on a faulted engine, and the level outputs show the same bits (R112, R213, R214). -/
def Obligations.FrPredicatesClassifyTheBuffer : Prop :=
  ∀ s : State,
    (s.frFault ≠ none →
      exec .frHasfg s = .next (enterRefusal .fr .engineFaulted s) ∧
      exec .frSwg s = .next (enterRefusal .fr .engineFaulted s)) ∧
    (s.frFault = none →
      ∃ h g : Bool,
        exec .frHasfg s = .next { s with response := some ⟨.ok, 0, .bit h⟩ } ∧
        exec .frSwg s = .next { s with response := some ⟨.ok, 0, .bit g⟩ } ∧
        (statusOutputs s).frHfg = h ∧ (statusOutputs s).frSwg = g ∧
        (h = true ↔ s.frbuf ≠ [] ∧ (s.frbuf.head? ≠ some 0x01#8 ∨ 0x02#8 ∈ s.frbuf)) ∧
        (g = true ↔ s.frbuf ≠ [] ∧ s.frbuf.head? ≠ some 0x01#8))

/-- `FR.TAKEG`: `EngineFaulted`; else it removes and returns the prefix before the first `0x01`, or the whole buffer if there is none: the result has no `0x01`, and what stays is empty or starts with `0x01` (R215). -/
def Obligations.FrTakegRemovesTheGarbage : Prop :=
  ∀ s : State,
    (s.frFault ≠ none → exec .frTakeg s = .next (enterRefusal .fr .engineFaulted s)) ∧
    (s.frFault = none →
      ∃ g rest, s.frbuf = g ++ rest ∧ 0x01#8 ∉ g ∧ (rest = [] ∨ rest.head? = some 0x01#8) ∧
        exec .frTakeg s = .next { s with frbuf := rest, response := some ⟨.ok, 0, .bytes g⟩ })

/-- `FR.TAKEF`: `EngineFaulted`; else it removes and returns the prefix up to and including the first `0x02`, whatever byte it starts with; with none buffered it faults `NoFrameAvailable` with `fr_len` as info and the buffer unchanged (R216). -/
def Obligations.FrTakefRemovesUpToTheFirstEnd : Prop :=
  ∀ s : State,
    (s.frFault ≠ none → exec .frTakef s = .next (enterRefusal .fr .engineFaulted s)) ∧
    (s.frFault = none →
      (∀ f rest, s.frbuf = f ++ 0x02#8 :: rest → 0x02#8 ∉ f →
        exec .frTakef s = .next { s with
          frbuf := rest, response := some ⟨.ok, 0, .bytes (f ++ [0x02#8])⟩ }) ∧
      (0x02#8 ∉ s.frbuf →
        exec .frTakef s = .next { s with
          frFault := some ⟨.noFrameAvailable, s.frbuf.length⟩
          response := some ⟨.fault .noFrameAvailable, s.frbuf.length, .nothing⟩ }))

/-- `FR.CLEAR` discards every buffered byte and returns none of them; it clears neither the fault record, on which it is refused, nor the refused flag (R217). -/
def Obligations.FrClearDiscardsTheBuffer : Prop :=
  ∀ s : State,
    (s.frFault = none →
      exec .frClear s = .next { s with frbuf := [], response := some ⟨.ok, 0, .nothing⟩ }) ∧
    (s.frFault ≠ none → exec .frClear s = .next (enterRefusal .fr .engineFaulted s))

/-- Starting with garbage implies having a frame or garbage; a frame or garbage without garbage first is exactly a leading START with an END buffered, and then `FR.TAKEF` succeeds with a sequence that starts with `0x01`, ends with `0x02` and has no other `0x02` (R218). -/
def Obligations.FrameAvailableMeansTakefSucceeds : Prop :=
  ∀ s : State, s.frFault = none →
    ((statusOutputs s).frSwg = true → (statusOutputs s).frHfg = true) ∧
    ((statusOutputs s).frHfg = true ∧ (statusOutputs s).frSwg = false ↔
      s.frbuf.head? = some 0x01#8 ∧ 0x02#8 ∈ s.frbuf) ∧
    ((statusOutputs s).frHfg = true → (statusOutputs s).frSwg = false →
      ∃ f rest, exec .frTakef s = .next { s with
          frbuf := rest, response := some ⟨.ok, 0, .bytes (0x01#8 :: f ++ [0x02#8])⟩ } ∧
        0x02#8 ∉ f ∧ s.frbuf = 0x01#8 :: f ++ 0x02#8 :: rest) ∧
    ((statusOutputs s).frHfg = false ↔
      s.frbuf = [] ∨ (s.frbuf.head? = some 0x01#8 ∧ 0x02#8 ∉ s.frbuf))

/-- Conservation: over any sequence of FR operations without `FR.CLEAR` in which none faults or is refused, what was returned, in order, followed by the buffer, is the buffer before followed by everything appended (R220). -/
def Obligations.FrConservesEveryByte : Prop :=
  ∀ (ops : List Instr) (rs : List Response) (s t : State),
    (∀ i ∈ ops, engineOfInstr i = .fr ∧ i ≠ .frClear) →
    runOps ops s = some (rs, t) → (∀ r ∈ rs, r.status = .ok) →
    rs.flatMap returnedBytes ++ t.frbuf = s.frbuf ++ ops.flatMap appendedBytes

/-- `FR.DRAIN` never faults and ends within `fr_len` iterations; its garbage items have no `0x01`, its frame items start with `0x01` and end with their only `0x02`, garbage never follows garbage; on return the buffer is empty or a partial frame; and the items followed by the buffer are the buffer before (R243, R244). -/
def Obligations.FrDrainTakesEveryFrameAndAllGarbage : Prop :=
  ∀ s : State, s.frFault = none →
    ∃ items t, frDrain (s.frbuf.length + 1) s = some (items, t) ∧
      items.length ≤ s.frbuf.length ∧
      items.flatMap Item.bytes ++ t.frbuf = s.frbuf ∧
      (t.frbuf = [] ∨ (t.frbuf.head? = some 0x01#8 ∧ 0x02#8 ∉ t.frbuf)) ∧
      (∀ g, Item.garbage g ∈ items → g ≠ [] ∧ 0x01#8 ∉ g) ∧
      (∀ f, Item.frame f ∈ items → ∃ m, f = 0x01#8 :: m ++ [0x02#8] ∧ 0x02#8 ∉ m) ∧
      (∀ (n : Nat) (g h : List Byte), items[n]? = some (.garbage g) → items[n + 1]? ≠ some (.garbage h)) ∧
      SameLzw s t ∧ t.frFault = none ∧ t.frRefused = s.frRefused ∧ (s.clean = true → t.clean = true)

/-- A frame-stream byte that arrives alone enters the buffer at its end (executing a byte by itself is the model's choice, log entry 5): on an empty buffer `B.START` leaves neither predicate set, `B.END` and `B.DATA` are garbage; on any other buffer no byte changes `fr_swg`, and `B.END` alone can set `fr_hfg` (R97, R211 to R214). -/
def Obligations.FrameBytesArriveByClass : Prop :=
  ∀ (b : Byte) (s : State), s.frFault = none → s.params.bufMax.allows (s.frbuf.length + 1) = true →
    exec .bStart s = .next { s with frbuf := s.frbuf ++ [0x01#8], response := some ⟨.ok, 0, .nothing⟩ } ∧
    exec .bEnd s = .next { s with frbuf := s.frbuf ++ [0x02#8], response := some ⟨.ok, 0, .nothing⟩ } ∧
    exec (.bData b) s = .next { s with frbuf := s.frbuf ++ [b], response := some ⟨.ok, 0, .nothing⟩ } ∧
    ∀ t, exec (decodeFrameByte b) s = .next t →
      (s.frbuf = [] → (statusOutputs t).frSwg = decide (b ≠ 0x01#8) ∧
        (statusOutputs t).frHfg = decide (b ≠ 0x01#8)) ∧
      (s.frbuf ≠ [] → (statusOutputs t).frSwg = (statusOutputs s).frSwg ∧
        (statusOutputs t).frHfg = ((statusOutputs s).frHfg || decide (b = 0x02#8)))

/-- However an arrival is split, the state is the same: appending it at once leaves the state that appending its parts in turn leaves, for every split into parts (R212, R220); and so does executing its bytes one by one, each decoded by its class, which as an operation of its own is the model's choice (log entry 5; R97). -/
def Obligations.AppendIsItsBytesInTurn : Prop :=
  ∀ (parts : List (List Byte)) (s t : State), s.frFault = none →
    s.params.bufMax.allows (s.frbuf.length + parts.flatten.length) = true →
    exec (.frAppend parts.flatten) s = .next t →
    (parts ≠ [] →
      ∃ rs, runOps (parts.map .frAppend) s = some (rs, t) ∧ ∀ r ∈ rs, r = ⟨.ok, 0, .nothing⟩) ∧
    (parts.flatten ≠ [] →
      ∃ rs, runOps (parts.flatten.map decodeFrameByte) s = some (rs, t) ∧ ∀ r ∈ rs, r = ⟨.ok, 0, .nothing⟩)

/-! ### The two engines -/

/-- No instruction of one engine reads or writes any state of the other: it leaves the other's part alone, and from two states that agree on its own part it does the same to it and answers the same (R20). -/
def Obligations.EnginesShareNothing : Prop :=
  ∀ (i : Instr) (s s' t : State), s.params = s'.params → exec i s = .next t →
    (engineOfInstr i = .lzw → SameFr s t ∧
      (SameLzw s s' → ∃ t', exec i s' = .next t' ∧ SameLzw t t' ∧
        (isCodeWord i = false → t.response = t'.response))) ∧
    (engineOfInstr i = .fr → SameLzw s t ∧
      (SameFr s s' → ∃ t', exec i s' = .next t' ∧ SameFr t t' ∧ t.response = t'.response))

/-- An operation of the LZW engine and one of the FR engine commute: in either order both answer the same and both parts of the state end the same (R82). -/
def Obligations.OperationsOfTheEnginesCommute : Prop :=
  ∀ (i j : Instr) (s t u : State), engineOfInstr i = .lzw → engineOfInstr j = .fr →
    isCodeWord i = false → exec i s = .next t → exec j t = .next u →
    ∃ t' u', exec j s = .next t' ∧ exec i t' = .next u' ∧
      SameLzw u u' ∧ SameFr u u' ∧ t'.response = u.response ∧ u'.response = t.response ∧
      u'.params = u.params ∧ u'.host = u.host

/-! ### The invariant -/

/-- The invariant holds after reset (R50), also on a block with other parameters and with a host that has more to do. -/
def Obligations.InvariantHoldsAfterReset : Prop :=
  State.reset.Inv ∧
  ∀ (p : Params) (h : List HostInput), paramsWf p = true → (State.resetWith p h).Inv

/-- Every step keeps the invariant: IN and DICT in canonical form, `in_len`, `out_len` and `max_key` what their memories say, the cursor inside the input, the present keys without a gap and the fresh entries in place, the width and code registers in their ranges, every capacity respected, faults and responses of the assigned kinds (R23 to R36, R62, R105 to R107, R142, R146, R186, R261, R270). That the registers R272 makes unobservable keep these ranges after a faulting decode is the model's choice (log entry 7). -/
def Obligations.EveryStepKeepsTheInvariant : Prop :=
  ∀ s t : State, s.Inv → step s = .next t → t.Inv

/-- No behaviour of the block is stuck: from every state that meets the invariant a step answers a next state, whatever the host issues (a reset of one engine alone excepted on a block that has none), and a host input ends with the phase IDLE (R80, R185, 93_implementation_defined.md). -/
def Obligations.NoStepEverStops : Prop :=
  ∀ s : State, s.Inv → s.asksSplitReset = false →
    ∃ t, step s = .next t ∧ (s.phase = .idle → t.phase = .idle)
end

