-- ==== Sys2Proof/Laws/Memory.lean ====
section
/-! SUPPORT. The laws of the memories: read after write, canonical form kept by every operation, what a loaded input and a fresh table read as. -/

namespace Sys2Proof.Machine

section Cells
variable {α : Type}

/-- A read after a write to the same key gives the value written. -/
@[simp] theorem readCell_writeCell_same (m : List (Nat × α)) (k : Nat) (v : α) :
    readCell (writeCell m k v) k = some v := by
  induction m with
  | nil => simp [writeCell, readCell]
  | cons e m ih =>
    obtain ⟨a, u⟩ := e
    simp only [writeCell]
    split
    · simp [readCell]
    · split
      · simp [readCell]
      · rename_i h; simp [readCell, Ne.symm h, ih]

/-- A write leaves every other key alone. -/
theorem readCell_writeCell_other (m : List (Nat × α)) {k q : Nat} (v : α) (h : q ≠ k) :
    readCell (writeCell m k v) q = readCell m q := by
  induction m with
  | nil => simp [writeCell, readCell, h.symm]
  | cons e m ih =>
    obtain ⟨a, u⟩ := e
    simp only [writeCell]
    split
    · simp [readCell, h.symm]
    · split
      · rename_i ha; subst ha; simp [readCell, h.symm]
      · simp [readCell, ih]

/-- What a memory reads as after a write, at every key. -/
theorem readCell_writeCell (m : List (Nat × α)) (k q : Nat) (v : α) :
    readCell (writeCell m k v) q = if q = k then some v else readCell m q := by
  by_cases h : q = k
  · subst h; simp
  · simp [h, readCell_writeCell_other m v h]

/-- An entry of a written memory is the written one or was there before. -/
theorem mem_writeCell {m : List (Nat × α)} {k : Nat} {v : α} {e : Nat × α}
    (h : e ∈ writeCell m k v) : e = (k, v) ∨ e ∈ m := by
  induction m with
  | nil => simpa [writeCell] using h
  | cons x m ih =>
    obtain ⟨a, u⟩ := x
    simp only [writeCell] at h
    split at h
    · simpa using h
    · split at h
      · rcases List.mem_cons.1 h with h | h
        · exact .inl h
        · exact .inr (List.mem_cons_of_mem _ h)
      · rcases List.mem_cons.1 h with h | h
        · exact .inr (by simp [h])
        · rcases ih h with h | h
          · exact .inl h
          · exact .inr (List.mem_cons_of_mem _ h)

/-- A write keeps the canonical form. -/
theorem writeCell_rising {m : List (Nat × α)} (k : Nat) (v : α)
    (h : m.Pairwise fun x y => x.1 < y.1) : (writeCell m k v).Pairwise fun x y => x.1 < y.1 := by
  induction m with
  | nil => simp [writeCell]
  | cons e m ih =>
    obtain ⟨a, u⟩ := e
    rw [List.pairwise_cons] at h
    simp only [writeCell]
    split
    · rename_i hk
      refine List.pairwise_cons.2 ⟨?_, List.pairwise_cons.2 h⟩
      intro y hy
      rcases List.mem_cons.1 hy with rfl | hy
      · exact hk
      · exact hk.trans (h.1 y hy)
    · split
      · rename_i hk; subst hk; exact List.pairwise_cons.2 h
      · rename_i h1 h2
        refine List.pairwise_cons.2 ⟨?_, ih h.2⟩
        intro y hy
        rcases mem_writeCell hy with rfl | hy
        · simp only; omega
        · exact h.1 y hy

/-- A key that is listed is the key of an entry. -/
theorem mem_of_readCell {m : List (Nat × α)} {k : Nat} {v : α} (h : readCell m k = some v) :
    (k, v) ∈ m := by
  induction m with
  | nil => simp [readCell] at h
  | cons e m ih =>
    obtain ⟨a, u⟩ := e
    simp only [readCell] at h
    split at h
    · rename_i ha; cases h; simp [ha]
    · exact List.mem_cons_of_mem _ (ih h)

/-- A key is listed exactly when it is the key of an entry. -/
theorem readCell_isSome (m : List (Nat × α)) (k : Nat) :
    (readCell m k).isSome = true ↔ k ∈ m.map Prod.fst := by
  induction m with
  | nil => simp [readCell]
  | cons e m ih =>
    obtain ⟨a, u⟩ := e
    simp only [readCell, List.map_cons, List.mem_cons]
    split
    · rename_i h; simp [h]
    · rename_i h; rw [ih]; exact ⟨.inr, fun hk => hk.resolve_left fun e => h e.symm⟩

/-- Reading a concatenation reads the first part, then the second. -/
theorem readCell_append (m n : List (Nat × α)) (k : Nat) :
    readCell (m ++ n) k = (readCell m k).or (readCell n k) := by
  induction m with
  | nil => simp [readCell]
  | cons e m ih =>
    obtain ⟨a, u⟩ := e
    simp only [List.cons_append, readCell]
    split <;> simp_all

/-- A write above every key appends an entry. -/
theorem writeCell_above {m : List (Nat × α)} {k : Nat} (v : α) (h : ∀ e ∈ m, e.1 < k) :
    writeCell m k v = m ++ [(k, v)] := by
  induction m with
  | nil => rfl
  | cons e m ih =>
    obtain ⟨a, u⟩ := e
    have ha : a < k := h (a, u) (by simp)
    simp only [writeCell]
    rw [if_neg (by omega), if_neg (by omega), ih fun e he => h e (List.mem_cons_of_mem _ he)]
    rfl

end Cells

/-! ### The loaded input -/

/-- The addresses of a loaded input. -/
@[simp] theorem bytesFrom_addresses (a : Nat) (bs : List Byte) :
    (bytesFrom a bs).map Prod.fst = List.range' a bs.length := by
  induction bs generalizing a with
  | nil => rfl
  | cons b bs ih => simp [bytesFrom, ih, List.range'_succ]

/-- What a loaded input reads as. -/
theorem readCell_bytesFrom (a : Nat) (bs : List Byte) (k : Nat) :
    readCell (bytesFrom a bs) k = if k < a then none else bs[k - a]? := by
  induction bs generalizing a with
  | nil => simp [bytesFrom, readCell]
  | cons b bs ih =>
    simp only [bytesFrom, readCell, ih]
    by_cases h : a = k
    · subst h; simp
    · rw [if_neg h]
      by_cases h1 : k < a
      · rw [if_pos (by omega), if_pos h1]
      · obtain ⟨d, rfl⟩ : ∃ d, k = a + 1 + d := ⟨k - (a + 1), by omega⟩
        rw [if_neg (by omega), if_neg (by omega), show a + 1 + d - a = d + 1 by omega,
          show a + 1 + d - (a + 1) = d by omega]
        simp

/-- A loaded input is in canonical form. -/
theorem bytesFrom_wf (a : Nat) (bs : List Byte) : Memory.wf (bytesFrom a bs) := by
  have h : ((bytesFrom a bs).map Prod.fst).Pairwise (· < ·) := by
    rw [bytesFrom_addresses]; exact List.pairwise_lt_range'
  exact List.pairwise_map.1 h

/-- Loading an input keeps IN in canonical form (R121). -/
theorem loadInput_wf (bs : List Byte) (s : State) : Memory.wf (loadInput bs s).input :=
  bytesFrom_wf 0 bs

/-- IN is in canonical form after reset (R50). -/
theorem reset_input_wf : Memory.wf State.reset.input := by simp [State.reset, State.resetWith]

/-- DICT is in canonical form after reset (R50). -/
theorem reset_dict_wf : Dict.wf State.reset.dict := by simp [State.reset, State.resetWith]

/-! ### The table -/

/-- A write to the table keeps it in canonical form. -/
theorem writeDict_wf (k : Nat) (seq : List Symbol) (s : State) (h : Dict.wf s.dict) :
    Dict.wf (writeDict k seq s).dict :=
  writeCell_rising k seq h

@[simp] theorem clrKey_eq (mcs : Nat) : clrKey mcs = 2 ^ mcs := by simp [clrKey, Nat.shiftLeft_eq]

@[simp] theorem eoiKey_eq (mcs : Nat) : eoiKey mcs = 2 ^ mcs + 1 := by simp [eoiKey]

@[simp] theorem allOnes_eq (w : Nat) : allOnes w = 2 ^ w - 1 := by simp [allOnes, Nat.shiftLeft_eq]

/-- The literal entries read as themselves and nothing else is listed among them. -/
theorem readCell_literals (n k : Nat) :
    readCell ((List.range n).map fun i => (i, [Symbol.idx i])) k =
      if k < n then some [.idx k] else none := by
  induction n with
  | zero => simp [readCell]
  | succ n ih =>
    rw [List.range_succ, List.map_append, readCell_append, ih]
    by_cases h : k < n
    · simp [h, Nat.lt_succ_of_lt h]
    · by_cases h2 : k = n
      · subst h2; simp [readCell]
      · have h3 : ¬ k < n + 1 := by omega
        simp [h, h3, readCell, Ne.symm h2]

/-- What a fresh table reads as, at every key (R62, R143). -/
theorem readCell_freshDict (mcs cts k : Nat) :
    readCell (freshDict mcs cts) k =
      if k < cts then some [.idx k]
      else if k = 2 ^ mcs then some [.mclr]
      else if k = 2 ^ mcs + 1 then some [.meoi]
      else none := by
  rw [freshDict, readCell_append, readCell_literals]
  by_cases h : k < cts
  · simp [h]
  · simp only [h, if_false, Option.none_or, readCell, clrKey_eq, eoiKey_eq]
    by_cases h1 : k = 2 ^ mcs
    · simp [h1]
    · rw [if_neg (Ne.symm h1), if_neg h1]
      by_cases h2 : k = 2 ^ mcs + 1
      · simp [h2]
      · rw [if_neg (Ne.symm h2), if_neg h2]

@[simp] theorem freshDict_length (mcs cts : Nat) : (freshDict mcs cts).length = cts + 2 := by
  simp [freshDict]

/-- A fresh table of a legal configuration is in canonical form (R142, R143). -/
theorem freshDict_wf {mcs cts : Nat} (h : cts ≤ 2 ^ mcs) : Dict.wf (freshDict mcs cts) := by
  simp only [Dict.wf, freshDict]
  refine List.pairwise_append.2 ⟨?_, by simp, ?_⟩
  · exact List.pairwise_map.2 (List.pairwise_lt_range.imp fun h => h)
  · intro x hx y hy
    simp only [List.mem_map, List.mem_range] at hx
    obtain ⟨i, hi, rfl⟩ := hx
    simp only [List.mem_cons, List.not_mem_nil, or_false] at hy
    rcases hy with rfl | rfl <;> simp only [clrKey_eq, eoiKey_eq] <;> omega

end Sys2Proof.Machine
end

