-- ==== Sys2Proof/Laws/Encoding.lean ====
section
/-! SUPPORT. The encodings: a command word's fields, the masks of the opcode map as comparisons of numbers, the bits of a code word. -/

namespace Sys2Proof

/-- A command word is the number its fields spell (R100). -/
theorem commandWord_toNat {u f a : Nat} (hu : u < 16) (hf : f < 16) (ha : a < 2 ^ 24) :
    (commandWord u f a).toNat = u * 2 ^ 28 + f * 2 ^ 24 + a := by
  simp only [commandWord, BitVec.toNat_ofNat]; omega

/-- The fields of a command word are what it was made of (R100). -/
theorem commandWord_fields {u f a : Nat} (hu : u < 16) (hf : f < 16) (ha : a < 2 ^ 24) :
    unitField (commandWord u f a) = u ∧ funcField (commandWord u f a) = f ∧
      argField (commandWord u f a) = a := by
  simp only [unitField, funcField, argField, commandWord_toNat hu hf ha]; omega

/-- Every word is made of its fields (R100). -/
theorem commandWord_of_fields (w : CmdWord) :
    w = commandWord (unitField w) (funcField w) (argField w) := by
  rw [← BitVec.toNat_inj]
  have := w.isLt
  simp only [commandWord, unitField, funcField, argField, BitVec.toNat_ofNat]; omega

/-- A row whose mask is the bits from `k` up compares what is above bit `k` (R101). -/
theorem selects_of_mask (r : OpcodeRow) (w : CmdWord) (k : Nat) (hk : k ≤ 32)
    (hm : r.mask = BitVec.ofNat 32 (2 ^ 32 - 2 ^ k)) :
    r.selects w = decide (w.toNat / 2 ^ k * 2 ^ k = r.matchBits.toNat) := by
  have hbit : ∀ i, (2 ^ 32 - 2 ^ k).testBit i = decide (k ≤ i ∧ i < 32) := by
    intro i
    have h2 : 2 ^ 32 - 2 ^ k = 2 ^ k * (2 ^ (32 - k) - 1) + 0 := by
      rw [Nat.mul_sub, ← Nat.pow_add, Nat.add_sub_cancel' hk]; simp
    rw [h2, Nat.testBit_two_pow_mul_add _ (by positivity)]
    by_cases hik : i < k
    · simp [hik]
    · rw [if_neg hik, Nat.testBit_two_pow_sub_one, decide_eq_decide]; omega
  have hand : w &&& r.mask = (w >>> k) <<< k := by
    apply BitVec.eq_of_getLsbD_eq
    intro i hi
    rw [hm, BitVec.getLsbD_and, BitVec.getLsbD_shiftLeft, BitVec.getLsbD_ushiftRight,
      BitVec.getLsbD_ofNat, hbit]
    by_cases hik : k ≤ i
    · simp [hik, hi, Nat.not_lt.2 hik, Nat.add_sub_cancel' hik]
    · simp [hik, Nat.not_le.1 hik]
  have hnat : (w &&& r.mask).toNat = w.toNat / 2 ^ k * 2 ^ k := by
    rw [hand, BitVec.toNat_shiftLeft, BitVec.toNat_ushiftRight, Nat.shiftLeft_eq,
      Nat.shiftRight_eq_div_pow]
    exact Nat.mod_eq_of_lt (lt_of_le_of_lt (Nat.div_mul_le_self _ _) w.isLt)
  unfold OpcodeRow.selects
  rw [decide_eq_decide, ← BitVec.toNat_inj, hnat]

/-- A row without operand bits selects one word. -/
theorem selects_whole (s : String) (m w : CmdWord) :
    (OpcodeRow.mk s m 0xFFFFFFFF#32).selects w = decide (w.toNat = m.toNat) := by
  rw [selects_of_mask _ _ 0 (by omega) rfl]; simp

/-- A row with 8 operand bits. -/
theorem selects_above8 (s : String) (m w : CmdWord) :
    (OpcodeRow.mk s m 0xFFFFFF00#32).selects w = decide (w.toNat / 2 ^ 8 * 2 ^ 8 = m.toNat) :=
  selects_of_mask _ _ 8 (by omega) rfl

/-- A row with 24 operand bits. -/
theorem selects_above24 (s : String) (m w : CmdWord) :
    (OpcodeRow.mk s m 0xFF000000#32).selects w = decide (w.toNat / 2 ^ 24 * 2 ^ 24 = m.toNat) :=
  selects_of_mask _ _ 24 (by omega) rfl

/-- A code word is as long as its width (R92). -/
@[simp] theorem codeBits_length (w : Nat) : ∀ c, (codeBits c w).length = w := by
  induction w with
  | zero => intro c; rfl
  | succ w ih => intro c; simp [codeBits, ih]

/-- The bits of a code word spell its value (R91). -/
theorem bitsToNat_codeBits (w : Nat) : ∀ c, c < 2 ^ w → bitsToNat (codeBits c w) = c := by
  induction w with
  | zero => intro c h; simp at h; subst h; rfl
  | succ w ih =>
    intro c h
    have hc : (c.testBit 0).toNat = c % 2 := by
      rcases Nat.mod_two_eq_zero_or_one c with h | h <;> simp [Nat.testBit_zero, h]
    simp only [codeBits, bitsToNat, ih (c / 2) (by omega), hc]
    omega

/-- A value whose class's condition holds in a context is of that class (R94). -/
theorem classOf_of_fits {ctx : CodeContext} {cls : CwClass} {c : Nat}
    (h : ctx.classFits cls c = true) : classOf ctx c = cls := by
  cases cls <;> simp [CodeContext.classFits] at h <;> simp [classOf, h]
  · intro h1 h2; rcases h.1.2 with h3 | h3 <;> contradiction
  · intro h1 h2; rcases h.1.2 with h3 | h3 <;> contradiction

end Sys2Proof
end

