-- ==== Sys2Proof/Laws/HostLoops.lean ====
section
/-! SUPPORT. What one iteration of the host's `LZW.IMAGE` does (44_host_protocol.md R245), and that its bound never runs out. -/

namespace Sys2Proof.Machine

/-- The first byte is `mcs`, and the sub-blocks begin behind it. -/
theorem lzwImage_cons (cts : Nat) (mcs : Byte) (blocks : List Byte) (s : State) :
    lzwImage cts (mcs :: blocks) s = lzwSubBlocks mcs.toNat cts (blocks.length + 1) blocks s := rfl

/-- A length of zero ends the image. -/
theorem lzwSubBlocks_end (mcs cts n : Nat) (file : List Byte) (s : State) :
    lzwSubBlocks mcs cts (n + 1) (0#8 :: file) s = some ⟨[], file, .complete, s⟩ := by simp [lzwSubBlocks]

/-- A sub-block that decodes is followed by the rest of the image, from the state it leaves. -/
theorem lzwSubBlocks_decoded {mcs cts n : Nat} {len : Byte} {bytes file : List Byte} {s t : State} {syms : List Symbol}
    (hl : len.toNat = bytes.length) (h0 : bytes ≠ [])
    (h : runOp (.lzwDecode mcs cts bytes) s = some (⟨.ok, 0, .symbols syms⟩, t)) :
    lzwSubBlocks mcs cts (n + 1) (len :: (bytes ++ file)) s =
      (lzwSubBlocks mcs cts n file t).map (ImageRun.after syms) := by
  have hne : bytes.length ≠ 0 := by simpa using h0
  simp [lzwSubBlocks, hl, h0, h]

/-- A sub-block that faults or is refused aborts the parse. -/
theorem lzwSubBlocks_aborted {mcs cts n : Nat} {len : Byte} {bytes file : List Byte} {s t : State} {r : Response}
    (hl : len.toNat = bytes.length) (h0 : bytes ≠ []) (hr : r.status ≠ .ok)
    (h : runOp (.lzwDecode mcs cts bytes) s = some (r, t)) :
    lzwSubBlocks mcs cts (n + 1) (len :: (bytes ++ file)) s = some ⟨[], file, .aborted r, t⟩ := by
  obtain ⟨st, info, v⟩ := r
  cases st <;> simp_all [lzwSubBlocks]

/-- More iterations than the file has bytes: the loop answers, if every `LZW.DECODE` answers. -/
theorem lzwSubBlocks_answers {mcs cts : Nat}
    (h : ∀ bytes s, (runOp (.lzwDecode mcs cts bytes) s).isSome = true) (n : Nat) :
    ∀ (file : List Byte) (s : State), file.length < n → (lzwSubBlocks mcs cts n file s).isSome = true := by
  induction n with
  | zero => intro file s hn; omega
  | succ n ih =>
    intro file s hn
    cases file with
    | nil => rfl
    | cons len file =>
      simp only [List.length_cons] at hn
      obtain ⟨⟨r, t⟩, hx⟩ := Option.isSome_iff_exists.1 (h (file.take len.toNat) s)
      simp only [lzwSubBlocks, hx]
      split
      · rfl
      · split
        · rfl
        · split
          · simpa using ih _ _ (by simp; omega)
          · rfl
          · simp_all

end Sys2Proof.Machine
end

