-- ==== Sys2Proof/Laws/State.lean ====
section
/-! SUPPORT. One lemma per field per named update of State, true by rfl: later proofs need not unfold a record update. -/

namespace Sys2Proof.Machine

variable (s : State)

/-! ### enterFault_lzw -/

@[simp] theorem enterFault_lzw_brValid (k : FaultKind) (n : Nat) : (enterFault .lzw k n s).brValid = false := rfl
@[simp] theorem enterFault_lzw_inLen (k : FaultKind) (n : Nat) : (enterFault .lzw k n s).inLen = s.inLen := rfl
@[simp] theorem enterFault_lzw_bitpos (k : FaultKind) (n : Nat) : (enterFault .lzw k n s).bitpos = s.bitpos := rfl
@[simp] theorem enterFault_lzw_codeWidth (k : FaultKind) (n : Nat) : (enterFault .lzw k n s).codeWidth = s.codeWidth := rfl
@[simp] theorem enterFault_lzw_cur (k : FaultKind) (n : Nat) : (enterFault .lzw k n s).cur = s.cur := rfl
@[simp] theorem enterFault_lzw_prev (k : FaultKind) (n : Nat) : (enterFault .lzw k n s).prev = s.prev := rfl
@[simp] theorem enterFault_lzw_phase (k : FaultKind) (n : Nat) : (enterFault .lzw k n s).phase = .idle := rfl
@[simp] theorem enterFault_lzw_mcs (k : FaultKind) (n : Nat) : (enterFault .lzw k n s).mcs = s.mcs := rfl
@[simp] theorem enterFault_lzw_cts (k : FaultKind) (n : Nat) : (enterFault .lzw k n s).cts = s.cts := rfl
@[simp] theorem enterFault_lzw_ctValid (k : FaultKind) (n : Nat) : (enterFault .lzw k n s).ctValid = false := rfl
@[simp] theorem enterFault_lzw_maxKey (k : FaultKind) (n : Nat) : (enterFault .lzw k n s).maxKey = s.maxKey := rfl
@[simp] theorem enterFault_lzw_outLen (k : FaultKind) (n : Nat) : (enterFault .lzw k n s).outLen = s.outLen := rfl
@[simp] theorem enterFault_lzw_lzwFault (k : FaultKind) (n : Nat) : (enterFault .lzw k n s).lzwFault = some ⟨k, n⟩ := rfl
@[simp] theorem enterFault_lzw_lzwRefused (k : FaultKind) (n : Nat) : (enterFault .lzw k n s).lzwRefused = s.lzwRefused := rfl
@[simp] theorem enterFault_lzw_input (k : FaultKind) (n : Nat) : (enterFault .lzw k n s).input = s.input := rfl
@[simp] theorem enterFault_lzw_dict (k : FaultKind) (n : Nat) : (enterFault .lzw k n s).dict = s.dict := rfl
@[simp] theorem enterFault_lzw_out (k : FaultKind) (n : Nat) : (enterFault .lzw k n s).out = s.out := rfl
@[simp] theorem enterFault_lzw_frbuf (k : FaultKind) (n : Nat) : (enterFault .lzw k n s).frbuf = s.frbuf := rfl
@[simp] theorem enterFault_lzw_frFault (k : FaultKind) (n : Nat) : (enterFault .lzw k n s).frFault = s.frFault := rfl
@[simp] theorem enterFault_lzw_frRefused (k : FaultKind) (n : Nat) : (enterFault .lzw k n s).frRefused = s.frRefused := rfl
@[simp] theorem enterFault_lzw_params (k : FaultKind) (n : Nat) : (enterFault .lzw k n s).params = s.params := rfl
@[simp] theorem enterFault_lzw_host (k : FaultKind) (n : Nat) : (enterFault .lzw k n s).host = s.host := rfl
@[simp] theorem enterFault_lzw_response (k : FaultKind) (n : Nat) : (enterFault .lzw k n s).response = some ⟨.fault k, n, .nothing⟩ := rfl

/-! ### enterFault_fr -/

@[simp] theorem enterFault_fr_brValid (k : FaultKind) (n : Nat) : (enterFault .fr k n s).brValid = s.brValid := rfl
@[simp] theorem enterFault_fr_inLen (k : FaultKind) (n : Nat) : (enterFault .fr k n s).inLen = s.inLen := rfl
@[simp] theorem enterFault_fr_bitpos (k : FaultKind) (n : Nat) : (enterFault .fr k n s).bitpos = s.bitpos := rfl
@[simp] theorem enterFault_fr_codeWidth (k : FaultKind) (n : Nat) : (enterFault .fr k n s).codeWidth = s.codeWidth := rfl
@[simp] theorem enterFault_fr_cur (k : FaultKind) (n : Nat) : (enterFault .fr k n s).cur = s.cur := rfl
@[simp] theorem enterFault_fr_prev (k : FaultKind) (n : Nat) : (enterFault .fr k n s).prev = s.prev := rfl
@[simp] theorem enterFault_fr_phase (k : FaultKind) (n : Nat) : (enterFault .fr k n s).phase = s.phase := rfl
@[simp] theorem enterFault_fr_mcs (k : FaultKind) (n : Nat) : (enterFault .fr k n s).mcs = s.mcs := rfl
@[simp] theorem enterFault_fr_cts (k : FaultKind) (n : Nat) : (enterFault .fr k n s).cts = s.cts := rfl
@[simp] theorem enterFault_fr_ctValid (k : FaultKind) (n : Nat) : (enterFault .fr k n s).ctValid = s.ctValid := rfl
@[simp] theorem enterFault_fr_maxKey (k : FaultKind) (n : Nat) : (enterFault .fr k n s).maxKey = s.maxKey := rfl
@[simp] theorem enterFault_fr_outLen (k : FaultKind) (n : Nat) : (enterFault .fr k n s).outLen = s.outLen := rfl
@[simp] theorem enterFault_fr_lzwFault (k : FaultKind) (n : Nat) : (enterFault .fr k n s).lzwFault = s.lzwFault := rfl
@[simp] theorem enterFault_fr_lzwRefused (k : FaultKind) (n : Nat) : (enterFault .fr k n s).lzwRefused = s.lzwRefused := rfl
@[simp] theorem enterFault_fr_input (k : FaultKind) (n : Nat) : (enterFault .fr k n s).input = s.input := rfl
@[simp] theorem enterFault_fr_dict (k : FaultKind) (n : Nat) : (enterFault .fr k n s).dict = s.dict := rfl
@[simp] theorem enterFault_fr_out (k : FaultKind) (n : Nat) : (enterFault .fr k n s).out = s.out := rfl
@[simp] theorem enterFault_fr_frbuf (k : FaultKind) (n : Nat) : (enterFault .fr k n s).frbuf = s.frbuf := rfl
@[simp] theorem enterFault_fr_frFault (k : FaultKind) (n : Nat) : (enterFault .fr k n s).frFault = some ⟨k, n⟩ := rfl
@[simp] theorem enterFault_fr_frRefused (k : FaultKind) (n : Nat) : (enterFault .fr k n s).frRefused = s.frRefused := rfl
@[simp] theorem enterFault_fr_params (k : FaultKind) (n : Nat) : (enterFault .fr k n s).params = s.params := rfl
@[simp] theorem enterFault_fr_host (k : FaultKind) (n : Nat) : (enterFault .fr k n s).host = s.host := rfl
@[simp] theorem enterFault_fr_response (k : FaultKind) (n : Nat) : (enterFault .fr k n s).response = some ⟨.fault k, n, .nothing⟩ := rfl

/-! ### enterRefusal_lzw -/

@[simp] theorem enterRefusal_lzw_brValid (r : RefuseReason) : (enterRefusal .lzw r s).brValid = s.brValid := rfl
@[simp] theorem enterRefusal_lzw_inLen (r : RefuseReason) : (enterRefusal .lzw r s).inLen = s.inLen := rfl
@[simp] theorem enterRefusal_lzw_bitpos (r : RefuseReason) : (enterRefusal .lzw r s).bitpos = s.bitpos := rfl
@[simp] theorem enterRefusal_lzw_codeWidth (r : RefuseReason) : (enterRefusal .lzw r s).codeWidth = s.codeWidth := rfl
@[simp] theorem enterRefusal_lzw_cur (r : RefuseReason) : (enterRefusal .lzw r s).cur = s.cur := rfl
@[simp] theorem enterRefusal_lzw_prev (r : RefuseReason) : (enterRefusal .lzw r s).prev = s.prev := rfl
@[simp] theorem enterRefusal_lzw_phase (r : RefuseReason) : (enterRefusal .lzw r s).phase = s.phase := rfl
@[simp] theorem enterRefusal_lzw_mcs (r : RefuseReason) : (enterRefusal .lzw r s).mcs = s.mcs := rfl
@[simp] theorem enterRefusal_lzw_cts (r : RefuseReason) : (enterRefusal .lzw r s).cts = s.cts := rfl
@[simp] theorem enterRefusal_lzw_ctValid (r : RefuseReason) : (enterRefusal .lzw r s).ctValid = s.ctValid := rfl
@[simp] theorem enterRefusal_lzw_maxKey (r : RefuseReason) : (enterRefusal .lzw r s).maxKey = s.maxKey := rfl
@[simp] theorem enterRefusal_lzw_outLen (r : RefuseReason) : (enterRefusal .lzw r s).outLen = s.outLen := rfl
@[simp] theorem enterRefusal_lzw_lzwFault (r : RefuseReason) : (enterRefusal .lzw r s).lzwFault = s.lzwFault := rfl
@[simp] theorem enterRefusal_lzw_lzwRefused (r : RefuseReason) : (enterRefusal .lzw r s).lzwRefused = true := rfl
@[simp] theorem enterRefusal_lzw_input (r : RefuseReason) : (enterRefusal .lzw r s).input = s.input := rfl
@[simp] theorem enterRefusal_lzw_dict (r : RefuseReason) : (enterRefusal .lzw r s).dict = s.dict := rfl
@[simp] theorem enterRefusal_lzw_out (r : RefuseReason) : (enterRefusal .lzw r s).out = s.out := rfl
@[simp] theorem enterRefusal_lzw_frbuf (r : RefuseReason) : (enterRefusal .lzw r s).frbuf = s.frbuf := rfl
@[simp] theorem enterRefusal_lzw_frFault (r : RefuseReason) : (enterRefusal .lzw r s).frFault = s.frFault := rfl
@[simp] theorem enterRefusal_lzw_frRefused (r : RefuseReason) : (enterRefusal .lzw r s).frRefused = s.frRefused := rfl
@[simp] theorem enterRefusal_lzw_params (r : RefuseReason) : (enterRefusal .lzw r s).params = s.params := rfl
@[simp] theorem enterRefusal_lzw_host (r : RefuseReason) : (enterRefusal .lzw r s).host = s.host := rfl
@[simp] theorem enterRefusal_lzw_response (r : RefuseReason) : (enterRefusal .lzw r s).response = some ⟨.refused r, 0, .nothing⟩ := rfl

/-! ### enterRefusal_fr -/

@[simp] theorem enterRefusal_fr_brValid (r : RefuseReason) : (enterRefusal .fr r s).brValid = s.brValid := rfl
@[simp] theorem enterRefusal_fr_inLen (r : RefuseReason) : (enterRefusal .fr r s).inLen = s.inLen := rfl
@[simp] theorem enterRefusal_fr_bitpos (r : RefuseReason) : (enterRefusal .fr r s).bitpos = s.bitpos := rfl
@[simp] theorem enterRefusal_fr_codeWidth (r : RefuseReason) : (enterRefusal .fr r s).codeWidth = s.codeWidth := rfl
@[simp] theorem enterRefusal_fr_cur (r : RefuseReason) : (enterRefusal .fr r s).cur = s.cur := rfl
@[simp] theorem enterRefusal_fr_prev (r : RefuseReason) : (enterRefusal .fr r s).prev = s.prev := rfl
@[simp] theorem enterRefusal_fr_phase (r : RefuseReason) : (enterRefusal .fr r s).phase = s.phase := rfl
@[simp] theorem enterRefusal_fr_mcs (r : RefuseReason) : (enterRefusal .fr r s).mcs = s.mcs := rfl
@[simp] theorem enterRefusal_fr_cts (r : RefuseReason) : (enterRefusal .fr r s).cts = s.cts := rfl
@[simp] theorem enterRefusal_fr_ctValid (r : RefuseReason) : (enterRefusal .fr r s).ctValid = s.ctValid := rfl
@[simp] theorem enterRefusal_fr_maxKey (r : RefuseReason) : (enterRefusal .fr r s).maxKey = s.maxKey := rfl
@[simp] theorem enterRefusal_fr_outLen (r : RefuseReason) : (enterRefusal .fr r s).outLen = s.outLen := rfl
@[simp] theorem enterRefusal_fr_lzwFault (r : RefuseReason) : (enterRefusal .fr r s).lzwFault = s.lzwFault := rfl
@[simp] theorem enterRefusal_fr_lzwRefused (r : RefuseReason) : (enterRefusal .fr r s).lzwRefused = s.lzwRefused := rfl
@[simp] theorem enterRefusal_fr_input (r : RefuseReason) : (enterRefusal .fr r s).input = s.input := rfl
@[simp] theorem enterRefusal_fr_dict (r : RefuseReason) : (enterRefusal .fr r s).dict = s.dict := rfl
@[simp] theorem enterRefusal_fr_out (r : RefuseReason) : (enterRefusal .fr r s).out = s.out := rfl
@[simp] theorem enterRefusal_fr_frbuf (r : RefuseReason) : (enterRefusal .fr r s).frbuf = s.frbuf := rfl
@[simp] theorem enterRefusal_fr_frFault (r : RefuseReason) : (enterRefusal .fr r s).frFault = s.frFault := rfl
@[simp] theorem enterRefusal_fr_frRefused (r : RefuseReason) : (enterRefusal .fr r s).frRefused = true := rfl
@[simp] theorem enterRefusal_fr_params (r : RefuseReason) : (enterRefusal .fr r s).params = s.params := rfl
@[simp] theorem enterRefusal_fr_host (r : RefuseReason) : (enterRefusal .fr r s).host = s.host := rfl
@[simp] theorem enterRefusal_fr_response (r : RefuseReason) : (enterRefusal .fr r s).response = some ⟨.refused r, 0, .nothing⟩ := rfl

/-! ### resetLzw -/

@[simp] theorem resetLzw_brValid : (resetLzw s).brValid = false := rfl
@[simp] theorem resetLzw_inLen : (resetLzw s).inLen = 0 := rfl
@[simp] theorem resetLzw_bitpos : (resetLzw s).bitpos = 0 := rfl
@[simp] theorem resetLzw_codeWidth : (resetLzw s).codeWidth = 0 := rfl
@[simp] theorem resetLzw_cur : (resetLzw s).cur = 0 := rfl
@[simp] theorem resetLzw_prev : (resetLzw s).prev = 0 := rfl
@[simp] theorem resetLzw_phase : (resetLzw s).phase = .idle := rfl
@[simp] theorem resetLzw_mcs : (resetLzw s).mcs = 0 := rfl
@[simp] theorem resetLzw_cts : (resetLzw s).cts = 0 := rfl
@[simp] theorem resetLzw_ctValid : (resetLzw s).ctValid = false := rfl
@[simp] theorem resetLzw_maxKey : (resetLzw s).maxKey = 0 := rfl
@[simp] theorem resetLzw_outLen : (resetLzw s).outLen = 0 := rfl
@[simp] theorem resetLzw_lzwFault : (resetLzw s).lzwFault = none := rfl
@[simp] theorem resetLzw_lzwRefused : (resetLzw s).lzwRefused = false := rfl
@[simp] theorem resetLzw_input : (resetLzw s).input = [] := rfl
@[simp] theorem resetLzw_dict : (resetLzw s).dict = [] := rfl
@[simp] theorem resetLzw_out : (resetLzw s).out = [] := rfl
@[simp] theorem resetLzw_frbuf : (resetLzw s).frbuf = s.frbuf := rfl
@[simp] theorem resetLzw_frFault : (resetLzw s).frFault = s.frFault := rfl
@[simp] theorem resetLzw_frRefused : (resetLzw s).frRefused = s.frRefused := rfl
@[simp] theorem resetLzw_params : (resetLzw s).params = s.params := rfl
@[simp] theorem resetLzw_host : (resetLzw s).host = s.host := rfl
@[simp] theorem resetLzw_response : (resetLzw s).response = s.response := rfl

/-! ### resetFr -/

@[simp] theorem resetFr_brValid : (resetFr s).brValid = s.brValid := rfl
@[simp] theorem resetFr_inLen : (resetFr s).inLen = s.inLen := rfl
@[simp] theorem resetFr_bitpos : (resetFr s).bitpos = s.bitpos := rfl
@[simp] theorem resetFr_codeWidth : (resetFr s).codeWidth = s.codeWidth := rfl
@[simp] theorem resetFr_cur : (resetFr s).cur = s.cur := rfl
@[simp] theorem resetFr_prev : (resetFr s).prev = s.prev := rfl
@[simp] theorem resetFr_phase : (resetFr s).phase = s.phase := rfl
@[simp] theorem resetFr_mcs : (resetFr s).mcs = s.mcs := rfl
@[simp] theorem resetFr_cts : (resetFr s).cts = s.cts := rfl
@[simp] theorem resetFr_ctValid : (resetFr s).ctValid = s.ctValid := rfl
@[simp] theorem resetFr_maxKey : (resetFr s).maxKey = s.maxKey := rfl
@[simp] theorem resetFr_outLen : (resetFr s).outLen = s.outLen := rfl
@[simp] theorem resetFr_lzwFault : (resetFr s).lzwFault = s.lzwFault := rfl
@[simp] theorem resetFr_lzwRefused : (resetFr s).lzwRefused = s.lzwRefused := rfl
@[simp] theorem resetFr_input : (resetFr s).input = s.input := rfl
@[simp] theorem resetFr_dict : (resetFr s).dict = s.dict := rfl
@[simp] theorem resetFr_out : (resetFr s).out = s.out := rfl
@[simp] theorem resetFr_frbuf : (resetFr s).frbuf = [] := rfl
@[simp] theorem resetFr_frFault : (resetFr s).frFault = none := rfl
@[simp] theorem resetFr_frRefused : (resetFr s).frRefused = false := rfl
@[simp] theorem resetFr_params : (resetFr s).params = s.params := rfl
@[simp] theorem resetFr_host : (resetFr s).host = s.host := rfl
@[simp] theorem resetFr_response : (resetFr s).response = s.response := rfl

/-! ### loadInput -/

@[simp] theorem loadInput_brValid (bs : List Byte) : (loadInput bs s).brValid = true := rfl
@[simp] theorem loadInput_inLen (bs : List Byte) : (loadInput bs s).inLen = bs.length := rfl
@[simp] theorem loadInput_bitpos (bs : List Byte) : (loadInput bs s).bitpos = 0 := rfl
@[simp] theorem loadInput_codeWidth (bs : List Byte) : (loadInput bs s).codeWidth = s.codeWidth := rfl
@[simp] theorem loadInput_cur (bs : List Byte) : (loadInput bs s).cur = s.cur := rfl
@[simp] theorem loadInput_prev (bs : List Byte) : (loadInput bs s).prev = s.prev := rfl
@[simp] theorem loadInput_phase (bs : List Byte) : (loadInput bs s).phase = s.phase := rfl
@[simp] theorem loadInput_mcs (bs : List Byte) : (loadInput bs s).mcs = s.mcs := rfl
@[simp] theorem loadInput_cts (bs : List Byte) : (loadInput bs s).cts = s.cts := rfl
@[simp] theorem loadInput_ctValid (bs : List Byte) : (loadInput bs s).ctValid = s.ctValid := rfl
@[simp] theorem loadInput_maxKey (bs : List Byte) : (loadInput bs s).maxKey = s.maxKey := rfl
@[simp] theorem loadInput_outLen (bs : List Byte) : (loadInput bs s).outLen = s.outLen := rfl
@[simp] theorem loadInput_lzwFault (bs : List Byte) : (loadInput bs s).lzwFault = s.lzwFault := rfl
@[simp] theorem loadInput_lzwRefused (bs : List Byte) : (loadInput bs s).lzwRefused = s.lzwRefused := rfl
@[simp] theorem loadInput_input (bs : List Byte) : (loadInput bs s).input = bytesFrom 0 bs := rfl
@[simp] theorem loadInput_dict (bs : List Byte) : (loadInput bs s).dict = s.dict := rfl
@[simp] theorem loadInput_out (bs : List Byte) : (loadInput bs s).out = s.out := rfl
@[simp] theorem loadInput_frbuf (bs : List Byte) : (loadInput bs s).frbuf = s.frbuf := rfl
@[simp] theorem loadInput_frFault (bs : List Byte) : (loadInput bs s).frFault = s.frFault := rfl
@[simp] theorem loadInput_frRefused (bs : List Byte) : (loadInput bs s).frRefused = s.frRefused := rfl
@[simp] theorem loadInput_params (bs : List Byte) : (loadInput bs s).params = s.params := rfl
@[simp] theorem loadInput_host (bs : List Byte) : (loadInput bs s).host = s.host := rfl
@[simp] theorem loadInput_response (bs : List Byte) : (loadInput bs s).response = s.response := rfl

/-! ### initTable -/

@[simp] theorem initTable_brValid (m c : Nat) : (initTable m c s).brValid = s.brValid := rfl
@[simp] theorem initTable_inLen (m c : Nat) : (initTable m c s).inLen = s.inLen := rfl
@[simp] theorem initTable_bitpos (m c : Nat) : (initTable m c s).bitpos = s.bitpos := rfl
@[simp] theorem initTable_codeWidth (m c : Nat) : (initTable m c s).codeWidth = s.codeWidth := rfl
@[simp] theorem initTable_cur (m c : Nat) : (initTable m c s).cur = s.cur := rfl
@[simp] theorem initTable_prev (m c : Nat) : (initTable m c s).prev = s.prev := rfl
@[simp] theorem initTable_phase (m c : Nat) : (initTable m c s).phase = s.phase := rfl
@[simp] theorem initTable_mcs (m c : Nat) : (initTable m c s).mcs = m := rfl
@[simp] theorem initTable_cts (m c : Nat) : (initTable m c s).cts = c := rfl
@[simp] theorem initTable_ctValid (m c : Nat) : (initTable m c s).ctValid = true := rfl
@[simp] theorem initTable_maxKey (m c : Nat) : (initTable m c s).maxKey = clrKey m + 1 := rfl
@[simp] theorem initTable_outLen (m c : Nat) : (initTable m c s).outLen = s.outLen := rfl
@[simp] theorem initTable_lzwFault (m c : Nat) : (initTable m c s).lzwFault = s.lzwFault := rfl
@[simp] theorem initTable_lzwRefused (m c : Nat) : (initTable m c s).lzwRefused = s.lzwRefused := rfl
@[simp] theorem initTable_input (m c : Nat) : (initTable m c s).input = s.input := rfl
@[simp] theorem initTable_dict (m c : Nat) : (initTable m c s).dict = freshDict m c := rfl
@[simp] theorem initTable_out (m c : Nat) : (initTable m c s).out = s.out := rfl
@[simp] theorem initTable_frbuf (m c : Nat) : (initTable m c s).frbuf = s.frbuf := rfl
@[simp] theorem initTable_frFault (m c : Nat) : (initTable m c s).frFault = s.frFault := rfl
@[simp] theorem initTable_frRefused (m c : Nat) : (initTable m c s).frRefused = s.frRefused := rfl
@[simp] theorem initTable_params (m c : Nat) : (initTable m c s).params = s.params := rfl
@[simp] theorem initTable_host (m c : Nat) : (initTable m c s).host = s.host := rfl
@[simp] theorem initTable_response (m c : Nat) : (initTable m c s).response = s.response := rfl

/-! ### writeDict -/

@[simp] theorem writeDict_brValid (k : Nat) (q : List Symbol) : (writeDict k q s).brValid = s.brValid := rfl
@[simp] theorem writeDict_inLen (k : Nat) (q : List Symbol) : (writeDict k q s).inLen = s.inLen := rfl
@[simp] theorem writeDict_bitpos (k : Nat) (q : List Symbol) : (writeDict k q s).bitpos = s.bitpos := rfl
@[simp] theorem writeDict_codeWidth (k : Nat) (q : List Symbol) : (writeDict k q s).codeWidth = s.codeWidth := rfl
@[simp] theorem writeDict_cur (k : Nat) (q : List Symbol) : (writeDict k q s).cur = s.cur := rfl
@[simp] theorem writeDict_prev (k : Nat) (q : List Symbol) : (writeDict k q s).prev = s.prev := rfl
@[simp] theorem writeDict_phase (k : Nat) (q : List Symbol) : (writeDict k q s).phase = s.phase := rfl
@[simp] theorem writeDict_mcs (k : Nat) (q : List Symbol) : (writeDict k q s).mcs = s.mcs := rfl
@[simp] theorem writeDict_cts (k : Nat) (q : List Symbol) : (writeDict k q s).cts = s.cts := rfl
@[simp] theorem writeDict_ctValid (k : Nat) (q : List Symbol) : (writeDict k q s).ctValid = s.ctValid := rfl
@[simp] theorem writeDict_maxKey (k : Nat) (q : List Symbol) : (writeDict k q s).maxKey = s.maxKey := rfl
@[simp] theorem writeDict_outLen (k : Nat) (q : List Symbol) : (writeDict k q s).outLen = s.outLen := rfl
@[simp] theorem writeDict_lzwFault (k : Nat) (q : List Symbol) : (writeDict k q s).lzwFault = s.lzwFault := rfl
@[simp] theorem writeDict_lzwRefused (k : Nat) (q : List Symbol) : (writeDict k q s).lzwRefused = s.lzwRefused := rfl
@[simp] theorem writeDict_input (k : Nat) (q : List Symbol) : (writeDict k q s).input = s.input := rfl
@[simp] theorem writeDict_dict (k : Nat) (q : List Symbol) : (writeDict k q s).dict = writeCell s.dict k q := rfl
@[simp] theorem writeDict_out (k : Nat) (q : List Symbol) : (writeDict k q s).out = s.out := rfl
@[simp] theorem writeDict_frbuf (k : Nat) (q : List Symbol) : (writeDict k q s).frbuf = s.frbuf := rfl
@[simp] theorem writeDict_frFault (k : Nat) (q : List Symbol) : (writeDict k q s).frFault = s.frFault := rfl
@[simp] theorem writeDict_frRefused (k : Nat) (q : List Symbol) : (writeDict k q s).frRefused = s.frRefused := rfl
@[simp] theorem writeDict_params (k : Nat) (q : List Symbol) : (writeDict k q s).params = s.params := rfl
@[simp] theorem writeDict_host (k : Nat) (q : List Symbol) : (writeDict k q s).host = s.host := rfl
@[simp] theorem writeDict_response (k : Nat) (q : List Symbol) : (writeDict k q s).response = s.response := rfl

/-! ### enterDecode -/

@[simp] theorem enterDecode_brValid (m c : Nat) (bs : List Byte) : (enterDecode m c bs s).brValid = true := rfl
@[simp] theorem enterDecode_inLen (m c : Nat) (bs : List Byte) : (enterDecode m c bs s).inLen = bs.length := rfl
@[simp] theorem enterDecode_bitpos (m c : Nat) (bs : List Byte) : (enterDecode m c bs s).bitpos = 0 := rfl
@[simp] theorem enterDecode_codeWidth (m c : Nat) (bs : List Byte) : (enterDecode m c bs s).codeWidth = m + 1 := rfl
@[simp] theorem enterDecode_cur (m c : Nat) (bs : List Byte) : (enterDecode m c bs s).cur = s.cur := rfl
@[simp] theorem enterDecode_prev (m c : Nat) (bs : List Byte) : (enterDecode m c bs s).prev = s.prev := rfl
@[simp] theorem enterDecode_phase (m c : Nat) (bs : List Byte) : (enterDecode m c bs s).phase = .expectClear := rfl
@[simp] theorem enterDecode_mcs (m c : Nat) (bs : List Byte) : (enterDecode m c bs s).mcs = m := rfl
@[simp] theorem enterDecode_cts (m c : Nat) (bs : List Byte) : (enterDecode m c bs s).cts = c := rfl
@[simp] theorem enterDecode_ctValid (m c : Nat) (bs : List Byte) : (enterDecode m c bs s).ctValid = true := rfl
@[simp] theorem enterDecode_maxKey (m c : Nat) (bs : List Byte) : (enterDecode m c bs s).maxKey = clrKey m + 1 := rfl
@[simp] theorem enterDecode_outLen (m c : Nat) (bs : List Byte) : (enterDecode m c bs s).outLen = 0 := rfl
@[simp] theorem enterDecode_lzwFault (m c : Nat) (bs : List Byte) : (enterDecode m c bs s).lzwFault = s.lzwFault := rfl
@[simp] theorem enterDecode_lzwRefused (m c : Nat) (bs : List Byte) : (enterDecode m c bs s).lzwRefused = s.lzwRefused := rfl
@[simp] theorem enterDecode_input (m c : Nat) (bs : List Byte) : (enterDecode m c bs s).input = bytesFrom 0 bs := rfl
@[simp] theorem enterDecode_dict (m c : Nat) (bs : List Byte) : (enterDecode m c bs s).dict = freshDict m c := rfl
@[simp] theorem enterDecode_out (m c : Nat) (bs : List Byte) : (enterDecode m c bs s).out = [] := rfl
@[simp] theorem enterDecode_frbuf (m c : Nat) (bs : List Byte) : (enterDecode m c bs s).frbuf = s.frbuf := rfl
@[simp] theorem enterDecode_frFault (m c : Nat) (bs : List Byte) : (enterDecode m c bs s).frFault = s.frFault := rfl
@[simp] theorem enterDecode_frRefused (m c : Nat) (bs : List Byte) : (enterDecode m c bs s).frRefused = s.frRefused := rfl
@[simp] theorem enterDecode_params (m c : Nat) (bs : List Byte) : (enterDecode m c bs s).params = s.params := rfl
@[simp] theorem enterDecode_host (m c : Nat) (bs : List Byte) : (enterDecode m c bs s).host = s.host := rfl
@[simp] theorem enterDecode_response (m c : Nat) (bs : List Byte) : (enterDecode m c bs s).response = s.response := rfl

end Sys2Proof.Machine
end

