-- ==== Sys2Proof/Laws/Ops.lean ====
section
/-! SUPPORT. One lemma per shared operation, saying once all it can do. -/

namespace Sys2Proof.Machine

/-! ### The checks -/

/-- On an unfaulted engine the operation goes on (R242). -/
theorem unlessFaulted_of_none {e : Engine} {s : State} (h : faultOf e s = none) (go : StepOutcome) :
    unlessFaulted e s go = go := by simp [unlessFaulted, h]

/-- On a faulted engine every operation is refused (R271). -/
theorem unlessFaulted_of_fault {e : Engine} {s : State} (h : faultOf e s ≠ none) (go : StepOutcome) :
    unlessFaulted e s go = .next (enterRefusal e .engineFaulted s) := by
  simp [unlessFaulted, h, refuse]

@[simp] theorem faultOf_lzw (s : State) : faultOf .lzw s = s.lzwFault := rfl
@[simp] theorem faultOf_fr (s : State) : faultOf .fr s = s.frFault := rfl

/-- The four conditions of R142, one by one. -/
theorem legalConfig_iff (p : Params) (mcs cts : Nat) :
    legalConfig p mcs cts = true ↔
      p.cwMax.allows (mcs + 1) = true ∧ p.ctsMax.allows cts = true ∧
      p.keyMax.allows (2 ^ mcs + 1) = true ∧ cts ≤ 2 ^ mcs := by
  simp [legalConfig, and_assoc]

/-- What a capacity allows it allows for every smaller value. -/
theorem Capacity.allows_mono {c : Capacity} {m n : Nat} (h : m ≤ n) (hn : c.allows n = true) :
    c.allows m = true := by
  cases c with
  | atMost k => simp only [Capacity.allows, decide_eq_true_eq] at hn ⊢; omega
  | unbounded => rfl

/-! ### Reading bits -/

/-- A bit of IN is the bit of the byte it lies in (R61). -/
theorem inputBit_eq_some {m : Memory} {q : Nat} {x : Bool} :
    inputBit m q = some x ↔ ∃ b, readCell m (q / 8) = some b ∧ b.getLsbD (q % 8) = x := by
  simp [inputBit]

/-- One bit more: the bits before it, and the bit itself at weight `2^w` (R91). -/
theorem readBits_succ {m : Memory} {pos w v : Nat} :
    readBits m pos (w + 1) = some v ↔
      ∃ u x, readBits m pos w = some u ∧ inputBit m (pos + w) = some x ∧ v = u + x.toNat * 2 ^ w := by
  rw [readBits]
  cases readBits m pos w <;> cases inputBit m (pos + w) <;>
    simp [Nat.shiftLeft_eq, eq_comm]

/-- What a read of bits answers: the number below `2^w` whose bit `i` is the bit at `pos + i` (R66, R122). -/
theorem readBits_spec {s : State} {pos w v : Nat} :
    readBits s.input pos w = some v ↔ BitsAre s pos w v := by
  induction w generalizing v with
  | zero => simp [readBits, BitsAre, eq_comm]
  | succ w ih =>
    rw [readBits_succ]
    constructor
    · rintro ⟨u, x, hu, hx, rfl⟩
      obtain ⟨hlt, hb⟩ := ih.1 hu
      obtain ⟨b, hb1, hb2⟩ := inputBit_eq_some.1 hx
      have hx1 : x.toNat ≤ 1 := Bool.toNat_le x
      have hpow : 2 ^ (w + 1) = 2 ^ w + 2 ^ w := by omega
      refine ⟨?_, fun i hi => ?_⟩
      · rw [hpow]
        have : x.toNat * 2 ^ w ≤ 1 * 2 ^ w := Nat.mul_le_mul_right _ hx1
        omega
      · have htb : ∀ j, (u + x.toNat * 2 ^ w).testBit j = if j < w then u.testBit j else x.toNat.testBit (j - w) := by
          intro j
          rw [Nat.add_comm, Nat.mul_comm, Nat.testBit_two_pow_mul_add _ hlt]
        rw [htb]
        by_cases h : i < w
        · simpa [h] using hb i h
        · have : i = w := by omega
          subst this
          refine ⟨b, hb1, ?_⟩
          cases x <;> simp [hb2]
    · rintro ⟨hlt, hb⟩
      obtain ⟨b, hb1, hb2⟩ := hb w (by omega)
      refine ⟨v % 2 ^ w, v.testBit w, ?_, ?_, ?_⟩
      · refine ih.2 ⟨Nat.mod_lt _ (by positivity), fun i hi => ?_⟩
        obtain ⟨b', h1, h2⟩ := hb i (by omega)
        exact ⟨b', h1, by simp [Nat.testBit_mod_two_pow, hi, h2]⟩
      · exact inputBit_eq_some.2 ⟨b, hb1, hb2.symm⟩
      · have h2 : v / 2 ^ w < 2 := by
          rw [Nat.div_lt_iff_lt_mul (by positivity)]; rw [Nat.pow_succ] at hlt; omega
        have h3 : (v.testBit w).toNat = v / 2 ^ w := by
          rw [Nat.toNat_testBit, Nat.mod_eq_of_lt h2]
        rw [h3, Nat.mul_comm]
        exact (Nat.mod_add_div v (2 ^ w)).symm

/-- Two numbers spelled by the same bits are equal. -/
theorem BitsAre.unique {s : State} {pos w u v : Nat} (hu : BitsAre s pos w u) (hv : BitsAre s pos w v) :
    u = v := by
  have h1 := readBits_spec.2 hu
  have h2 := readBits_spec.2 hv
  rw [h1] at h2
  exact Option.some.inj h2

/-- In a loaded input the bits up to the end are there. -/
theorem exists_bitsAre {s : State} (hin : s.input.map Prod.fst = List.range s.inLen) {pos w : Nat}
    (h : pos + w ≤ 8 * s.inLen) : ∃ v, BitsAre s pos w v := by
  suffices ∃ v, readBits s.input pos w = some v by
    obtain ⟨v, hv⟩ := this; exact ⟨v, readBits_spec.1 hv⟩
  induction w with
  | zero => exact ⟨0, rfl⟩
  | succ w ih =>
    obtain ⟨u, hu⟩ := ih (by omega)
    have hb : (readCell s.input ((pos + w) / 8)).isSome = true := by
      rw [readCell_isSome, hin, List.mem_range]; omega
    obtain ⟨b, hb⟩ := Option.isSome_iff_exists.1 hb
    exact ⟨_, readBits_succ.2 ⟨u, _, hu, inputBit_eq_some.2 ⟨b, hb, rfl⟩, rfl⟩⟩

/-- A read past the end raises `TruncatedInput` (R123). -/
theorem consumeBits_past {w : Nat} {s : State} (go : Nat → State → StepOutcome)
    (h : 8 * s.inLen < s.bitpos + w) :
    consumeBits w s go = .next (enterFault .lzw .truncatedInput s.bitpos s) := by
  simp [consumeBits, h, raise]

/-- A read of bits that are there goes on with their number and the cursor past them (R122). -/
theorem consumeBits_here {w v : Nat} {s : State} (go : Nat → State → StepOutcome)
    (h : s.bitpos + w ≤ 8 * s.inLen) (hv : BitsAre s s.bitpos w v) :
    consumeBits w s go = go v { s with bitpos := s.bitpos + w } := by
  simp [consumeBits, readBits_spec.2 hv, Nat.not_lt.2 h]

/-- All that a read of bits can do. -/
theorem consumeBits_cases (w : Nat) (s : State) (go : Nat → State → StepOutcome) :
    (8 * s.inLen < s.bitpos + w ∧
      consumeBits w s go = .next (enterFault .lzw .truncatedInput s.bitpos s)) ∨
    (∃ v, s.bitpos + w ≤ 8 * s.inLen ∧ BitsAre s s.bitpos w v ∧
      consumeBits w s go = go v { s with bitpos := s.bitpos + w }) ∨
    (s.bitpos + w ≤ 8 * s.inLen ∧ (∀ v, ¬ BitsAre s s.bitpos w v) ∧
      consumeBits w s go = .fault (.inputAbsent s.bitpos)) := by
  by_cases h : 8 * s.inLen < s.bitpos + w
  · exact .inl ⟨h, consumeBits_past go h⟩
  · refine .inr ?_
    cases hv : readBits s.input s.bitpos w with
    | none =>
      refine .inr ⟨Nat.not_lt.1 h, fun v hb => ?_, by simp [consumeBits, h, hv]⟩
      rw [readBits_spec.2 hb] at hv; cases hv
    | some v =>
      have hb := readBits_spec.1 hv
      exact .inl ⟨v, Nat.not_lt.1 h, hb, consumeBits_here go (Nat.not_lt.1 h) hb⟩

/-! ### The micro-operations of the decompressor -/

/-- All that an insertion can do (R150, R193). -/
theorem insertNext_cases (seq : List Symbol) (s : State) (go : State → StepOutcome) :
    (s.params.keyMax.allows (s.maxKey + 1) = false ∧
      insertNext seq s go = .next (enterFault .lzw .capacityExceeded 3 s)) ∨
    (s.params.keyMax.allows (s.maxKey + 1) = true ∧ s.params.seqMax.allows seq.length = false ∧
      insertNext seq s go = .next (enterFault .lzw .capacityExceeded 4 s)) ∨
    (s.params.keyMax.allows (s.maxKey + 1) = true ∧ s.params.seqMax.allows seq.length = true ∧
      insertNext seq s go = go (writeDict (s.maxKey + 1) seq { s with maxKey := s.maxKey + 1 })) := by
  unfold insertNext
  cases h1 : s.params.keyMax.allows (s.maxKey + 1) <;>
    cases h2 : s.params.seqMax.allows seq.length <;> simp [raise]

/-- All that an append can do (R193). -/
theorem appendOut_cases (seq : List Symbol) (s : State) (go : State → StepOutcome) :
    (s.params.outMax.allows (s.outLen + seq.length) = false ∧
      appendOut seq s go = .next (enterFault .lzw .capacityExceeded 5 s)) ∨
    (s.params.outMax.allows (s.outLen + seq.length) = true ∧
      appendOut seq s go = go { s with out := s.out ++ seq, outLen := s.outLen + seq.length }) := by
  unfold appendOut
  cases h : s.params.outMax.allows (s.outLen + seq.length) <;> simp [raise]

/-- All that the widen rule can do (R176). -/
theorem widen_cases (c : Nat) (s : State) (go : State → StepOutcome) :
    (c ≠ 2 ^ s.codeWidth - 1 ∧ widen c s go = go s) ∨
    (c = 2 ^ s.codeWidth - 1 ∧ s.params.cwMax.allows (s.codeWidth + 1) = false ∧
      widen c s go = .next (enterFault .lzw .capacityExceeded 2 s)) ∨
    (c = 2 ^ s.codeWidth - 1 ∧ s.params.cwMax.allows (s.codeWidth + 1) = true ∧
      widen c s go = go { s with codeWidth := s.codeWidth + 1 }) := by
  unfold widen
  rw [allOnes_eq]
  by_cases h : c = 2 ^ s.codeWidth - 1
  · rw [if_pos h]
    cases h2 : s.params.cwMax.allows (s.codeWidth + 1) <;> simp [h, raise]
  · rw [if_neg h]; exact .inl ⟨h, rfl⟩

end Sys2Proof.Machine
end

