-- ==== Sys2Proof/Laws/PerInstr.lean ====
section
/-! SUPPORT. One law per instruction, as syntax: the row of the opcode table that its encoded form belongs to. -/

namespace Sys2Proof.Laws.RowOfEncoding

open Sys2Proof

/-- A well-formed command's word selects its row's mnemonic and no other (R101); a well-formed code word is not empty and its bits spell a value below `2^width` (R90, R91); a frame-stream byte is of its own class (R97). -/
def Statement (i : Instr) : Prop :=
  i.wf = true →
    match encode i with
    | .command w _ => (opcodeMap.filter fun r => r.selects w).map OpcodeRow.mnemonic = [i.mnemonic]
    | .code bits => bits ≠ [] ∧ bitsToNat bits < 2 ^ bits.length
    | .frameByte b => decodeFrameByte b = i

/-- A word with the given fields selects the rows whose fields are these. -/
theorem rows_of_fields {u f a : Nat} (hu : u < 16) (hf : f < 16) (ha : a < 2 ^ 24) (m : String)
    (h : ∀ w : CmdWord, w.toNat = u * 2 ^ 28 + f * 2 ^ 24 + a →
      (opcodeMap.filter fun r => r.selects w).map OpcodeRow.mnemonic = [m]) :
    (opcodeMap.filter fun r => r.selects (commandWord u f a)).map OpcodeRow.mnemonic = [m] :=
  h _ (commandWord_toNat hu hf ha)

/-- The code-word part, once for the five classes. -/
theorem code_bits {c w : Nat} (h : codeInRange c w = true) :
    codeBits c w ≠ [] ∧ bitsToNat (codeBits c w) < 2 ^ (codeBits c w).length := by
  simp only [codeInRange, Bool.and_eq_true, decide_eq_true_eq] at h
  rw [bitsToNat_codeBits w c h.2, codeBits_length]
  refine ⟨fun hn => ?_, h.2⟩
  have := congrArg List.length hn
  simp at this; omega

theorem brLoad (bytes : List Byte) : Statement (.brLoad bytes) := fun _ => by
  show _ = ["BR.LOAD"]; decide

theorem brRead (width : Nat) : Statement (.brRead width) := fun h => by
  simp only [Instr.wf, decide_eq_true_eq] at h
  refine rows_of_fields (by omega) (by omega) (by omega) _ fun w hw => ?_
  simp only [opcodeMap, List.filter_cons, List.filter_nil, selects_whole, selects_above8, selects_above24,
    hw, BitVec.toNat_ofNat, decide_eq_true_eq]
  repeat (first | rw [if_neg (by omega)] | rw [if_pos (by omega)])
  rfl

theorem ctInit (mcs cts : Nat) : Statement (.ctInit mcs cts) := fun h => by
  simp only [Instr.wf, Bool.and_eq_true, decide_eq_true_eq] at h
  refine rows_of_fields (by omega) (by omega) (by omega) _ fun w hw => ?_
  simp only [opcodeMap, List.filter_cons, List.filter_nil, selects_whole, selects_above8, selects_above24,
    hw, BitVec.toNat_ofNat, decide_eq_true_eq]
  repeat (first | rw [if_neg (by omega)] | rw [if_pos (by omega)])
  rfl

theorem ctLookup (code : Nat) : Statement (.ctLookup code) := fun h => by
  simp only [Instr.wf, decide_eq_true_eq] at h
  refine rows_of_fields (by omega) (by omega) (by omega) _ fun w hw => ?_
  simp only [opcodeMap, List.filter_cons, List.filter_nil, selects_whole, selects_above8, selects_above24,
    hw, BitVec.toNat_ofNat, decide_eq_true_eq]
  repeat (first | rw [if_neg (by omega)] | rw [if_pos (by omega)])
  rfl

theorem ctHas (code : Nat) : Statement (.ctHas code) := fun h => by
  simp only [Instr.wf, decide_eq_true_eq] at h
  refine rows_of_fields (by omega) (by omega) (by omega) _ fun w hw => ?_
  simp only [opcodeMap, List.filter_cons, List.filter_nil, selects_whole, selects_above8, selects_above24,
    hw, BitVec.toNat_ofNat, decide_eq_true_eq]
  repeat (first | rw [if_neg (by omega)] | rw [if_pos (by omega)])
  rfl

theorem ctInsert (words : List SymWord) : Statement (.ctInsert words) := fun _ => by
  show _ = ["CT.INSERT"]; decide

theorem lzwDecode (mcs cts : Nat) (bytes : List Byte) : Statement (.lzwDecode mcs cts bytes) := fun h => by
  simp only [Instr.wf, Bool.and_eq_true, decide_eq_true_eq] at h
  refine rows_of_fields (by omega) (by omega) (by omega) _ fun w hw => ?_
  simp only [opcodeMap, List.filter_cons, List.filter_nil, selects_whole, selects_above8, selects_above24,
    hw, BitVec.toNat_ofNat, decide_eq_true_eq]
  repeat (first | rw [if_neg (by omega)] | rw [if_pos (by omega)])
  rfl

theorem frAppend (bytes : List Byte) : Statement (.frAppend bytes) := fun _ => by
  show _ = ["FR.APPEND"]; decide
theorem frHasfg : Statement .frHasfg := fun _ => by show _ = _; decide
theorem frSwg : Statement .frSwg := fun _ => by show _ = _; decide
theorem frTakeg : Statement .frTakeg := fun _ => by show _ = _; decide
theorem frTakef : Statement .frTakef := fun _ => by show _ = _; decide
theorem frClear : Statement .frClear := fun _ => by show _ = _; decide

theorem cwWiden (cls : CwClass) (code width : Nat) : Statement (.cwWiden cls code width) := fun h => by
  simp only [Instr.wf, Bool.and_eq_true] at h; exact code_bits h.1.1

theorem cwClear (code width : Nat) : Statement (.cwClear code width) := fun h => by
  simp only [Instr.wf, Bool.and_eq_true] at h; exact code_bits h.1

theorem cwEoi (code width : Nat) : Statement (.cwEoi code width) := fun h => by
  simp only [Instr.wf, Bool.and_eq_true] at h; exact code_bits h.1.1

theorem cwPresent (code width : Nat) : Statement (.cwPresent code width) := fun h => code_bits h
theorem cwAbsent (code width : Nat) : Statement (.cwAbsent code width) := fun h => code_bits h

theorem bStart : Statement .bStart := fun _ => rfl
theorem bEnd : Statement .bEnd := fun _ => rfl

theorem bData (b : Byte) : Statement (.bData b) := fun h => by
  simp only [Instr.wf, Bool.and_eq_true, decide_eq_true_eq] at h
  show decodeFrameByte b = _
  simp [decodeFrameByte, h.1, h.2]

end Sys2Proof.Laws.RowOfEncoding
end

