-- ==== Sys2Proof/Laws/Step.lean ====
section
/-! SUPPORT. The step, case by case: it waits, issues a host input, or runs one code word; and a code word's instruction is its class's meaning. -/

namespace Sys2Proof.Machine

/-- Between operations, with nothing to issue, the block waits (R300). -/
theorem step_wait {s : State} (hp : s.phase = .idle) (hh : s.host = []) : step s = .next s := by
  simp [step, hp, hh]

/-- Between operations the host's next input is taken and issued (R240). -/
theorem step_input {s : State} {x : HostInput} {rest : List HostInput} (hp : s.phase = .idle)
    (hh : s.host = x :: rest) : step s = issue x { s with host := rest } := by
  simp only [step]; split <;> simp_all

/-- The instruction of a class has the class's meaning (R94). -/
theorem exec_codeInstr (cls : CwClass) (c w : Nat) (s : State) :
    exec (codeInstr cls c w) s = execClass cls c w s := by cases cls <;> rfl

/-- Running a code word through the decoder and the dispatch is running it inside `LZW.DECODE` (R94, R184). -/
theorem issueCode_eq_runCode : issueCode = runCode := by
  funext c s
  unfold issueCode runCode decodeCode
  by_cases h : (codeContext c s).phase.widens = true ∧ c = allOnes s.codeWidth
  · simp only [if_pos h]; rfl
  · simp only [if_neg h]; exact exec_codeInstr _ _ _ _

/-- During a decode a step is one step of R173 to R175. -/
theorem step_running {s : State} (h : s.phase ≠ .idle) : step s = codeStep s := by
  unfold step codeStep
  rw [issueCode_eq_runCode]
  cases hp : s.phase <;> simp_all

/-- An unmatched word is refused, once, by the engine of its UNIT (R241). -/
theorem refuseUnmatched_cases (w : CmdWord) (s : State) :
    ∃ r, refuseUnmatched w s = .next (enterRefusal (engineOf w) r s) := by
  unfold refuseUnmatched unlessFaulted; split <;> exact ⟨_, rfl⟩

/-- All that the arrival of bytes can do (R212). -/
theorem arrive_cases (bytes : List Byte) (s : State) :
    (s.frFault ≠ none ∧ arrive bytes s = .next (enterRefusal .fr .engineFaulted s)) ∨
    (s.frFault = none ∧ s.params.bufMax.allows (s.frbuf.length + bytes.length) = false ∧
      arrive bytes s = .next (enterFault .fr .capacityExceeded 6 s)) ∨
    (s.frFault = none ∧ s.params.bufMax.allows (s.frbuf.length + bytes.length) = true ∧
      arrive bytes s =
        .next { s with frbuf := s.frbuf ++ bytes, response := some ⟨.ok, 0, .nothing⟩ }) := by
  unfold arrive
  by_cases h : s.frFault = none
  · rw [unlessFaulted_of_none (by exact h)]
    cases hc : s.params.bufMax.allows (s.frbuf.length + bytes.length)
    · exact .inr (.inl ⟨h, rfl, by simp [raise]⟩)
    · exact .inr (.inr ⟨h, rfl, by simp [ok]⟩)
  · exact .inl ⟨h, unlessFaulted_of_fault (by exact h) _⟩

/-- A byte that does not occur has no first index (R14). -/
theorem firstIndex_eq_none {b : Byte} {l : List Byte} : firstIndex b l = none ↔ b ∉ l := by
  induction l with
  | nil => simp [firstIndex]
  | cons x l ih =>
    simp only [firstIndex, List.mem_cons]
    split
    · rename_i h; simp [h]
    · rename_i h
      rw [Option.map_eq_none_iff, ih, not_or]
      exact ⟨fun h1 => ⟨fun h2 => h h2.symm, h1⟩, fun h1 => h1.2⟩

/-- A first index splits the sequence at the byte's first occurrence (R14). -/
theorem firstIndex_eq_some {b : Byte} {l : List Byte} {j : Nat} (h : firstIndex b l = some j) :
    l = l.take j ++ b :: l.drop (j + 1) ∧ b ∉ l.take j := by
  induction l generalizing j with
  | nil => simp [firstIndex] at h
  | cons x l ih =>
    simp only [firstIndex] at h
    split at h
    · rename_i hx; cases h; simp [hx]
    · rename_i hx
      obtain ⟨i, hi, rfl⟩ := Option.map_eq_some_iff.1 h
      obtain ⟨h1, h2⟩ := ih hi
      refine ⟨by simpa using h1, ?_⟩
      simp only [List.take_succ_cons, List.mem_cons, not_or]
      exact ⟨fun h => hx h.symm, h2⟩

end Sys2Proof.Machine
end

