-- ==== Sys2Proof/Tests/Slice0.lean ====
section
/-! SUPPORT. Tests: ill-formed terms the check refuses, words written out from the encodings of 30_encoding.md, single steps of the vectors of 95_test_vectors.md, and for each obligation with hypotheses a state and operands that meet them. Expected results are the spec's. -/

namespace Sys2Proof.Tests

open Sys2Proof Sys2Proof.Machine

/-! ### Small states -/

/-- A field of the next state, `none` if the machine stops. -/
def look {α : Type} (o : StepOutcome) (f : State → α) : Option α :=
  match o with
  | .next t => some (f t)
  | .fault _ => none
  | .refused _ => none

/-- The response of the next state. -/
def answer (o : StepOutcome) : Option Response :=
  match o with
  | .next t => t.response
  | .fault _ => none
  | .refused _ => none

/-- A reader over some bytes, its cursor at a bit. -/
def loaded (bs : List Byte) (pos : Nat) : State :=
  { State.reset with input := bytesFrom 0 bs, inLen := bs.length, bitpos := pos, brValid := true }

/-- A valid table with some derived entries. -/
def tabled (mcs cts : Nat) (derived : Dict) : State :=
  { State.reset with
    dict := freshDict mcs cts ++ derived, maxKey := eoiKey mcs + derived.length
    mcs := mcs, cts := cts, ctValid := true }

/-- A decode in progress at width 3 over a table of `mcs = 2`. -/
def decoding (ph : Phase) (cts : Nat) (bs : List Byte) (pos cur : Nat) (derived : Dict) : State :=
  { tabled 2 cts derived with
    input := bytesFrom 0 bs, inLen := bs.length, bitpos := pos, brValid := true
    codeWidth := 3, cur := cur, phase := ph }

/-- A buffer of the FR engine. -/
def buffered (bs : List Byte) : State := { State.reset with frbuf := bs }

/-- The LZW engine faulted. -/
def lzwDown : State := { State.reset with lzwFault := some ⟨.decodeProtocolViolation, 0x01000000⟩ }

/-- The FR engine faulted. -/
def frDown : State := { State.reset with frFault := some ⟨.noFrameAvailable, 0⟩ }

/-- The host's next inputs. -/
def withHost (h : List HostInput) (s : State) : State := { s with host := h }

/-- A state on a block with other parameters. -/
def withParams (p : Params) (s : State) : State := { s with params := p }

/-- The suggested parameters. -/
abbrev suggested : Params := Params.suggested

/-! ### Ill-formed terms -/

theorem test_wf_read_width_field : Instr.wf (.brRead 256) = false := by decide
theorem test_wf_init_mcs_field : Instr.wf (.ctInit 256 0) = false := by decide
theorem test_wf_init_cts_field : Instr.wf (.ctInit 0 65536) = false := by decide
theorem test_wf_lookup_code_field : Instr.wf (.ctLookup 0x1000000) = false := by decide
theorem test_wf_has_code_field : Instr.wf (.ctHas 0x1000000) = false := by decide
theorem test_wf_decode_mcs_field : Instr.wf (.lzwDecode 256 0 []) = false := by decide
theorem test_wf_decode_cts_field : Instr.wf (.lzwDecode 0 65536 []) = false := by decide
theorem test_wf_widen_range : Instr.wf (.cwWiden .absent 8 3) = false := by decide
theorem test_wf_widen_all_ones : Instr.wf (.cwWiden .absent 6 3) = false := by decide
theorem test_wf_widen_class : Instr.wf (.cwWiden .clear 7 3) = false := by decide
theorem test_wf_clear_range : Instr.wf (.cwClear 8 3) = false := by decide
theorem test_wf_clear_value : Instr.wf (.cwClear 5 3) = false := by decide
theorem test_wf_eoi_range : Instr.wf (.cwEoi 9 3) = false := by decide
theorem test_wf_eoi_value : Instr.wf (.cwEoi 4 3) = false := by decide
theorem test_wf_eoi_all_ones : Instr.wf (.cwEoi 3 2) = false := by decide
theorem test_wf_present_range : Instr.wf (.cwPresent 8 3) = false := by decide
theorem test_wf_absent_width : Instr.wf (.cwAbsent 0 0) = false := by decide
theorem test_wf_data_start : Instr.wf (.bData 0x01#8) = false := by decide
theorem test_wf_data_end : Instr.wf (.bData 0x02#8) = false := by decide

/-! ### Words written out bit by bit

Command words as UNIT (4 bits), FUNC (4 bits), ARG (24 bits) of R100 to R102; code words as their bits in stream order (R90, R91); bytes of R97. -/

theorem test_word_br_load :
    decodeCommand (0b0000#4 ++ 0b0000#4 ++ 0b000000000000000000000000#24) (.bytes [0x8C#8])
      = .ok (.brLoad [0x8C#8]) := by decide
theorem test_word_br_read :
    decodeCommand (0b0000#4 ++ 0b0001#4 ++ 0b0000000000000000#16 ++ 0b00010001#8) (.bytes [])
      = .ok (.brRead 17) := by decide
theorem test_word_ct_init :
    decodeCommand (0b0001#4 ++ 0b0000#4 ++ 0b0000000100000000#16 ++ 0b00001000#8) (.bytes [])
      = .ok (.ctInit 8 256) := by decide
theorem test_word_ct_lookup :
    decodeCommand (0b0001#4 ++ 0b0001#4 ++ 0b100000000000000000000110#24) (.bytes [])
      = .ok (.ctLookup 0x800006) := by decide
theorem test_word_ct_has :
    decodeCommand (0b0001#4 ++ 0b0010#4 ++ 0b000000000000000000000111#24) (.bytes [])
      = .ok (.ctHas 7) := by decide
theorem test_word_ct_insert :
    decodeCommand (0b0001#4 ++ 0b0011#4 ++ 0b000000000000000000000000#24) (.symbols [0x8000#16, 3#16])
      = .ok (.ctInsert [0x8000#16, 3#16]) := by decide
theorem test_word_lzw_decode :
    decodeCommand (0b0010#4 ++ 0b0000#4 ++ 0b0000000000000001#16 ++ 0b00000010#8) (.bytes [0x04#8, 0x0A#8])
      = .ok (.lzwDecode 2 1 [0x04#8, 0x0A#8]) := by decide
theorem test_word_fr_append :
    decodeCommand (0b0011#4 ++ 0b0000#4 ++ 0b000000000000000000000000#24) (.bytes [0x05#8])
      = .ok (.frAppend [0x05#8]) := by decide
theorem test_word_fr_hasfg :
    decodeCommand (0b0011#4 ++ 0b0001#4 ++ 0b000000000000000000000000#24) (.bytes []) = .ok .frHasfg := by
  decide
theorem test_word_fr_swg :
    decodeCommand (0b0011#4 ++ 0b0010#4 ++ 0b000000000000000000000000#24) (.bytes []) = .ok .frSwg := by
  decide
theorem test_word_fr_takeg :
    decodeCommand (0b0011#4 ++ 0b0011#4 ++ 0b000000000000000000000000#24) (.bytes []) = .ok .frTakeg := by
  decide
theorem test_word_fr_takef :
    decodeCommand (0b0011#4 ++ 0b0100#4 ++ 0b000000000000000000000000#24) (.bytes []) = .ok .frTakef := by
  decide
theorem test_word_fr_clear :
    decodeCommand (0b0011#4 ++ 0b0101#4 ++ 0b000000000000000000000000#24) (.bytes []) = .ok .frClear := by
  decide
theorem test_word_cw_widen :
    (Encoded.code [true, true, true]).decode ⟨.loop, 2, false⟩ = .ok (.cwWiden .absent 7 3) := by decide
theorem test_word_cw_clear :
    (Encoded.code [false, false, true]).decode ⟨.loop, 2, true⟩ = .ok (.cwClear 4 3) := by decide
theorem test_word_cw_eoi :
    (Encoded.code [true, false, true]).decode ⟨.loop, 2, true⟩ = .ok (.cwEoi 5 3) := by decide
theorem test_word_cw_present :
    (Encoded.code [false, true, false]).decode ⟨.loop, 2, true⟩ = .ok (.cwPresent 2 3) := by decide
theorem test_word_cw_absent :
    (Encoded.code [false, true, true]).decode ⟨.loop, 2, false⟩ = .ok (.cwAbsent 6 3) := by decide
theorem test_word_b_start : decodeFrameByte 0b00000001#8 = .bStart := by decide
theorem test_word_b_end : decodeFrameByte 0b00000010#8 = .bEnd := by decide
theorem test_word_b_data : decodeFrameByte 0b10101010#8 = .bData 0xAA#8 := by decide
/-- In phase EXPECT_CLEAR nothing is widened, and End-of-Information is no class before LOOP (R94, V-LZW-16, V-LZW-11). -/
theorem test_word_phases :
    (Encoded.code [true]).decode ⟨.expectClear, 0, true⟩ = .ok (.cwClear 1 1) ∧
    (Encoded.code [true, false, true]).decode ⟨.first, 2, true⟩ = .ok (.cwPresent 5 3) := by decide
/-- V-CMD-01 to V-CMD-08: words that match no row. -/
theorem test_word_rejected :
    [0x01000103#32, 0x00000001#32, 0x13000001#32, 0x31000001#32, 0xF0000000#32, 0x14000000#32,
      0x21000000#32, 0x36000000#32].all (fun w => (decodeCommand w (.bytes [])).toOption.isNone) = true := by
  decide
/-- The stream of V-LZW-02 packs to its bytes (R113). -/
theorem test_pack : packCodes [(4, 3), (1, 3), (6, 3), (7, 3), (5, 4)] = [0x8C#8, 0x5F#8] := by decide
/-- Table words as the table numbers their bits. -/
theorem test_table_words :
    decodeTableWord 32 0x01000003 = some (.brRead 3) ∧ decodeTableWord 8 0x02 = some .bEnd ∧
    decodeTableWord 16 4 = some (.cwClear 4 16) ∧ decodeTableWord 16 0xFFFF = some (.cwWiden .absent 0xFFFF 16) ∧
    decodeTableWord 32 0x36000000 = none := by decide
/-- The next step runs the placed word. -/
theorem test_fetch_word :
    answer (step (State.reset.withFetchWord 32 0x01000003)) = some ⟨.refused .notReady, 0, .nothing⟩ ∧
    look (step (State.reset.withFetchWord 8 0x02)) State.frbuf = some [0x02#8] ∧
    look (step (State.reset.withFetchWord 16 2)) State.out = some [.idx 2] ∧
    (State.withFetchWord { State.reset with cur := 7 } 16 2).cur = 0 := by decide

/-! ### One step of each instruction -/

/-- P1. -/
theorem test_br_load :
    look (exec (.brLoad [0x8C#8, 0x5F#8]) State.reset) (fun t => (t.brValid, t.inLen, readIn t 1))
      = some (true, 2, some 0x5F#8) := by decide
/-- V-BR-07. -/
theorem test_br_read_two_bytes :
    answer (exec (.brRead 16) (loaded [0x34#8, 0x12#8] 0)) = some ⟨.ok, 0, .number 0x1234⟩ := by decide
/-- V-BR-06. -/
theorem test_br_read_past_end :
    look (exec (.brRead 4) (loaded [0xA5#8] 5)) (fun t => (t.lzwFault, t.bitpos))
      = some (some ⟨.truncatedInput, 5⟩, 5) := by decide
/-- V-CT-07. -/
theorem test_ct_init :
    look (exec (.ctInit 3 4) State.reset)
        (fun t => (t.maxKey, (List.range 12).map fun k => (readDict t k).isSome))
      = some (9, [true, true, true, true, false, false, false, false, true, true, false, false]) := by decide
/-- V-CT-09. -/
theorem test_ct_init_refused :
    answer (exec (.ctInit 2 5) State.reset) = some ⟨.refused .badConfig, 0, .nothing⟩ := by decide
/-- V-CT-01. -/
theorem test_ct_lookup :
    answer (exec (.ctLookup 4) (tabled 2 4 [])) = some ⟨.ok, 0, .symbols [.mclr]⟩ := by decide
/-- V-CT-06. -/
theorem test_ct_lookup_absent :
    answer (exec (.ctLookup 6) (tabled 2 4 []))
      = some ⟨.fault .decodeProtocolViolation, 0x02000006, .nothing⟩ := by decide
/-- V-CT-08. -/
theorem test_ct_has :
    answer (exec (.ctHas 5) (tabled 3 4 [(10, [.idx 0, .idx 1])])) = some ⟨.ok, 0, .bit false⟩ := by decide
/-- V-CT-03. -/
theorem test_ct_insert :
    look (exec (.ctInsert [1#16, 2#16]) (tabled 2 4 [])) (fun t => (t.maxKey, readDict t 6))
      = some (6, some [.idx 1, .idx 2]) := by decide
/-- V-CT-15. -/
theorem test_ct_insert_unassigned :
    answer (exec (.ctInsert [0x8002#16]) (tabled 2 4 [])) = some ⟨.refused .badConfig, 0, .nothing⟩ := by
  decide
/-- V-LZW-08. -/
theorem test_lzw_decode :
    answer (exec (.lzwDecode 2 4 [0x8C#8, 0xB8#8, 0x02#8]) State.reset)
      = some ⟨.ok, 0, .symbols [.idx 1, .idx 2, .mclr, .idx 3]⟩ := by decide +kernel
/-- V-LZW-13. -/
theorem test_lzw_decode_no_end :
    answer (exec (.lzwDecode 2 4 [0x8C#8, 0x00#8]) State.reset)
      = some ⟨.fault .truncatedInput, 15, .nothing⟩ := by decide +kernel
/-- V-LZW-07: the code `7:3`. -/
theorem test_cw_widen :
    look (step (decoding .loop 4 [0xCC#8, 0xA3#8, 0x00#8] 6 1 []))
        (fun t => (t.codeWidth, t.out, readDict t 6, readDict t 7))
      = some (4, [.idx 1, .idx 1], some [.idx 1, .idx 1], none) := by decide
/-- V-LZW-25: no wider than CW_MAX. -/
theorem test_cw_widen_capacity :
    answer (step (withParams { suggested with cwMax := .atMost 3 } (decoding .loop 4 [0xCC#8, 0xA3#8, 0x00#8] 6 1 [])))
      = some ⟨.fault .capacityExceeded, 2, .nothing⟩ := by decide
/-- V-LZW-08: the code `4:3` in mid-stream. -/
theorem test_cw_clear :
    look (step (decoding .loop 4 [0x8C#8, 0xB8#8, 0x02#8] 9 2 [(6, [.idx 1, .idx 2])]))
        (fun t => (t.maxKey, t.out, readDict t 6))
      = some (6, [.mclr], some [.idx 2, .mclr]) := by decide
/-- V-LZW-09: the code `4:3` after a derived code. -/
theorem test_cw_clear_after_derived :
    answer (step (decoding .loop 4 [0x4C#8, 0xCC#8, 0x02#8] 12 6 [(6, [.idx 1, .idx 1]), (7, [.idx 1, .idx 1, .idx 1])]))
      = some ⟨.fault .decodeProtocolViolation, 0x02000006, .nothing⟩ := by decide
/-- V-LZW-18: the code `5:3` in LOOP. -/
theorem test_cw_eoi :
    look (step (decoding .loop 2 [0x8C#8, 0x0A#8] 9 2 [(6, [.idx 1, .idx 1])]))
        (fun t => (t.bitpos, t.phase, t.response))
      = some (12, .idle, some ⟨.ok, 0, .symbols []⟩) := by decide
/-- V-LZW-11: the code `5:3` in FIRST. -/
theorem test_cw_eoi_in_first :
    look (step (decoding .first 4 [0x6C#8, 0x0A#8] 3 4 [])) (fun t => (t.out, t.phase))
      = some ([.meoi], .loop) := by decide
/-- V-LZW-03: the code `6:3`. -/
theorem test_cw_present :
    look (step (decoding .loop 4 [0x8C#8, 0xBC#8, 0x03#8] 9 2 [(6, [.idx 1, .idx 2])]))
        (fun t => (t.out, readDict t 7))
      = some ([.idx 1, .idx 2], some [.idx 2, .idx 1]) := by decide
/-- V-LZW-05: the code `0:3` after a hole. -/
theorem test_cw_present_after_hole :
    answer (step (decoding .loop 2 [0x8C#8, 0x50#8] 9 2 [(6, [.idx 1, .idx 1])]))
      = some ⟨.fault .decodeProtocolViolation, 0x02000002, .nothing⟩ := by decide
/-- V-LZW-02: the code `6:3`. -/
theorem test_cw_absent :
    look (step (decoding .loop 4 [0x8C#8, 0x5F#8] 6 1 [])) (fun t => (t.out, readDict t 6))
      = some ([.idx 1, .idx 1], some [.idx 1, .idx 1]) := by decide
/-- V-LZW-14: the code `6:3` in FIRST. -/
theorem test_cw_absent_in_first :
    answer (step (decoding .first 4 [0x74#8, 0x01#8] 3 4 []))
      = some ⟨.fault .decodeProtocolViolation, 0x02000006, .nothing⟩ := by decide
/-- P3. -/
theorem test_fr_append :
    look (exec (.frAppend [0x02#8, 0x01#8, 0xBB#8]) (buffered [0x01#8, 0xAA#8])) State.frbuf
      = some [0x01#8, 0xAA#8, 0x02#8, 0x01#8, 0xBB#8] := by decide
/-- V-FR-17. -/
theorem test_fr_append_capacity :
    look (exec (.frAppend [0x04#8, 0x05#8])
          (withParams { suggested with bufMax := .atMost 4 } (buffered [0x01#8, 0x02#8, 0x03#8])))
        (fun t => (t.frFault, t.frbuf))
      = some (some ⟨.capacityExceeded, 6⟩, [0x01#8, 0x02#8, 0x03#8]) := by decide
/-- V-FR-03, V-FR-08. -/
theorem test_fr_hasfg :
    answer (exec .frHasfg (buffered [0x02#8])) = some ⟨.ok, 0, .bit true⟩ ∧
    answer (exec .frHasfg (buffered [0x01#8, 0xAA#8])) = some ⟨.ok, 0, .bit false⟩ := by decide
/-- V-FR-05, V-FR-06. -/
theorem test_fr_swg :
    answer (exec .frSwg (buffered [0x05#8, 0x02#8, 0x01#8, 0x03#8, 0x02#8])) = some ⟨.ok, 0, .bit true⟩ ∧
    answer (exec .frSwg (buffered [0x01#8, 0x01#8, 0x02#8])) = some ⟨.ok, 0, .bit false⟩ := by decide
/-- V-SRC-5. -/
theorem test_fr_takeg :
    look (exec .frTakeg (buffered [0x05#8, 0x01#8, 0xAA#8])) (fun t => (t.response, t.frbuf))
      = some (some ⟨.ok, 0, .bytes [0x05#8]⟩, [0x01#8, 0xAA#8]) := by decide
/-- V-FR-15. -/
theorem test_fr_takeg_nothing :
    look (exec .frTakeg (buffered [0x01#8, 0x07#8])) (fun t => (t.response, t.frbuf))
      = some (some ⟨.ok, 0, .bytes []⟩, [0x01#8, 0x07#8]) := by decide
/-- V-FR-12. -/
theorem test_fr_takef :
    look (exec .frTakef (buffered [0x05#8, 0x02#8, 0x01#8, 0x03#8, 0x02#8])) (fun t => (t.response, t.frbuf))
      = some (some ⟨.ok, 0, .bytes [0x05#8, 0x02#8]⟩, [0x01#8, 0x03#8, 0x02#8]) := by decide
/-- V-FR-13. -/
theorem test_fr_takef_none :
    look (exec .frTakef (buffered [0x01#8, 0x07#8])) (fun t => (t.frFault, t.frbuf))
      = some (some ⟨.noFrameAvailable, 2⟩, [0x01#8, 0x07#8]) := by decide
/-- V-FR-18. -/
theorem test_fr_clear :
    look (exec .frClear (buffered [0x01#8, 0xAA#8, 0x02#8, 0x01#8])) State.frbuf = some [] := by decide
/-- V-FR-13: on a faulted engine. -/
theorem test_fr_clear_refused :
    look (exec .frClear { frDown with frbuf := [0x01#8] }) (fun t => (t.frbuf, t.frRefused))
      = some ([0x01#8], true) := by decide
/-- V-FR-02, V-FR-03, V-FR-01 with one byte (R97). -/
theorem test_frame_bytes :
    look (exec .bStart State.reset) (fun t => (t.frbuf, (statusOutputs t).frHfg)) = some ([0x01#8], false) ∧
    look (exec .bEnd (buffered [0x01#8])) (fun t => (t.frbuf, (statusOutputs t).frHfg))
      = some ([0x01#8, 0x02#8], true) ∧
    look (exec (.bData 0x09#8) State.reset) (fun t => (t.frbuf, (statusOutputs t).frSwg))
      = some ([0x09#8], true) := by decide
/-- V-CMD-04, V-CMD-05: the refused flag of the word's engine. -/
theorem test_bad_command :
    look (issueCommand 0x31000001#32 (.bytes []) State.reset) (fun t => (t.lzwRefused, t.frRefused))
      = some (false, true) ∧
    look (issueCommand 0xF0000000#32 (.bytes []) State.reset) (fun t => (t.lzwRefused, t.frRefused))
      = some (true, false) := by decide
/-- V-CMD-09, V-CMD-10: the order of the checks. -/
theorem test_check_order :
    answer (issueCommand 0x36000000#32 (.bytes []) frDown) = some ⟨.refused .engineFaulted, 0, .nothing⟩ ∧
    answer (issueCommand 0x01000011#32 (.bytes []) State.reset) = some ⟨.refused .notReady, 0, .nothing⟩ ∧
    answer (issueCommand 0x01000011#32 (.bytes []) (loaded [0x12#8] 0)) = some ⟨.refused .badConfig, 0, .nothing⟩ := by
  decide
/-- P4: status outputs of two faults, and reset. -/
theorem test_reset_recovers :
    (statusOutputs { lzwDown with frFault := some ⟨.noFrameAvailable, 0⟩ }).lzwFaultKind = 0x03#8 ∧
    (statusOutputs { lzwDown with frFault := some ⟨.noFrameAvailable, 0⟩ }).frFaultKind = 0x05#8 ∧
    look (step (withHost [.rst .block] { lzwDown with lzwRefused := true }))
      (fun t => (t.lzwFault, t.lzwRefused)) = some (none, false) := by decide


/-- P2: two sub-blocks behind the `mcs` byte of an image, and a byte behind its end (R245). -/
theorem test_image :
    (lzwImage 4 [0x02#8, 0x02#8, 0x8C#8, 0x5F#8, 0x03#8, 0x8C#8, 0xB8#8, 0x02#8, 0x00#8, 0x3B#8] State.reset).map
        (fun r => (r.decoded, r.rest, r.ending))
      = some ([List.replicate 6 (.idx 1), [.idx 1, .idx 2, .mclr, .idx 3]], [0x3B#8], .complete) := by decide +kernel
/-- R245, V-LZW-12: a fault aborts the parse. -/
theorem test_image_aborted :
    (lzwImage 4 [0x02#8, 0x02#8, 0x48#8, 0x01#8, 0x00#8] State.reset).map (fun r => (r.decoded, r.ending))
      = some ([], .aborted ⟨.fault .decodeProtocolViolation, 0x01000000, .nothing⟩) := by decide +kernel

/-! ### Witnesses: the hypotheses of the obligations, clause by clause -/

/-- The invariant of a state that is idle and holds no input, no output and no response. -/
theorem tabled_inv : (tabled 2 4 [(6, [.idx 1])]).Inv :=
  ⟨by decide, by decide, by decide, by decide, by decide, by decide, by decide, by decide, fun _ h => by cases h⟩

/-- The invariant of a decode in phase LOOP. -/
theorem decoding_inv : (decoding .loop 4 [0x8C#8, 0x5F#8] 6 1 []).Inv :=
  ⟨by decide, by decide, by decide, by decide, by decide, by decide, by decide, by decide, fun _ h => by cases h⟩

/-- Both engines faulted, both refused flags set. -/
def bothDown : State :=
  { lzwDown with
    frFault := some ⟨.noFrameAvailable, 0⟩, lzwRefused := true, frRefused := true
    response := some ⟨.refused .engineFaulted, 0, .nothing⟩ }

theorem bothDown_inv : bothDown.Inv :=
  ⟨by decide, by decide, by decide, by decide, by decide, by decide, by decide, by decide, fun _ h => by
    cases h; simp [statusProduced, resultFits]⟩

theorem witness_DecodeOfEncodeIsTheInstruction :
    [Instr.brRead 255, .ctInit 255 65535, .ctLookup 0xFFFFFF, .ctHas 0xFFFFFF, .lzwDecode 255 65535 [0xFF#8],
      .cwWiden .absent 7 3, .cwClear 4 3, .cwAbsent 6 3, .bData 0xFF#8].all
        (fun i => i.wf && i.fits ⟨.loop, 2, false⟩) = true ∧
    [Instr.cwEoi 5 3, .cwPresent 2 3, .cwClear 4 3].all (fun i => i.wf && i.fits ⟨.loop, 2, true⟩) = true := by
  decide

theorem witness_CommandWordsFollowTheOpcodeMap :
    decodeCommand 0x010000FF#32 (.bytes []) = .ok (.brRead 255) ∧
    decodeCommand 0x01000100#32 (.bytes []) = .error .argNotZero := by decide

theorem witness_SymbolWordsNameSymbolsOneToOne :
    symbolFits (.idx 0x7FFF) = true ∧ symbolOfWord 0x8001#16 = some .meoi ∧ symbolOfWord 0x8002#16 = none ∧
    symbolOfWord 0xFFFF#16 = none := by decide

theorem witness_PackedCodeStreamSpellsItsCodeWords :
    7 < 2 ^ 3 ∧ (loaded [0x8C#8, 0x5F#8] 0).input
      = bytesFrom 0 (packCodes ([(4, 3), (1, 3), (6, 3)] ++ (7, 3) :: [(5, 4)])) := by decide

theorem witness_ResponsesCarryTheStatusNumbers :
    bothDown.Inv ∧ bothDown.response = some ⟨.refused .engineFaulted, 0, .nothing⟩ := ⟨bothDown_inv, rfl⟩

/-- In phase LOOP at width 3, the fetch of a code word behind it. -/
def inLoop (cts prev : Nat) (derived : Dict) : State :=
  { decoding .loop cts [0x8C#8, 0x5F#8] 9 prev derived with prev := prev }

/-- In phase FIRST at width 3. -/
def inFirst (cts : Nat) : State := decoding .first cts [0x8C#8, 0x5F#8] 6 4 []

/-- The smallest capacities that still take `mcs = 2`, `cts = 4` and one byte. -/
def tight : Params :=
  { cwMax := .atMost 3, rwMax := .atMost 3, ctsMax := .atMost 4, inMax := .atMost 1, keyMax := .atMost 5,
    seqMax := .atMost 1, outMax := .atMost 0, bufMax := .atMost 1, splitReset := true }

theorem witness_FaultEntryRecordsTheFault :
    (loaded [0xA5#8] 5).lzwFault = none ∧
    look (exec (.brRead 4) (loaded [0xA5#8] 5)) State.lzwFault = some (some ⟨.truncatedInput, 5⟩) ∧
    (inLoop 4 6 []).lzwFault = none ∧
    look (exec (.cwPresent 0 3) (inLoop 4 6 [])) State.lzwFault
      = some (some ⟨.decodeProtocolViolation, 0x02000006⟩) ∧
    (buffered []).frFault = none ∧
    look (exec .frTakef (buffered [])) State.frFault = some (some ⟨.noFrameAvailable, 0⟩) := by decide

theorem witness_RefusalsChangeOnlyTheRefusedFlag :
    engineOfInstr (.brRead 3) = .lzw ∧ isCodeWord (.brRead 3) = false ∧
    answer (exec (.brRead 3) State.reset) = some ⟨.refused .notReady, 0, .nothing⟩ ∧
    engineOfInstr .bStart = .fr ∧ isCodeWord .bStart = false ∧
    answer (exec .bStart frDown) = some ⟨.refused .engineFaulted, 0, .nothing⟩ := by decide

theorem witness_FaultedEngineRefusesEveryOperation :
    isCodeWord (.ctHas 0) = false ∧ engineOfInstr (.ctHas 0) = .lzw ∧ lzwDown.lzwFault ≠ none ∧
    isCodeWord .bEnd = false ∧ engineOfInstr .bEnd = .fr ∧ frDown.frFault ≠ none := by decide

theorem witness_UnassignedCommandsAreRefused :
    (withHost [.command 0x36000000#32 (.bytes [])] frDown).phase = .idle ∧
    (withHost [.command 0x36000000#32 (.bytes [])] frDown).host = .command 0x36000000#32 (.bytes []) :: [] ∧
    (∀ r ∈ opcodeMap, r.selects 0x36000000#32 = false) ∧ (0x36000000#32 : CmdWord).extractLsb' 28 4 = 3#4 ∧
    (∀ r ∈ opcodeMap, r.selects 0x40000000#32 = false) ∧ (0x40000000#32 : CmdWord).extractLsb' 28 4 ≠ 3#4 ∧
    (∀ r ∈ opcodeMap, r.selects 0x01000100#32 = false) ∧ (∀ r ∈ opcodeMap, r.selects 0xF0000000#32 = false) := by
  decide

theorem witness_FaultsAndRefusedFlagsStayUntilReset :
    bothDown.Inv ∧ step bothDown = .next bothDown ∧
    (∀ target rest, bothDown.phase = .idle → bothDown.host ≠ .rst target :: rest) ∧
    bothDown.lzwFault = some ⟨.decodeProtocolViolation, 0x01000000⟩ ∧ bothDown.frFault = some ⟨.noFrameAvailable, 0⟩ ∧
    bothDown.lzwRefused = true ∧ bothDown.frRefused = true :=
  ⟨bothDown_inv, rfl, fun _ _ _ h => (by cases h), rfl, rfl, rfl, rfl⟩

theorem witness_ResetLeavesTheValuesOfR50 :
    (withHost [.rst .block] bothDown).phase = .idle ∧ (withHost [.rst .block] bothDown).host = .rst .block :: [] := by
  decide

theorem witness_StepRunsTheDecodedInput :
    (withHost [.command 0x010000FF#32 (.bytes [])] State.reset).phase = .idle ∧
    (withHost [.command 0x010000FF#32 (.bytes [])] State.reset).host = .command 0x010000FF#32 (.bytes []) :: [] ∧
    decodeCommand 0x010000FF#32 (.bytes []) = .ok (.brRead 255) ∧
    (withHost [.frameByte 0x02#8] State.reset).host = .frameByte 0x02#8 :: [] ∧ State.reset.host = [] := by decide

/-- The word `6:3` of V-LZW-02 is there. -/
theorem codeAt_absent : CodeAt (decoding .loop 4 [0x8C#8, 0x5F#8] 6 1 []) 6 :=
  ⟨by decide, readBits_spec.1 (by decide)⟩

theorem witness_StepRunsTheFetchedCodeWord :
    (decoding .loop 4 [0x8C#8, 0x5F#8] 6 1 []).phase ≠ .idle ∧
    CodeAt (decoding .loop 4 [0x8C#8, 0x5F#8] 6 1 []) 6 ∧
    (decoding .first 4 [0x8C#8, 0x5F#8] 13 1 []).phase ≠ .idle ∧
    CodeAt (decoding .first 4 [0x8C#8, 0x5F#8] 13 1 []) 2 :=
  ⟨by decide, codeAt_absent, by decide, by decide, readBits_spec.1 (by decide)⟩

theorem witness_StepKeepsParametersAndHostOrder :
    look (step (withHost [.frameByte 0x09#8, .rst .block] State.reset)) State.host = some [.rst .block] := by decide

theorem witness_BrLoadConstructsTheReader :
    lzwDown.lzwFault ≠ none ∧ State.reset.lzwFault = none ∧
    State.reset.params.inMax.allows (List.replicate 256 0#8).length = false ∧
    State.reset.params.inMax.allows (List.replicate 255 0#8).length = true := by decide +kernel

theorem witness_BrReadReturnsTheBitsAtTheCursor :
    (loaded [0x34#8, 0x12#8] 0).lzwFault = none ∧ (loaded [0x34#8, 0x12#8] 0).brValid = true ∧
    (loaded [0x34#8, 0x12#8] 0).InputOk ∧ (loaded [0x34#8, 0x12#8] 0).params.rwMax.allows 16 = true ∧
    (loaded [0x34#8, 0x12#8] 0).bitpos + 16 ≤ 8 * (loaded [0x34#8, 0x12#8] 0).inLen := by decide

theorem witness_BrReadFaultsExactlyPastTheEnd :
    (loaded [0xA5#8] 5).lzwFault = none ∧ (loaded [0xA5#8] 5).brValid = true ∧ (loaded [0xA5#8] 5).InputOk ∧
    (loaded [0xA5#8] 5).params.rwMax.allows 4 = true ∧
    8 * (loaded [0xA5#8] 5).inLen < (loaded [0xA5#8] 5).bitpos + 4 ∧
    (loaded [0xA5#8] 5).bitpos + 3 = 8 * (loaded [0xA5#8] 5).inLen := by decide

theorem witness_BrReadOfWidthZeroChangesNothing :
    (loaded [] 0).lzwFault = none ∧ (loaded [] 0).brValid = true ∧ (loaded [] 0).bitpos ≤ 8 * (loaded [] 0).inLen ∧
    (loaded [0xFF#8] 8).bitpos ≤ 8 * (loaded [0xFF#8] 8).inLen := by decide

theorem witness_BrReadsCompose :
    (loaded [0x34#8, 0x12#8] 0).lzwFault = none ∧ (loaded [0x34#8, 0x12#8] 0).brValid = true ∧
    (loaded [0x34#8, 0x12#8] 0).InputOk ∧ (loaded [0x34#8, 0x12#8] 0).params.rwMax.allows (4 + 12) = true ∧
    (loaded [0x34#8, 0x12#8] 0).bitpos + (4 + 12) ≤ 8 * (loaded [0x34#8, 0x12#8] 0).inLen := by decide

theorem witness_NotReadyComesBeforeBadConfig :
    State.reset.lzwFault = none ∧ State.reset.brValid = false ∧ State.reset.ctValid = false ∧
    (loaded [] 0).lzwFault = none ∧ (loaded [] 0).brValid = true ∧
    (loaded [] 0).params.rwMax.allows 17 = false := by decide

theorem witness_CtInitSeedsTheTable :
    lzwDown.lzwFault ≠ none ∧ State.reset.lzwFault = none ∧ legalConfig State.reset.params 2 5 = false ∧
    legalConfig State.reset.params 8 256 = true ∧ legalConfig State.reset.params 0 0 = true := by decide

theorem witness_IllegalConfigurationsAreRefused :
    State.reset.lzwFault = none ∧ suggested.cwMax.allows (16 + 1) = false ∧ suggested.ctsMax.allows 257 = false ∧
    tight.keyMax.allows (2 ^ 3 + 1) = false ∧ 2 ^ 2 < 5 ∧
    ¬ (suggested.cwMax.allows (8 + 1) = false ∨ suggested.ctsMax.allows 256 = false ∨
        suggested.keyMax.allows (2 ^ 8 + 1) = false ∨ 2 ^ 8 < 256) ∧
    ¬ (tight.cwMax.allows (2 + 1) = false ∨ tight.ctsMax.allows 4 = false ∨ tight.keyMax.allows (2 ^ 2 + 1) = false ∨
        2 ^ 2 < 4) := by decide

theorem witness_LiteralLookupAfterInit :
    State.reset.lzwFault = none ∧ legalConfig State.reset.params 2 4 = true ∧ 3 < 4 := by decide

theorem witness_CtLookupReturnsOrFaults :
    lzwDown.lzwFault ≠ none ∧ State.reset.lzwFault = none ∧ State.reset.ctValid = false ∧
    (tabled 2 4 []).lzwFault = none ∧ (tabled 2 4 []).ctValid = true ∧
    readDict (tabled 2 4 []) 5 = some [.meoi] ∧ readDict (tabled 2 4 []) 6 = none := by decide

theorem witness_CtHasAnswersThePresentSet :
    lzwDown.lzwFault ≠ none ∧ State.reset.lzwFault = none ∧ State.reset.ctValid = false ∧
    (tabled 2 4 [(6, [.idx 1])]).lzwFault = none ∧ (tabled 2 4 [(6, [.idx 1])]).ctValid = true ∧
    (tabled 2 4 [(6, [.idx 1])]).Inv :=
  ⟨by decide, rfl, rfl, rfl, rfl, tabled_inv⟩

theorem witness_CtInsertAddsTheNextKey :
    lzwDown.lzwFault ≠ none ∧ State.reset.lzwFault = none ∧ State.reset.ctValid = false ∧
    (tabled 2 4 []).lzwFault = none ∧ (tabled 2 4 []).ctValid = true ∧
    (∃ w ∈ [0x8002#16], 0x8002 ≤ w.toNat) ∧
    [0x8001#16, 0x7FFF#16].map symbolOfWord = [Symbol.meoi, .idx 0x7FFF].map some ∧
    tight.keyMax.allows ((tabled 2 4 []).maxKey + 1) = false ∧
    suggested.keyMax.allows ((tabled 2 4 []).maxKey + 1) = true ∧
    tight.seqMax.allows [0x8001#16, 0x7FFF#16].length = false ∧
    suggested.seqMax.allows [0x8001#16, 0x7FFF#16].length = true :=
  ⟨by decide, rfl, rfl, rfl, rfl, ⟨0x8002#16, by simp, by decide⟩, by decide, by decide, by decide, by decide, by decide⟩

theorem witness_InsertionKeysCountUpFromEoi :
    State.reset.lzwFault = none ∧ legalConfig State.reset.params 2 4 = true ∧
    (runOps (.ctInit 2 4 :: [[1#16, 2#16], []].map .ctInsert) State.reset).map
        (fun x => x.1.map Response.status) = some [.ok, .ok, .ok] ∧
    [[1#16, 2#16], []][1]? = some ([] : List SymWord) := by decide +kernel

theorem witness_SentinelsByValueAndByNumberAgree :
    (decoding .loop 4 [0x8C#8, 0x5F#8] 6 1 []).Inv ∧ (decoding .loop 4 [0x8C#8, 0x5F#8] 6 1 []).phase ≠ .idle :=
  ⟨decoding_inv, by decide⟩

theorem witness_FirstCodeWordMustBeClear :
    (decoding .expectClear 4 [0x8C#8] 3 0 []).phase = .expectClear ∧
    4 = 2 ^ (decoding .expectClear 4 [0x8C#8] 3 0 []).mcs ∧ 5 ≠ 2 ^ (decoding .expectClear 4 [0x8C#8] 3 0 []).mcs := by
  decide

theorem witness_FirstRealCodeIsAppended :
    (inFirst 4).phase = .first ∧ readDict (inFirst 4) 5 = some [.meoi] ∧
    (inFirst 4).params.outMax.allows ((inFirst 4).outLen + 1) = true ∧
    tight.outMax.allows ((inFirst 4).outLen + 1) = false ∧ readDict (inFirst 4) 6 = none := by decide

theorem witness_PresentCodeAppendsAndInserts :
    (inLoop 4 1 []).phase = .loop ∧ readDict (inLoop 4 1 []) 2 = some (.idx 2 :: []) ∧
    tight.outMax.allows ((inLoop 4 1 []).outLen + (0 + 1)) = false ∧
    suggested.outMax.allows ((inLoop 4 1 []).outLen + (0 + 1)) = true ∧
    readDict (inLoop 4 6 []) (inLoop 4 6 []).prev = none ∧
    readDict (inLoop 4 1 []) (inLoop 4 1 []).prev = some [.idx 1] ∧
    tight.keyMax.allows ((inLoop 4 1 []).maxKey + 1) = false ∧
    suggested.keyMax.allows ((inLoop 4 1 []).maxKey + 1) = true ∧
    tight.seqMax.allows ([Symbol.idx 1].length + 1) = false ∧
    suggested.seqMax.allows ([Symbol.idx 1].length + 1) = true := by decide

theorem witness_AbsentCodeRepeatsThePreviousSequence :
    (inLoop 2 1 []).phase = .loop ∧ readDict (inLoop 2 2 []) (inLoop 2 2 []).prev = none ∧
    readDict (inLoop 2 1 []) (inLoop 2 1 []).prev = some (.idx 1 :: []) ∧
    tight.outMax.allows ((inLoop 2 1 []).outLen + (0 + 2)) = false ∧
    suggested.outMax.allows ((inLoop 2 1 []).outLen + (0 + 2)) = true ∧
    tight.keyMax.allows ((inLoop 2 1 []).maxKey + 1) = false ∧
    suggested.keyMax.allows ((inLoop 2 1 []).maxKey + 1) = true ∧
    tight.seqMax.allows (0 + 2) = false ∧ suggested.seqMax.allows (0 + 2) = true := by decide

theorem witness_ClearCodeReinitializesAndFallsThrough :
    (inFirst 4).cts ≤ 2 ^ (inFirst 4).mcs ∧ (inFirst 4).params.outMax.allows ((inFirst 4).outLen + 1) = true ∧
    (inFirst 4).phase = .first ∧ (inLoop 4 2 []).cts ≤ 2 ^ (inLoop 4 2 []).mcs ∧
    (inLoop 4 2 []).params.outMax.allows ((inLoop 4 2 []).outLen + 1) = true ∧ (inLoop 4 2 []).phase = .loop ∧
    freshEntry 2 4 (inLoop 4 2 []).prev = some [.idx 2] ∧ suggested.keyMax.allows (2 ^ 2 + 2) = true ∧
    suggested.seqMax.allows 2 = true ∧ freshEntry 2 4 (inLoop 4 6 []).prev = none := by decide

theorem witness_EndOfInformationReturnsTheOutput : (inLoop 4 2 []).phase = .loop := by decide

theorem witness_AllOnesCodeWidensByOne :
    ((inFirst 4).phase = .first ∨ (inFirst 4).phase = .loop) ∧ ((inLoop 4 1 []).phase = .first ∨ (inLoop 4 1 []).phase = .loop) ∧
    suggested.cwMax.allows ((inLoop 4 1 []).codeWidth + 1) = true ∧
    tight.cwMax.allows ((inLoop 4 1 []).codeWidth + 1) = false ∧ 6 ≠ 2 ^ (inLoop 4 1 []).codeWidth - 1 := by decide

/-- The parameters without any capacity. -/
def boundless : Params :=
  { cwMax := .unbounded, rwMax := .unbounded, ctsMax := .atMost 256, inMax := .unbounded, keyMax := .unbounded,
    seqMax := .unbounded, outMax := .unbounded, bufMax := .unbounded, splitReset := false }

/-- V-LZW-16: at `mcs = 0` the Clear-Code is all ones. -/
def clearAllOnes : State :=
  { tabled 0 1 [(3, [.idx 0, .idx 0])] with params := boundless, codeWidth := 1, phase := .loop, prev := 0 }

theorem witness_WidenedCodeWordsComplete :
    (inLoop 4 1 []).phase = .loop ∧ (inLoop 4 1 []).params.cwMax.allows ((inLoop 4 1 []).codeWidth + 1) = true ∧
    boundless.cwMax.allows 4 = true ∧ boundless.outMax = .unbounded ∧ boundless.keyMax = .unbounded ∧
    boundless.seqMax = .unbounded ∧
    readDict (inLoop 4 1 [(6, [.idx 1, .idx 2]), (7, [.idx 2, .idx 1])]) (2 ^ 3 - 1) = some (.idx 2 :: [.idx 1]) ∧
    readDict (inLoop 4 1 []) (inLoop 4 1 []).prev = some (.idx 1 :: []) ∧
    clearAllOnes.phase = .loop ∧ clearAllOnes.params.cwMax.allows (clearAllOnes.codeWidth + 1) = true ∧
    2 ^ clearAllOnes.codeWidth - 1 = 2 ^ clearAllOnes.mcs ∧ clearAllOnes.cts ≤ 2 ^ clearAllOnes.mcs ∧
    clearAllOnes.prev < clearAllOnes.cts := by decide

theorem witness_CodeWidthGrowsOnlyOnAllOnes :
    (decoding .loop 4 [0xCC#8, 0xA3#8, 0x00#8] 6 1 []).phase ≠ .idle ∧
    look (step (decoding .loop 4 [0xCC#8, 0xA3#8, 0x00#8] 6 1 [])) (fun t => (t.lzwFault, t.codeWidth)) = some (none, 4) ∧
    look (step (decoding .loop 4 [0x8C#8, 0x5F#8] 6 1 [])) (fun t => (t.lzwFault, t.codeWidth)) = some (none, 3) ∧
    look (step (decoding .loop 2 [0x8C#8, 0x0A#8] 9 2 [(6, [.idx 1, .idx 1])])) (fun t => (t.lzwFault, t.phase))
      = some (none, .idle) := by decide

theorem witness_FetchPastTheEndFaults :
    (decoding .first 4 [0x2C#8] 6 4 []).phase ≠ .idle ∧
    8 * (decoding .first 4 [0x2C#8] 6 4 []).inLen
      < (decoding .first 4 [0x2C#8] 6 4 []).bitpos + (decoding .first 4 [0x2C#8] 6 4 []).codeWidth := by decide

/-- V-LZW-06 on a block without capacities: the code `3:3`, a hole. -/
def hole : State := { decoding .loop 2 [0xCC#8, 0x56#8] 6 1 [] with params := boundless }

theorem hole_inv : hole.Inv :=
  ⟨by decide, by decide, by decide, by decide, by decide, by decide, by decide, by decide, fun _ h => by cases h⟩

/-- The state after the hole. -/
def afterHole : State :=
  { hole with
    bitpos := 9, prev := 1, cur := 3, out := [.idx 1, .idx 1], outLen := 2, maxKey := 6
    dict := freshDict 2 2 ++ [(6, [.idx 1, .idx 1])] }

theorem witness_IrregularAbsentCodeFaultsNext :
    hole.Inv ∧ hole.phase = .loop ∧ CodeAt hole 3 ∧ readDict hole 3 = none ∧ 3 ≠ hole.maxKey + 1 ∧
    step hole = .next afterHole ∧ afterHole.phase = .loop ∧ afterHole.params.cwMax = .unbounded ∧
    afterHole.params.outMax = .unbounded ∧ CodeAt afterHole 3 ∧ 3 ≠ 2 ^ hole.mcs + 1 :=
  ⟨hole_inv, rfl, ⟨by decide, readBits_spec.1 (by decide)⟩, by decide, by decide, by rfl, rfl, rfl, rfl,
    ⟨by decide, readBits_spec.1 (by decide)⟩, by decide⟩

theorem witness_LzwDecodeIsEntryThenSteps :
    State.reset.lzwFault = none ∧ legalConfig State.reset.params 2 4 = true ∧
    State.reset.params.inMax.allows [0x8C#8, 0x5F#8].length = true ∧
    State.reset.params.inMax.allows ([] : List Byte).length = true := by decide

theorem witness_DecodeEntryRewritesEverything :
    lzwDown.lzwFault ≠ none ∧ State.reset.lzwFault = none ∧ legalConfig State.reset.params 2 8 = false ∧
    legalConfig State.reset.params 2 4 = true ∧
    State.reset.params.inMax.allows (List.replicate 256 0#8).length = false ∧ 4 ≤ 2 ^ 2 := by
  decide +kernel

/-- The least capacities: CW_MAX of `mcs + 1` at `mcs = 2`; at `mcs = 1` one index, and CW_MAX of 3 for the widening End-of-Information. -/
theorem witness_LiteralStreamDecodesToItsIndices :
    (withParams { tight with inMax := .atMost 2, keyMax := .atMost 7, seqMax := .atMost 2, outMax := .atMost 3 } State.reset).lzwFault
      = none ∧
    legalConfig { tight with inMax := .atMost 2, keyMax := .atMost 7, seqMax := .atMost 2, outMax := .atMost 3 } 2 4 = true ∧
    tight.cwMax = .atMost (2 + 1) ∧ 1 ≤ 2 ∧ [3, 0, 1] ≠ [] ∧ (∀ x ∈ [3, 0, 1], x < 4) ∧
    [0x1C#8, 0x52#8] = packCodes ((2 ^ 2, 2 + 1) :: [3, 0, 1].map (fun x => (x, 2 + 1)) ++ [(2 ^ 2 + 1, 2 + 1)]) ∧
    (Capacity.atMost 2).allows [0x1C#8, 0x52#8].length = true ∧ (Capacity.atMost 3).allows [3, 0, 1].length = true ∧
    (Capacity.atMost 7).allows (2 ^ 2 + [3, 0, 1].length) = true ∧
    (2 ≤ [3, 0, 1].length → (Capacity.atMost 2).allows 2 = true) ∧
    (2 = 1 → tight.cwMax.allows 3 = true) ∧
    legalConfig tight 1 2 = true ∧ 1 ≤ 1 ∧ [1] ≠ [] ∧ (∀ x ∈ [1], x < 2) ∧
    [0x36#8] = packCodes ((2 ^ 1, 1 + 1) :: [1].map (fun x => (x, 1 + 1)) ++ [(2 ^ 1 + 1, 1 + 1)]) ∧
    tight.inMax.allows [0x36#8].length = true ∧ (Capacity.atMost 1).allows [1].length = true ∧
    tight.keyMax.allows (2 ^ 1 + [1].length) = true ∧ (2 ≤ [1].length → tight.seqMax.allows 2 = true) ∧
    (1 = 1 → tight.cwMax.allows 3 = true) := by decide

theorem witness_DecodeForgetsTheStateBefore :
    State.reset.lzwFault = none ∧ (tabled 3 7 []).lzwFault = none ∧ State.reset.params = (tabled 3 7 []).params ∧
    legalConfig State.reset.params 2 4 = true ∧ State.reset.params.inMax.allows [0x8C#8, 0x5F#8].length = true ∧
    look (exec (.lzwDecode 2 4 [0x8C#8, 0x5F#8]) State.reset) State.lzwFault = some none ∧
    look (exec (.lzwDecode 2 4 [0x8C#8, 0x5F#8]) (tabled 3 7 [])) State.lzwFault = some none := by decide +kernel

theorem witness_DecodeEndsWithoutReaderOrTable :
    (tabled 3 7 []).lzwFault = none ∧ legalConfig (tabled 3 7 []).params 2 4 = true ∧
    (tabled 3 7 []).params.inMax.allows [0x48#8, 0x01#8].length = true := by decide

theorem witness_FrAppendExtendsTheBuffer :
    frDown.frFault ≠ none ∧ (buffered []).frFault = none ∧
    tight.bufMax.allows ((buffered []).frbuf.length + [0x01#8].length) = true ∧
    tight.bufMax.allows ((buffered []).frbuf.length + [0x01#8, 0x02#8].length) = false := by decide

theorem witness_FrPredicatesClassifyTheBuffer :
    frDown.frFault ≠ none ∧ (buffered []).frFault = none ∧ (buffered [0x01#8, 0x02#8]).frFault = none ∧
    (statusOutputs (buffered [0x01#8, 0x02#8])).frHfg = true ∧ (statusOutputs (buffered [0x02#8])).frSwg = true := by
  decide

theorem witness_FrTakegRemovesTheGarbage : frDown.frFault ≠ none ∧ (buffered [0x05#8, 0x01#8]).frFault = none := by
  decide

theorem witness_FrTakefRemovesUpToTheFirstEnd :
    frDown.frFault ≠ none ∧ (buffered [0x01#8, 0x02#8, 0x02#8]).frFault = none ∧
    (buffered [0x01#8, 0x02#8, 0x02#8]).frbuf = [0x01#8] ++ 0x02#8 :: [0x02#8] ∧ 0x02#8 ∉ [0x01#8] ∧
    (buffered [0x02#8]).frbuf = [] ++ 0x02#8 :: [] ∧ 0x02#8 ∉ (buffered [0x01#8, 0x07#8]).frbuf := by decide

theorem witness_FrClearDiscardsTheBuffer : (buffered [0x01#8, 0x02#8]).frFault = none ∧ frDown.frFault ≠ none := by
  decide

theorem witness_FrameAvailableMeansTakefSucceeds :
    (buffered [0x01#8, 0x02#8]).frFault = none ∧ (statusOutputs (buffered [0x01#8, 0x02#8])).frHfg = true ∧
    (statusOutputs (buffered [0x01#8, 0x02#8])).frSwg = false ∧
    (statusOutputs (buffered [0x02#8])).frSwg = true ∧ (statusOutputs (buffered [0x01#8])).frHfg = false := by decide

theorem witness_FrConservesEveryByte :
    (∀ i ∈ [Instr.frAppend [0x05#8, 0x01#8], .bEnd, .frTakeg, .frTakef], engineOfInstr i = .fr ∧ i ≠ .frClear) ∧
    (runOps [.frAppend [0x05#8, 0x01#8], .bEnd, .frTakeg, .frTakef] State.reset).map
        (fun x => (x.1.map Response.status, x.1.flatMap returnedBytes))
      = some ([.ok, .ok, .ok, .ok], [0x05#8, 0x01#8, 0x02#8]) := by decide

theorem witness_FrDrainTakesEveryFrameAndAllGarbage :
    (buffered [0x01#8, 0x01#8, 0x02#8, 0x02#8, 0x01#8]).frFault = none ∧
    (frDrain 6 (buffered [0x01#8, 0x01#8, 0x02#8, 0x02#8, 0x01#8])).map Prod.fst
      = some [.frame [0x01#8, 0x01#8, 0x02#8], .garbage [0x02#8]] := by decide

theorem witness_FrameBytesArriveByClass :
    (buffered []).frFault = none ∧ tight.bufMax.allows ((buffered []).frbuf.length + 1) = true ∧
    (buffered [0x01#8]).frFault = none ∧ (buffered [0x01#8]).params.bufMax.allows ((buffered [0x01#8]).frbuf.length + 1) = true ∧
    look (exec (decodeFrameByte 0x02#8) (buffered [0x01#8])) (fun t => (statusOutputs t).frHfg) = some true := by decide

theorem witness_AppendIsItsBytesInTurn :
    [[0x01#8, 0x09#8], [], [0x02#8]] ≠ [] ∧ [[0x01#8, 0x09#8], [], [0x02#8]].flatten ≠ [] ∧ State.reset.frFault = none ∧
    (Capacity.atMost 3).allows (State.reset.frbuf.length + [[0x01#8, 0x09#8], [], [0x02#8]].flatten.length) = true ∧
    look (exec (.frAppend [[0x01#8, 0x09#8], [], [0x02#8]].flatten)
        (withParams { suggested with bufMax := .atMost 3 } State.reset)) State.frbuf
      = some [0x01#8, 0x09#8, 0x02#8] := by decide

theorem witness_EnginesShareNothing :
    State.reset.params = (buffered [0x09#8]).params ∧
    look (exec (.ctHas 0) State.reset) State.lzwRefused = some true ∧ SameLzw State.reset (buffered [0x09#8]) ∧
    State.reset.params = (tabled 2 4 []).params ∧
    look (exec .frSwg State.reset) State.frbuf = some [] ∧ SameFr State.reset (tabled 2 4 []) :=
  ⟨rfl, by decide, ⟨rfl, rfl, rfl, rfl, rfl, rfl, rfl, rfl, rfl, rfl, rfl, rfl, rfl, rfl, rfl, rfl, rfl⟩,
    rfl, by decide, ⟨rfl, rfl, rfl⟩⟩

theorem witness_OperationsOfTheEnginesCommute :
    engineOfInstr (.brLoad [0x8C#8]) = .lzw ∧ engineOfInstr (.bData 0x09#8) = .fr ∧
    isCodeWord (.brLoad [0x8C#8]) = false ∧
    look (exec (.brLoad [0x8C#8]) State.reset) (fun t => look (exec (.bData 0x09#8) t) State.frbuf)
      = some (some [0x09#8]) := by decide

theorem witness_InvariantHoldsAfterReset :
    paramsWf suggested = true ∧ paramsWf tight = true ∧ paramsWf boundless = true := by decide

theorem witness_EveryStepKeepsTheInvariant : hole.Inv ∧ step hole = .next afterHole := ⟨hole_inv, by rfl⟩

theorem witness_NoStepEverStops :
    hole.Inv ∧ hole.asksSplitReset = false ∧ bothDown.Inv ∧ bothDown.asksSplitReset = false ∧
    bothDown.phase = .idle := ⟨hole_inv, rfl, bothDown_inv, rfl, rfl⟩

end Sys2Proof.Tests
end

section
/-! The lemmas and settled obligations of the family "scope" (spec/00_scope.md): what a code word leaves as it was, what an operation of the host can do, and from these R12, R17, R80 and R268. -/

namespace Sys2Proof.Machine

/-! ### What a code word can do after its fetch (R173 to R182) -/

/-- `u` lies inside the run of a code word that began in `s`: what no code word touches is as it was, and the width has not shrunk (R176). -/
structure Underway (s u : State) : Prop where
  params : u.params = s.params
  host : u.host = s.host
  response : u.response = s.response
  frbuf : u.frbuf = s.frbuf
  frFault : u.frFault = s.frFault
  frRefused : u.frRefused = s.frRefused
  lzwFault : u.lzwFault = s.lzwFault
  lzwRefused : u.lzwRefused = s.lzwRefused
  input : u.input = s.input
  inLen : u.inLen = s.inLen
  bitpos : u.bitpos = s.bitpos
  mcs : u.mcs = s.mcs
  cts : u.cts = s.cts
  codeWidth : s.codeWidth ≤ u.codeWidth

/-- How the run of a code word that began in `s` can end: the decode goes on, faults, or finishes (R182, R183). -/
inductive CodeRun (s : State) : State → Prop
  | goesOn {u : State} (hu : Underway s u) (hp : u.phase ≠ .idle) : CodeRun s u
  | faults (kind : FaultKind) (info : Nat) {u : State} (hu : Underway s u) :
      CodeRun s (enterFault .lzw kind info u)
  | finishes {u : State} (hu : Underway s u) :
      CodeRun s { u with
        brValid := false, ctValid := false, phase := .idle
        response := some ⟨.ok, 0, .symbols u.out⟩ }

section CodeWords

variable {s₀ s t : State} {go : State → StepOutcome}

theorem Underway.refl (s : State) : Underway s s :=
  ⟨rfl, rfl, rfl, rfl, rfl, rfl, rfl, rfl, rfl, rfl, rfl, rfl, rfl, le_rfl⟩

/-- Reinitializing the table with the decode's own `mcs`, `cts` (R177). -/
theorem Underway.initTable (hu : Underway s₀ s) : Underway s₀ (initTable s.mcs s.cts s) :=
  { hu with }

theorem Underway.setCur (hu : Underway s₀ s) (c : Nat) : Underway s₀ { s with cur := c } :=
  { hu with }

theorem codeRun_of_raise {kind : FaultKind} {info : Nat} (hu : Underway s₀ s)
    (h : raise .lzw kind info s = .next t) : CodeRun s₀ t := by
  cases h; exact .faults kind info hu

/-- An insertion ends the run in a fault or hands on a state of the same run. -/
theorem codeRun_of_insertNext {seq : List Symbol} (hu : Underway s₀ s)
    (h : insertNext seq s go = .next t) : CodeRun s₀ t ∨ ∃ u, Underway s₀ u ∧ go u = .next t := by
  obtain ⟨-, he⟩ | ⟨-, -, he⟩ | ⟨-, -, he⟩ := insertNext_cases seq s go <;> rw [he] at h
  · exact .inl (codeRun_of_raise hu h)
  · exact .inl (codeRun_of_raise hu h)
  · refine .inr ⟨_, ?_, h⟩; exact { hu with }

/-- An append ends the run in a fault or hands on a state of the same run. -/
theorem codeRun_of_appendOut {seq : List Symbol} (hu : Underway s₀ s)
    (h : appendOut seq s go = .next t) : CodeRun s₀ t ∨ ∃ u, Underway s₀ u ∧ go u = .next t := by
  obtain ⟨-, he⟩ | ⟨-, he⟩ := appendOut_cases seq s go <;> rw [he] at h
  · exact .inl (codeRun_of_raise hu h)
  · refine .inr ⟨_, ?_, h⟩; exact { hu with }

/-- The widen rule ends the run in a fault or hands on a state of the same run. -/
theorem codeRun_of_widen {c : Nat} (hu : Underway s₀ s)
    (h : widen c s go = .next t) : CodeRun s₀ t ∨ ∃ u, Underway s₀ u ∧ go u = .next t := by
  obtain ⟨-, he⟩ | ⟨-, -, he⟩ | ⟨-, -, he⟩ := widen_cases c s go <;> rw [he] at h
  · exact .inr ⟨s, hu, h⟩
  · exact .inl (codeRun_of_raise hu h)
  · refine .inr ⟨_, ?_, h⟩; exact { hu with codeWidth := hu.codeWidth.trans (Nat.le_succ _) }

theorem codeRun_of_finish (hu : Underway s₀ s) (h : finish s = .next t) : CodeRun s₀ t := by
  cases h; exact .finishes (u := s) hu

theorem codeRun_of_expectClear {c : Nat} (hu : Underway s₀ s) (h : expectClear c s = .next t) :
    CodeRun s₀ t := by
  unfold expectClear at h
  split at h
  · cases h; exact .goesOn { hu with } nofun
  · exact codeRun_of_raise hu h

theorem codeRun_of_firstCode {c : Nat} (hu : Underway s₀ s) (h : firstCode c s = .next t) :
    CodeRun s₀ t := by
  unfold firstCode at h
  split at h
  · exact codeRun_of_raise hu h
  · obtain hr | ⟨u, hu, h⟩ := codeRun_of_appendOut hu h
    · exact hr
    · cases h; exact .goesOn { hu with } nofun

/-- The insertion that ends a LOOP step (R179, R180). -/
theorem codeRun_of_lastInsert {seq : List Symbol} (hu : Underway s₀ s)
    (h : insertNext seq s (fun u => .next { u with phase := .loop }) = .next t) : CodeRun s₀ t := by
  obtain hr | ⟨u, hu, h⟩ := codeRun_of_insertNext hu h
  · exact hr
  · cases h; exact .goesOn { hu with } nofun

theorem codeRun_of_presentCode {c : Nat} (hu : Underway s₀ s) (h : presentCode c s = .next t) :
    CodeRun s₀ t := by
  unfold presentCode at h
  split at h
  · exact codeRun_of_raise hu h
  · obtain hr | ⟨u, hu, h⟩ := codeRun_of_appendOut hu h
    · exact hr
    · split at h
      · cases h
      · split at h
        · exact codeRun_of_raise hu h
        · exact codeRun_of_lastInsert hu h

theorem codeRun_of_absentCode (hu : Underway s₀ s) (h : absentCode s = .next t) :
    CodeRun s₀ t := by
  unfold absentCode at h
  split at h
  · exact codeRun_of_raise hu h
  · split at h
    · cases h
    · obtain hr | ⟨u, hu, h⟩ := codeRun_of_appendOut hu h
      · exact hr
      · exact codeRun_of_lastInsert hu h

/-- Each class, in each phase, is one of the pieces above. -/
theorem codeRun_of_execClass {cls : CwClass} {c w : Nat} (hu : Underway s₀ s)
    (h : execClass cls c w s = .next t) : CodeRun s₀ t := by
  cases cls with
  | clear =>
    simp only [execClass, execCwClear] at h
    split at h
    · cases h
    · exact codeRun_of_expectClear hu h
    · exact codeRun_of_firstCode hu.initTable h
    · exact codeRun_of_presentCode (hu.setCur c).initTable h
  | eoi =>
    simp only [execClass, execCwEoi] at h
    split at h
    · cases h
    · exact codeRun_of_expectClear hu h
    · exact codeRun_of_firstCode hu h
    · exact codeRun_of_finish (hu.setCur c) h
  | present =>
    simp only [execClass, execCwPresent] at h
    split at h
    · cases h
    · exact codeRun_of_expectClear hu h
    · exact codeRun_of_firstCode hu h
    · exact codeRun_of_presentCode (hu.setCur c) h
  | absent =>
    simp only [execClass, execCwAbsent] at h
    split at h
    · cases h
    · exact codeRun_of_expectClear hu h
    · exact codeRun_of_raise hu h
    · exact codeRun_of_absentCode (hu.setCur c) h

/-- The widen rule and then the class, or the class alone in EXPECT_CLEAR (R176, R191). -/
theorem codeRun_of_execCwWiden {cls : CwClass} {c w : Nat} (hu : Underway s₀ s)
    (h : execCwWiden cls c w s = .next t) : CodeRun s₀ t := by
  have widened {u : State} (hu : Underway s₀ u)
      (h : widen c u (execClass cls c w) = .next t) : CodeRun s₀ t := by
    obtain hr | ⟨v, hv, h⟩ := codeRun_of_widen hu h
    · exact hr
    · exact codeRun_of_execClass hv h
  unfold execCwWiden at h
  split at h
  · cases h
  · exact codeRun_of_execClass hu h
  · exact widened hu h
  · exact widened (hu.setCur c) h

theorem codeRun_of_runCode {c : Nat} (h : runCode c s = .next t) : CodeRun s t := by
  unfold runCode at h
  dsimp only at h
  split at h
  · exact codeRun_of_execCwWiden (.refl s) h
  · exact codeRun_of_execClass (.refl s) h

/-- A code word, however it is reached, ends as `CodeRun` says. -/
theorem codeRun_of_exec {i : Instr} (hi : isCodeWord i = true) (h : exec i s = .next t) :
    CodeRun s t := by
  cases i with
  | cwWiden cls c w => exact codeRun_of_execCwWiden (.refl s) h
  | cwClear c w => exact codeRun_of_execClass (cls := .clear) (.refl s) h
  | cwEoi c w => exact codeRun_of_execClass (cls := .eoi) (.refl s) h
  | cwPresent c w => exact codeRun_of_execClass (cls := .present) (.refl s) h
  | cwAbsent c w => exact codeRun_of_execClass (cls := .absent) (.refl s) h
  | _ => cases hi

theorem CodeRun.params_eq (h : CodeRun s t) : t.params = s.params := by
  cases h with
  | goesOn hu | faults _ _ hu | finishes hu => exact hu.params

theorem CodeRun.host_eq (h : CodeRun s t) : t.host = s.host := by
  cases h with
  | goesOn hu | faults _ _ hu | finishes hu => exact hu.host

end CodeWords

/-! ### A step of a decode, and a whole decode -/

/-- A read of bits that does not stop the model faults past the end or goes on (R122, R123). -/
theorem consumeBits_next {w : Nat} {s t : State} {go : Nat → State → StepOutcome}
    (h : consumeBits w s go = .next t) :
    t = enterFault .lzw .truncatedInput s.bitpos s ∨
    (s.bitpos + w ≤ 8 * s.inLen ∧ ∃ v, go v { s with bitpos := s.bitpos + w } = .next t) := by
  obtain ⟨-, he⟩ | ⟨v, hle, -, he⟩ | ⟨-, -, he⟩ := consumeBits_cases w s go <;> rw [he] at h
  · cases h; exact .inl rfl
  · exact .inr ⟨hle, v, h⟩
  · cases h

/-- A step of a decode reads `code_width` bits, after `prev <- cur` in phase LOOP (R172, R175). -/
theorem codeStep_eq_consumeBits (s : State) :
    codeStep s = consumeBits s.codeWidth
      { s with prev := if s.phase = .loop then s.cur else s.prev } runCode := by
  unfold codeStep fetchCode
  by_cases hp : s.phase = .loop <;> simp [hp]

/-- All that a step of a decode can do: the fetch faults, or the code word runs with the cursor past it (R172). -/
theorem codeStep_cases {s t : State} (h : codeStep s = .next t) :
    (∃ p, t = enterFault .lzw .truncatedInput s.bitpos { s with prev := p }) ∨
    (s.bitpos + s.codeWidth ≤ 8 * s.inLen ∧ CodeRun (afterFetch s) t) := by
  rw [codeStep_eq_consumeBits] at h
  obtain ht | ⟨hle, v, h⟩ := consumeBits_next h
  · exact .inl ⟨_, ht⟩
  · exact .inr ⟨hle, codeRun_of_runCode h⟩

/-- A step of a decode writes no parameter and takes no host input. -/
theorem codeStep_keeps {s t : State} (h : codeStep s = .next t) :
    t.params = s.params ∧ t.host = s.host := by
  obtain ⟨p, rfl⟩ | ⟨-, hr⟩ := codeStep_cases h
  · exact ⟨rfl, rfl⟩
  · exact ⟨hr.params_eq, hr.host_eq⟩

/-- From `s` to `t` an operation was performed to its end, in success or in a fault: it answered, and not with a refusal (R17). -/
structure Completes (s t : State) : Prop where
  params : t.params = s.params
  host : t.host = s.host
  response : ∃ r, t.response = some r ∧ ∀ reason, r.status ≠ .refused reason

theorem completes_enterFault {s u : State} (e : Engine) (kind : FaultKind) (info : Nat)
    (hp : u.params = s.params) (hh : u.host = s.host) : Completes s (enterFault e kind info u) := by
  cases e <;> exact ⟨hp, hh, _, rfl, nofun⟩

/-- A run that ends the decode completes it. -/
theorem CodeRun.completes {s t : State} (h : CodeRun s t) (hp : t.phase = .idle) :
    Completes s t := by
  cases h with
  | goesOn _ hn => exact absurd hp hn
  | faults kind info hu => exact completes_enterFault .lzw kind info hu.params hu.host
  | finishes hu => exact ⟨hu.params, hu.host, _, rfl, nofun⟩

/-- A decode with enough fuel completes. Every fetch consumes at least `mcs + 1` bits (R176), so `n` of them that pass the end of IN are enough (R185); without this bound the response of the operation before would be left standing. -/
theorem completes_of_runDecode {n : Nat} {s t : State} (hw : s.mcs + 1 ≤ s.codeWidth)
    (hb : s.bitpos ≤ 8 * s.inLen) (hn : 8 * s.inLen < s.bitpos + n * (s.mcs + 1))
    (h : runDecode n s = .next t) : Completes s t := by
  induction n generalizing s with
  | zero => omega
  | succ n ih =>
    unfold runDecode at h
    cases hs : codeStep s with
    | fault f => simp [hs] at h
    | refused r => simp [hs] at h
    | next u =>
      simp only [hs] at h
      obtain ⟨p, rfl⟩ | ⟨hle, hr⟩ := codeStep_cases hs
      · cases h; exact completes_enterFault .lzw _ _ rfl rfl
      · split at h
        case isTrue hp =>
          cases h
          obtain ⟨hpar, hhost, hresp⟩ := hr.completes hp
          exact ⟨hpar, hhost, hresp⟩
        case isFalse hp =>
          cases hr with
          | faults => exact absurd rfl hp
          | finishes => exact absurd rfl hp
          | goesOn hu =>
            have hmcs : u.mcs = s.mcs := hu.mcs
            have hinLen : u.inLen = s.inLen := hu.inLen
            have hbitpos : u.bitpos = s.bitpos + s.codeWidth := hu.bitpos
            have hwidth : s.codeWidth ≤ u.codeWidth := hu.codeWidth
            rw [Nat.add_one_mul n] at hn
            obtain ⟨hpar, hhost, hresp⟩ :=
              ih (by omega) (by omega) (by rw [hmcs]; omega) h
            exact ⟨hpar.trans hu.params, hhost.trans hu.host, hresp⟩

/-! ### What an operation of the host can do (R17) -/

/-- An operation of engine `e` on `s` is refused and performs nothing, or is performed to its end. -/
inductive OpOutcome (e : Engine) (s : State) : State → Prop
  | refused (reason : RefuseReason) : OpOutcome e s (enterRefusal e reason s)
  | completed {t : State} (h : Completes s t) : OpOutcome e s t

section Operations

variable {e : Engine} {s t : State}

theorem opOutcome_of_refuse {reason : RefuseReason} (h : refuse e reason s = .next t) :
    OpOutcome e s t := by
  cases h; exact .refused reason

theorem opOutcome_of_ok {u : State} {v : Result} (h : ok v u = .next t) (hp : u.params = s.params)
    (hh : u.host = s.host) : OpOutcome e s t := by
  cases h; exact .completed ⟨hp, hh, _, rfl, nofun⟩

theorem opOutcome_of_raise {kind : FaultKind} {info : Nat} (h : raise e kind info s = .next t) :
    OpOutcome e s t := by
  cases h; exact .completed (completes_enterFault e kind info rfl rfl)

/-- The first check of every operation refuses or goes on (R242). -/
theorem opOutcome_of_unlessFaulted {go : StepOutcome} (h : unlessFaulted e s go = .next t)
    (hgo : go = .next t → OpOutcome e s t) : OpOutcome e s t := by
  by_cases hf : faultOf e s = none
  · rw [unlessFaulted_of_none hf] at h
    exact hgo h
  · rw [unlessFaulted_of_fault hf] at h
    cases h; exact .refused .engineFaulted

theorem opOutcome_of_execBrLoad {bytes : List Byte} (h : execBrLoad bytes s = .next t) :
    OpOutcome .lzw s t := by
  refine opOutcome_of_unlessFaulted h fun h => ?_
  split at h
  · exact opOutcome_of_ok h rfl rfl
  · exact opOutcome_of_raise h

theorem opOutcome_of_execBrRead {width : Nat} (h : execBrRead width s = .next t) :
    OpOutcome .lzw s t := by
  refine opOutcome_of_unlessFaulted h fun h => ?_
  split at h
  · exact opOutcome_of_refuse h
  · split at h
    · exact opOutcome_of_refuse h
    · obtain rfl | ⟨-, v, h⟩ := consumeBits_next h
      · exact .completed (completes_enterFault .lzw _ _ rfl rfl)
      · exact opOutcome_of_ok h rfl rfl

theorem opOutcome_of_execCtInit {mcs cts : Nat} (h : execCtInit mcs cts s = .next t) :
    OpOutcome .lzw s t := by
  refine opOutcome_of_unlessFaulted h fun h => ?_
  split at h
  · exact opOutcome_of_ok h rfl rfl
  · exact opOutcome_of_refuse h

theorem opOutcome_of_execCtLookup {code : Nat} (h : execCtLookup code s = .next t) :
    OpOutcome .lzw s t := by
  refine opOutcome_of_unlessFaulted h fun h => ?_
  split at h
  · exact opOutcome_of_refuse h
  · split at h
    · exact opOutcome_of_raise h
    · exact opOutcome_of_ok h rfl rfl

theorem opOutcome_of_execCtHas {code : Nat} (h : execCtHas code s = .next t) :
    OpOutcome .lzw s t := by
  refine opOutcome_of_unlessFaulted h fun h => ?_
  split at h
  · exact opOutcome_of_refuse h
  · exact opOutcome_of_ok h rfl rfl

theorem opOutcome_of_execCtInsert {words : List SymWord} (h : execCtInsert words s = .next t) :
    OpOutcome .lzw s t := by
  refine opOutcome_of_unlessFaulted h fun h => ?_
  split at h
  · exact opOutcome_of_refuse h
  · split at h
    · exact opOutcome_of_refuse h
    · rename_i seq _
      obtain ⟨-, he⟩ | ⟨-, -, he⟩ | ⟨-, -, he⟩ := insertNext_cases seq s (ok .nothing) <;>
        rw [he] at h
      · exact opOutcome_of_raise h
      · exact opOutcome_of_raise h
      · exact opOutcome_of_ok h rfl rfl

/-- The bound of R185 passes the end of an input of `n` bytes. -/
theorem lt_maxFetches_mul (mcs n : Nat) : 8 * n < maxFetches mcs n * (mcs + 1) := by
  unfold maxFetches
  rw [Nat.add_comm 1]
  exact Nat.lt_mul_of_div_lt (Nat.lt_succ_self _) (Nat.succ_pos mcs)

theorem opOutcome_of_execLzwDecode {mcs cts : Nat} {bytes : List Byte}
    (h : execLzwDecode mcs cts bytes s = .next t) : OpOutcome .lzw s t := by
  refine opOutcome_of_unlessFaulted h fun h => ?_
  split at h
  · exact opOutcome_of_refuse h
  · split at h
    · exact opOutcome_of_raise h
    · have hfuel : 8 * bytes.length < 0 + maxFetches mcs bytes.length * (mcs + 1) := by
        simpa using lt_maxFetches_mul mcs bytes.length
      obtain ⟨hp, hh, hr⟩ := completes_of_runDecode (s := enterDecode mcs cts bytes s)
        le_rfl (Nat.zero_le _) hfuel h
      exact .completed ⟨hp, hh, hr⟩

theorem opOutcome_of_arrive {bytes : List Byte} (h : arrive bytes s = .next t) :
    OpOutcome .fr s t := by
  refine opOutcome_of_unlessFaulted h fun h => ?_
  split at h
  · exact opOutcome_of_ok h rfl rfl
  · exact opOutcome_of_raise h

theorem opOutcome_of_execFrTakef (h : execFrTakef s = .next t) : OpOutcome .fr s t := by
  refine opOutcome_of_unlessFaulted h fun h => ?_
  split at h
  · exact opOutcome_of_raise h
  · exact opOutcome_of_ok h rfl rfl

/-- Every operation of the host is refused or completes (R17). -/
theorem opOutcome_of_exec {i : Instr} (hi : isCodeWord i = false) (h : exec i s = .next t) :
    OpOutcome (engineOfInstr i) s t := by
  cases i with
  | brLoad bytes => exact opOutcome_of_execBrLoad h
  | brRead width => exact opOutcome_of_execBrRead h
  | ctInit mcs cts => exact opOutcome_of_execCtInit h
  | ctLookup code => exact opOutcome_of_execCtLookup h
  | ctHas code => exact opOutcome_of_execCtHas h
  | ctInsert words => exact opOutcome_of_execCtInsert h
  | lzwDecode mcs cts bytes => exact opOutcome_of_execLzwDecode h
  | frHasfg | frSwg | frTakeg | frClear =>
    exact opOutcome_of_unlessFaulted h fun h => opOutcome_of_ok h rfl rfl
  | frTakef => exact opOutcome_of_execFrTakef h
  | frAppend _ | bStart | bEnd | bData _ => exact opOutcome_of_arrive h
  | cwWiden _ _ _ | cwClear _ _ | cwEoi _ _ | cwPresent _ _ | cwAbsent _ _ => cases hi

theorem OpOutcome.params_eq (h : OpOutcome e s t) : t.params = s.params := by
  cases h with
  | refused reason => cases e <;> rfl
  | completed h => exact h.params

theorem OpOutcome.host_eq (h : OpOutcome e s t) : t.host = s.host := by
  cases h with
  | refused reason => cases e <;> rfl
  | completed h => exact h.host

theorem enterRefusal_response (e : Engine) (reason : RefuseReason) (s : State) :
    (enterRefusal e reason s).response = some ⟨.refused reason, 0, .nothing⟩ := by
  cases e <;> rfl

/-- An operation that answers with a refusal has done only what a refusal does (R268). -/
theorem OpOutcome.eq_enterRefusal {reason : RefuseReason} {info : Nat} {v : Result}
    (h : OpOutcome e s t) (hr : t.response = some ⟨.refused reason, info, v⟩) :
    t = enterRefusal e reason s := by
  cases h with
  | refused r =>
    rw [enterRefusal_response] at hr
    cases hr; rfl
  | completed h =>
    obtain ⟨r, hsome, hne⟩ := h.response
    rw [hsome] at hr
    cases hr
    exact absurd rfl (hne reason)

/-- No instruction writes the parameters or takes a host input. -/
theorem exec_keeps {i : Instr} (h : exec i s = .next t) :
    t.params = s.params ∧ t.host = s.host := by
  cases hi : isCodeWord i with
  | false =>
    have ho := opOutcome_of_exec hi h
    exact ⟨ho.params_eq, ho.host_eq⟩
  | true =>
    have hr := codeRun_of_exec hi h
    exact ⟨hr.params_eq, hr.host_eq⟩

/-! ### One host input (R240, R300) -/

theorem applyReset_keeps {target : ResetTarget} (h : applyReset target s = .next t) :
    t.params = s.params ∧ t.host = s.host := by
  cases target with
  | block => cases h; exact ⟨rfl, rfl⟩
  | engine e =>
    simp only [applyReset] at h
    split at h
    · cases e <;> cases h <;> exact ⟨rfl, rfl⟩
    · cases h

/-- Issuing an input writes no parameter and takes no further input. -/
theorem issue_keeps {x : HostInput} (h : issue x s = .next t) :
    t.params = s.params ∧ t.host = s.host := by
  cases x with
  | command w p =>
    simp only [issue, issueCommand] at h
    split at h
    · exact exec_keeps h
    · obtain ⟨r, he⟩ := refuseUnmatched_cases w s
      rw [he] at h
      have ho : OpOutcome (engineOf w) s t := opOutcome_of_refuse h
      exact ⟨ho.params_eq, ho.host_eq⟩
  | frameByte b => exact exec_keeps h
  | rst target => exact applyReset_keeps h

end Operations

/-! ### The obligations -/

/-- Settles O8: an operation is refused or completes, and one that completes does not answer with a refusal. For `LZW.DECODE` this rests on the bound of R185. -/
theorem refusalsChangeOnlyTheRefusedFlag : Obligations.RefusalsChangeOnlyTheRefusedFlag := by
  intro i s t reason info v hi h hr
  have ht : t = enterRefusal (engineOfInstr i) reason s := (opOutcome_of_exec hi h).eq_enterRefusal hr
  exact ⟨fun he => by rw [ht, he]; rfl, fun he => by rw [ht, he]; rfl⟩

/-- Settles O15, by the cases of the step: waiting, issuing the first input, running a code word. -/
theorem stepKeepsParametersAndHostOrder : Obligations.StepKeepsParametersAndHostOrder := by
  intro s t h
  by_cases hp : s.phase = .idle
  · cases hh : s.host with
    | nil =>
      rw [step_wait hp hh] at h
      cases h; exact ⟨rfl, .inl hh⟩
    | cons x rest =>
      rw [step_input hp hh] at h
      obtain ⟨hpar, hhost⟩ := issue_keeps h
      exact ⟨hpar, .inr ⟨x, hp, congrArg (x :: ·) hhost.symm⟩⟩
  · rw [step_running hp] at h
    obtain ⟨hpar, hhost⟩ := codeStep_keeps h
    exact ⟨hpar, .inl hhost⟩

end Sys2Proof.Machine
end

section
/-! The run of a code word, followed once through its classes and phases (spec/42_lzw_decompress.md R173 to R182), and the end of every decode: settles O45. -/

namespace Sys2Proof.Machine

/-! ### The run of a code word, outcome by outcome -/

/-- Every symbol of `seq` stands in the table. -/
def Drawn (s : State) (seq : List Symbol) : Prop := ∀ x ∈ seq, ∃ e ∈ s.dict, x ∈ e.2

/-- `u` is reached from `s` by the micro-operations of a code word of value `c`. -/
inductive Within (c : Nat) (s : State) : State → Prop
  | start : Within c s s
  | setsCur {u : State} (hu : Within c s u) : Within c s { u with cur := c }
  | restarts {u : State} (hu : Within c s u) : Within c s (initTable u.mcs u.cts u)
  | widens {u : State} (hu : Within c s u) (hw : u.params.cwMax.allows (u.codeWidth + 1) = true) :
      Within c s { u with codeWidth := u.codeWidth + 1 }
  | appends {u : State} {seq : List Symbol} (hu : Within c s u)
      (ho : u.params.outMax.allows (u.outLen + seq.length) = true) (hd : Drawn u seq) :
      Within c s { u with out := u.out ++ seq, outLen := u.outLen + seq.length }
  | inserts {u : State} {p : List Symbol} {k : Nat} {x : Symbol} (hu : Within c s u)
      (hk : u.params.keyMax.allows (u.maxKey + 1) = true)
      (hl : u.params.seqMax.allows (p ++ [x]).length = true)
      (hp : readDict u k = some p) (hx : Drawn u [x]) :
      Within c s (writeDict (u.maxKey + 1) (p ++ [x]) { u with maxKey := u.maxKey + 1 })
  | enters {u : State} (hu : Within c s u) (ph : Phase) (hp : ph ≠ .idle) :
      Within c s { u with phase := ph }

/-- How the run of a code word `c` can end: the decode goes on, faults or finishes (R182, R183); the model itself stops only on an empty sequence in the table, or where no decode is in progress. -/
inductive CodeEnd (c : Nat) (s : State) : StepOutcome → Prop
  | goesOn {u : State} (hu : Within c s u) (hp : u.phase ≠ .idle) : CodeEnd c s (.next u)
  | faults {u : State} (hu : Within c s u) (kind : FaultKind) (hk : kind ∈ kindsOf .lzw) (info : Nat) :
      CodeEnd c s (.next (enterFault .lzw kind info u))
  | finishes {u : State} (hu : Within c s u) :
      CodeEnd c s (.next { u with
        brValid := false, ctValid := false, phase := .idle
        response := some ⟨.ok, 0, .symbols u.out⟩ })
  | emptySequence {u : State} {q : Nat} (hu : Within c s u) (he : readDict u q = some []) :
      CodeEnd c s (.fault (.emptySequence q))
  | noDecode {u : State} (hu : Within c s u) (hp : u.phase = .idle) :
      CodeEnd c s (.refused .noDecodeInProgress)

theorem decodeProtocolViolation_mem : .decodeProtocolViolation ∈ kindsOf .lzw := by decide

theorem capacityExceeded_mem (e : Engine) : .capacityExceeded ∈ kindsOf e := by cases e <;> decide

theorem truncatedInput_mem : .truncatedInput ∈ kindsOf .lzw := by decide

theorem drawn_of_readDict {s : State} {k : Nat} {seq : List Symbol} (h : readDict s k = some seq) :
    Drawn s seq :=
  fun _ hx => ⟨_, mem_of_readCell h, hx⟩

theorem Drawn.subset {s : State} {l seq : List Symbol} (h : Drawn s seq) (hl : l ⊆ seq) : Drawn s l :=
  fun x hx => h x (hl hx)

/-- A sequence with its own or another entry's first symbol at the end is drawn from the table. -/
theorem Drawn.concat {s : State} {seq : List Symbol} {x : Symbol} (h : Drawn s seq) (hx : Drawn s [x]) :
    Drawn s (seq ++ [x]) := by
  intro y hy
  rcases List.mem_append.1 hy with hy | hy
  · exact h y hy
  · exact hx y hy

section Run

variable {c w : Nat} {s u : State} {go : State → StepOutcome}

/-- An append ends the run in a fault or hands on. -/
theorem codeEnd_appendOut {seq : List Symbol} (hu : Within c s u) (hd : Drawn u seq)
    (hgo : Within c s { u with out := u.out ++ seq, outLen := u.outLen + seq.length } →
      CodeEnd c s (go { u with out := u.out ++ seq, outLen := u.outLen + seq.length })) :
    CodeEnd c s (appendOut seq u go) := by
  obtain ⟨-, he⟩ | ⟨ho, he⟩ := appendOut_cases seq u go <;> rw [he]
  · exact .faults hu _ (capacityExceeded_mem .lzw) _
  · exact hgo (hu.appends ho hd)

/-- The insertion that ends a LOOP step (R179, R180). -/
theorem codeEnd_lastInsert {p : List Symbol} {k : Nat} {x : Symbol} (hu : Within c s u)
    (hp : readDict u k = some p) (hx : Drawn u [x]) :
    CodeEnd c s (insertNext (p ++ [x]) u fun v => .next { v with phase := .loop }) := by
  obtain ⟨-, he⟩ | ⟨-, -, he⟩ | ⟨hk, hl, he⟩ :=
    insertNext_cases (p ++ [x]) u fun v => .next { v with phase := .loop } <;> rw [he]
  · exact .faults hu _ (capacityExceeded_mem .lzw) _
  · exact .faults hu _ (capacityExceeded_mem .lzw) _
  · exact .goesOn ((hu.inserts hk hl hp hx).enters .loop nofun) nofun

/-- The widen rule ends the run in a fault or hands on. -/
theorem codeEnd_widen {code : Nat} (hu : Within c s u)
    (hgo : ∀ v, Within c s v → CodeEnd c s (go v)) : CodeEnd c s (widen code u go) := by
  obtain ⟨-, he⟩ | ⟨-, -, he⟩ | ⟨-, hw, he⟩ := widen_cases code u go <;> rw [he]
  · exact hgo _ hu
  · exact .faults hu _ (capacityExceeded_mem .lzw) _
  · exact hgo _ (hu.widens hw)

theorem codeEnd_expectClear (hu : Within c s u) : CodeEnd c s (expectClear c u) := by
  unfold expectClear
  split
  · exact .goesOn (hu.setsCur.enters .first nofun) nofun
  · exact .faults hu _ decodeProtocolViolation_mem _

theorem codeEnd_firstCode (hu : Within c s u) : CodeEnd c s (firstCode c u) := by
  unfold firstCode
  cases hseq : readDict u c with
  | none => exact .faults hu _ decodeProtocolViolation_mem _
  | some seq =>
    exact codeEnd_appendOut hu (drawn_of_readDict hseq) fun hv =>
      .goesOn (hv.setsCur.enters .loop nofun) nofun

theorem codeEnd_presentCode (hu : Within c s u) : CodeEnd c s (presentCode c u) := by
  unfold presentCode
  cases hseq : readDict u c with
  | none => exact .faults hu _ decodeProtocolViolation_mem _
  | some seq =>
    have hd := drawn_of_readDict hseq
    refine codeEnd_appendOut hu hd fun hv => ?_
    cases seq with
    | nil => exact .emptySequence hu hseq
    | cons x xs =>
      dsimp only
      split
      · exact .faults hv _ decodeProtocolViolation_mem _
      · rename_i p hp
        exact codeEnd_lastInsert hv hp (Drawn.subset (s := u) hd (by simp))

theorem codeEnd_absentCode (hu : Within c s u) : CodeEnd c s (absentCode u) := by
  unfold absentCode
  cases hp : readDict u u.prev with
  | none => exact .faults hu _ decodeProtocolViolation_mem _
  | some p =>
    have hd := drawn_of_readDict hp
    cases p with
    | nil => exact .emptySequence hu hp
    | cons x xs =>
      have hx : Drawn u [x] := hd.subset (by simp)
      exact codeEnd_appendOut hu (hd.concat hx) fun hv => codeEnd_lastInsert hv hp hx

/-- Each class, in each phase, is one of the pieces above. -/
theorem codeEnd_execClass (cls : CwClass) (hu : Within c s u) : CodeEnd c s (execClass cls c w u) := by
  cases cls with
  | clear =>
    simp only [execClass, execCwClear]
    split
    · exact .noDecode hu ‹_›
    · exact codeEnd_expectClear hu
    · exact codeEnd_firstCode hu.restarts
    · exact codeEnd_presentCode hu.setsCur.restarts
  | eoi =>
    simp only [execClass, execCwEoi]
    split
    · exact .noDecode hu ‹_›
    · exact codeEnd_expectClear hu
    · exact codeEnd_firstCode hu
    · exact .finishes (u := { u with cur := c }) hu.setsCur
  | present =>
    simp only [execClass, execCwPresent]
    split
    · exact .noDecode hu ‹_›
    · exact codeEnd_expectClear hu
    · exact codeEnd_firstCode hu
    · exact codeEnd_presentCode hu.setsCur
  | absent =>
    simp only [execClass, execCwAbsent]
    split
    · exact .noDecode hu ‹_›
    · exact codeEnd_expectClear hu
    · exact .faults hu _ decodeProtocolViolation_mem _
    · exact codeEnd_absentCode hu.setsCur

/-- The widen rule and then the class, or the class alone in EXPECT_CLEAR (R176, R191). -/
theorem codeEnd_execCwWiden (cls : CwClass) (hu : Within c s u) :
    CodeEnd c s (execCwWiden cls c w u) := by
  unfold execCwWiden
  split
  · exact .noDecode hu ‹_›
  · exact codeEnd_execClass cls hu
  · exact codeEnd_widen hu fun _ hv => codeEnd_execClass cls hv
  · exact codeEnd_widen hu.setsCur fun _ hv => codeEnd_execClass cls hv

theorem codeEnd_runCode (c : Nat) (s : State) : CodeEnd c s (runCode c s) := by
  unfold runCode
  dsimp only
  split
  · exact codeEnd_execCwWiden _ .start
  · exact codeEnd_execClass _ .start

end Run

/-! ### What holds all through the run of a code word -/

section Within

variable {c : Nat} {s u : State}

theorem Within.underway (h : Within c s u) : Underway s u := by
  induction h with
  | start => exact .refl s
  | setsCur _ ih => exact { ih with }
  | restarts _ ih => exact ih.initTable
  | widens _ _ ih => exact { ih with codeWidth := ih.codeWidth.trans (Nat.le_succ _) }
  | appends _ _ _ ih => exact { ih with }
  | inserts _ _ _ _ _ ih => exact { ih with }
  | enters _ _ _ ih => exact { ih with }

theorem Within.phase_ne_idle (h : Within c s u) (hs : s.phase ≠ .idle) : u.phase ≠ .idle := by
  induction h with
  | start => exact hs
  | enters _ ph hp _ => exact hp
  | setsCur _ ih | restarts _ ih | widens _ _ ih | appends _ _ _ ih | inserts _ _ _ _ _ ih => exact ih

/-- A fresh entry is one symbol (R143). -/
theorem length_of_mem_freshDict {mcs cts : Nat} {e : Nat × List Symbol} (h : e ∈ freshDict mcs cts) :
    e.2.length = 1 := by
  simp only [freshDict, List.mem_append, List.mem_map, List.mem_cons, List.not_mem_nil, or_false] at h
  rcases h with ⟨i, -, rfl⟩ | rfl | rfl <;> rfl

/-- No entry of the table is the empty sequence, on which R14 leaves element 0 undefined (R186). -/
def NoEmptyEntry (s : State) : Prop := ∀ e ∈ s.dict, e.2 ≠ []

theorem noEmptyEntry_of_dict_fresh {mcs cts : Nat} (h : s.dict = freshDict mcs cts) : NoEmptyEntry s := by
  intro e he hnil
  rw [h] at he
  have := length_of_mem_freshDict he
  simp [hnil] at this

theorem Within.noEmptyEntry (h : Within c s u) (hs : NoEmptyEntry s) : NoEmptyEntry u := by
  induction h with
  | start => exact hs
  | setsCur _ ih | widens _ _ ih | appends _ _ _ ih | enters _ _ _ ih => exact ih
  | restarts => exact noEmptyEntry_of_dict_fresh rfl
  | inserts _ _ _ _ _ ih =>
    intro e he
    rcases mem_writeCell he with rfl | he
    · simp
    · exact ih e he

end Within

/-! ### A step of a decode, and a whole decode -/

/-- All that a step of a decode can do over a loaded input: the fetch faults, or the code word runs with the cursor past it (R172). -/
theorem codeStep_ends {s : State} (hin : s.input.map Prod.fst = List.range s.inLen) :
    codeStep s = .next (enterFault .lzw .truncatedInput s.bitpos { afterFetch s with bitpos := s.bitpos }) ∨
    ∃ c, c < 2 ^ s.codeWidth ∧ s.bitpos + s.codeWidth ≤ 8 * s.inLen ∧
      CodeEnd c (afterFetch s) (codeStep s) := by
  rw [codeStep_eq_consumeBits]
  obtain ⟨-, he⟩ | ⟨c, hle, hc, he⟩ | ⟨hle, hno, -⟩ := consumeBits_cases s.codeWidth
      { s with prev := if s.phase = .loop then s.cur else s.prev } runCode
  · exact .inl he
  · refine .inr ⟨c, hc.1, hle, ?_⟩
    rw [he]
    exact codeEnd_runCode c (afterFetch s)
  · obtain ⟨c, hc⟩ := exists_bitsAre (s := s) hin hle
    exact absurd hc (hno c)

/-- A decode in progress whose steps never stop the model: IN is loaded, the table has no empty entry, and every fetch takes at least `mcs + 1` bits. -/
structure Decodable (s : State) : Prop where
  input : s.input.map Prod.fst = List.range s.inLen
  bitpos : s.bitpos ≤ 8 * s.inLen
  width : s.mcs + 1 ≤ s.codeWidth
  phase : s.phase ≠ .idle
  lzwFault : s.lzwFault = none
  noEmptyEntry : NoEmptyEntry s

theorem decodable_enterDecode (mcs cts : Nat) (bytes : List Byte) {s : State} (hf : s.lzwFault = none) :
    Decodable (enterDecode mcs cts bytes s) where
  input := by simp [List.range_eq_range']
  bitpos := Nat.zero_le _
  width := le_rfl
  phase := nofun
  lzwFault := hf
  noEmptyEntry := noEmptyEntry_of_dict_fresh rfl

/-- What an ended decode leaves of the state `s` it began in (R37, R182, R183). -/
structure DecodeEnded (s t : State) : Prop where
  brValid : t.brValid = false
  ctValid : t.ctValid = false
  phase : t.phase = .idle
  sameFr : SameFr s t
  params : t.params = s.params
  host : t.host = s.host
  lzwRefused : t.lzwRefused = s.lzwRefused
  answer : (t.lzwFault = none ∧ t.response = some ⟨.ok, 0, .symbols t.out⟩) ∨
    ∃ k n, t.lzwFault = some ⟨k, n⟩ ∧ t.response = some ⟨.fault k, n, .nothing⟩

theorem Underway.sameFr {s u : State} (h : Underway s u) : SameFr s u :=
  ⟨h.frbuf.symm, h.frFault.symm, h.frRefused.symm⟩

theorem SameFr.trans {s t u : State} (h : SameFr s t) (h' : SameFr t u) : SameFr s u :=
  ⟨h.frbuf.trans h'.frbuf, h.frFault.trans h'.frFault, h.frRefused.trans h'.frRefused⟩

theorem Underway.decodeEnded_of_fault {s u : State} (h : Underway s u) (kind : FaultKind) (info : Nat) :
    DecodeEnded s (enterFault .lzw kind info u) :=
  ⟨rfl, rfl, rfl, { h.sameFr with }, h.params, h.host, h.lzwRefused, .inr ⟨_, _, rfl, rfl⟩⟩

theorem Underway.decodeEnded_of_finish {s u : State} (h : Underway s u) (hf : s.lzwFault = none) :
    DecodeEnded s { u with
      brValid := false, ctValid := false, phase := .idle
      response := some ⟨.ok, 0, .symbols u.out⟩ } :=
  ⟨rfl, rfl, rfl, { h.sameFr with }, h.params, h.host, h.lzwRefused, .inl ⟨h.lzwFault.trans hf, rfl⟩⟩

/-- What an ended decode leaves of a state it leaves of every earlier state of the decode. -/
theorem DecodeEnded.of_underway {s u t : State} (h : DecodeEnded u t) (hu : Underway s u) :
    DecodeEnded s t :=
  { h with
    sameFr := hu.sameFr.trans h.sameFr
    params := h.params.trans hu.params
    host := h.host.trans hu.host
    lzwRefused := h.lzwRefused.trans hu.lzwRefused }

/-- The fetch touches only `bitpos` and `prev` (R172, R175). -/
theorem DecodeEnded.of_afterFetch {s t : State} (h : DecodeEnded (afterFetch s) t) : DecodeEnded s t :=
  { h with sameFr := { h.sameFr with } }

/-- A step of a decode ends it, or leads to a later state of it with the cursor past the word. -/
theorem codeStep_of_decodable {s : State} (h : Decodable s) :
    ∃ t, codeStep s = .next t ∧ (DecodeEnded s t ∨ (Decodable t ∧ Underway (afterFetch s) t)) := by
  obtain he | ⟨c, -, hle, hend⟩ := codeStep_ends h.input
  · have hs : Underway s { afterFetch s with bitpos := s.bitpos } := { Underway.refl s with }
    exact ⟨_, he, .inl (hs.decodeEnded_of_fault _ _)⟩
  generalize codeStep s = o at hend
  cases hend with
  | goesOn hu hp =>
    have hw := hu.underway
    exact ⟨_, rfl, .inr ⟨{
      input := by rw [hw.input, hw.inLen]; exact h.input
      bitpos := by rw [hw.bitpos, hw.inLen]; exact hle
      width := by rw [hw.mcs]; exact h.width.trans hw.codeWidth
      phase := hp
      lzwFault := hw.lzwFault.trans h.lzwFault
      noEmptyEntry := hu.noEmptyEntry h.noEmptyEntry }, hw⟩⟩
  | faults hu kind _ info =>
    exact ⟨_, rfl, .inl (hu.underway.decodeEnded_of_fault kind info).of_afterFetch⟩
  | finishes hu =>
    exact ⟨_, rfl, .inl (hu.underway.decodeEnded_of_finish h.lzwFault).of_afterFetch⟩
  | emptySequence hu he =>
    exact absurd rfl (hu.noEmptyEntry h.noEmptyEntry _ (mem_of_readCell he))
  | noDecode hu hp => exact absurd hp (hu.phase_ne_idle h.phase)

/-- With fuel for the input left at `mcs + 1` bits a fetch, the decode ends (R185). -/
theorem runDecode_of_decodable {n : Nat} {s : State} (h : Decodable s)
    (hn : 8 * s.inLen < s.bitpos + n * (s.mcs + 1)) :
    ∃ t, runDecode n s = .next t ∧ DecodeEnded s t := by
  induction n generalizing s with
  | zero => have := h.bitpos; omega
  | succ n ih =>
    obtain ⟨u, hu, hend | ⟨hd, hw⟩⟩ := codeStep_of_decodable h
    · exact ⟨u, by simp [runDecode, hu, hend.phase], hend⟩
    · have hwidth := h.width
      have hbitpos : u.bitpos = s.bitpos + s.codeWidth := hw.bitpos
      have hinLen : u.inLen = s.inLen := hw.inLen
      have hmcs : u.mcs = s.mcs := hw.mcs
      rw [Nat.add_one_mul n] at hn
      obtain ⟨t, ht, hend⟩ := ih hd (by rw [hmcs]; omega)
      exact ⟨t, by simp [runDecode, hu, hd.phase, ht], (hend.of_underway hw).of_afterFetch⟩

/-- A decode that passes its checks ends, whatever the state was before (R171, R185). -/
theorem runDecode_enterDecode (mcs cts : Nat) (bytes : List Byte) {s : State} (hf : s.lzwFault = none) :
    ∃ t, runDecode (maxFetches mcs bytes.length) (enterDecode mcs cts bytes s) = .next t ∧
      DecodeEnded s t := by
  obtain ⟨t, ht, hend⟩ := runDecode_of_decodable (decodable_enterDecode mcs cts bytes hf)
    (n := maxFetches mcs bytes.length) (by simpa using lt_maxFetches_mul mcs bytes.length)
  exact ⟨t, ht, { hend with sameFr := { hend.sameFr with } }⟩

theorem decodeEnded_of_runDecode {mcs cts : Nat} {bytes : List Byte} {s t : State} (hf : s.lzwFault = none)
    (ht : runDecode (maxFetches mcs bytes.length) (enterDecode mcs cts bytes s) = .next t) :
    DecodeEnded s t := by
  obtain ⟨t', ht', hend⟩ := runDecode_enterDecode mcs cts bytes hf
  rw [ht] at ht'
  cases ht'
  exact hend

/-- Past its checks `LZW.DECODE` is its entry and its steps (R171). -/
theorem execLzwDecode_of_legal {mcs cts : Nat} {bytes : List Byte} {s : State} (hf : s.lzwFault = none)
    (hc : legalConfig s.params mcs cts = true) (hb : s.params.inMax.allows bytes.length = true) :
    execLzwDecode mcs cts bytes s =
      runDecode (maxFetches mcs bytes.length) (enterDecode mcs cts bytes s) := by
  unfold execLzwDecode
  rw [unlessFaulted_of_none (by exact hf)]
  simp [hc, hb]

/-- Settles O45: every decode ends within the bound of R185, and what it leaves is kept from step to step. -/
theorem decodeEndsWithoutReaderOrTable : Obligations.DecodeEndsWithoutReaderOrTable := by
  intro mcs cts bytes s hf hc hb
  obtain ⟨t, ht, hend⟩ := runDecode_enterDecode mcs cts bytes hf
  obtain ⟨hbr, hct, hph, hfr, hpar, hhost, href, hans⟩ := hend
  exact ⟨t, (execLzwDecode_of_legal hf hc hb).trans ht, hbr, hct, hph, hfr, hpar, hhost, href, hans⟩

end Sys2Proof.Machine
end

section
/-! What an operation of either engine can do, said once (spec/40_bitreader.md, 41_codetable.md, 43_frame_reassembler.md), and from it the frames and the marks that only reset clears: settles O11. -/

namespace Sys2Proof.Machine

/-! ### What an operation of the LZW engine can do -/

/-- What an operation of the LZW engine performs before it answers OK, a decode excepted. -/
inductive Performs (s : State) : State → Prop
  | nothing : Performs s s
  | loads (bytes : List Byte) (hb : s.params.inMax.allows bytes.length = true) :
      Performs s (loadInput bytes s)
  | reads (w : Nat) (hw : s.bitpos + w ≤ 8 * s.inLen) : Performs s { s with bitpos := s.bitpos + w }
  | seeds (mcs cts : Nat) (hc : legalConfig s.params mcs cts = true) : Performs s (initTable mcs cts s)
  | inserts {ws : List SymWord} {seq : List Symbol} (hct : s.ctValid = true)
      (hs : symbolsOfWords ws = some seq) (hk : s.params.keyMax.allows (s.maxKey + 1) = true)
      (hl : s.params.seqMax.allows seq.length = true) :
      Performs s (writeDict (s.maxKey + 1) seq { s with maxKey := s.maxKey + 1 })

/-- A result of symbols is an entry of the table. -/
def FromTable (s : State) (v : Result) : Prop := ∀ seq, v = .symbols seq → ∃ k, readDict s k = some seq

/-- How an operation of the LZW engine on `s` can end (R17). -/
inductive LzwAnswer (s : State) : State → Prop
  | refused (reason : RefuseReason) : LzwAnswer s (enterRefusal .lzw reason s)
  | faulted (hf : s.lzwFault = none) (kind : FaultKind) (hk : kind ∈ kindsOf .lzw) (info : Nat) :
      LzwAnswer s (enterFault .lzw kind info s)
  | performed (hf : s.lzwFault = none) {u : State} (hu : Performs s u) (v : Result)
      (hv : FromTable s v) : LzwAnswer s { u with response := some ⟨.ok, 0, v⟩ }
  | decoded (hf : s.lzwFault = none) {mcs cts : Nat} {bytes : List Byte} {t : State}
      (hc : legalConfig s.params mcs cts = true) (hb : s.params.inMax.allows bytes.length = true)
      (ht : runDecode (maxFetches mcs bytes.length) (enterDecode mcs cts bytes s) = .next t) :
      LzwAnswer s t

section Lzw

variable {s t : State}

theorem lzwAnswer_of_refuse {reason : RefuseReason} (h : refuse .lzw reason s = .next t) :
    LzwAnswer s t := by
  cases h; exact .refused reason

theorem lzwAnswer_of_raise {kind : FaultKind} {info : Nat} (hf : s.lzwFault = none)
    (hk : kind ∈ kindsOf .lzw) (h : raise .lzw kind info s = .next t) : LzwAnswer s t := by
  cases h; exact .faulted hf kind hk info

theorem lzwAnswer_of_ok {u : State} {v : Result} (hf : s.lzwFault = none) (hu : Performs s u)
    (hv : FromTable s v) (h : ok v u = .next t) : LzwAnswer s t := by
  cases h; exact .performed hf hu v hv

/-- The first check of every operation refuses or goes on (R242). -/
theorem lzwAnswer_of_unlessFaulted {go : StepOutcome} (h : unlessFaulted .lzw s go = .next t)
    (hgo : s.lzwFault = none → go = .next t → LzwAnswer s t) : LzwAnswer s t := by
  by_cases hf : s.lzwFault = none
  · rw [unlessFaulted_of_none (by exact hf)] at h
    exact hgo hf h
  · rw [unlessFaulted_of_fault (by exact hf)] at h
    exact lzwAnswer_of_refuse h

theorem lzwAnswer_of_execBrLoad {bytes : List Byte} (h : execBrLoad bytes s = .next t) :
    LzwAnswer s t := by
  refine lzwAnswer_of_unlessFaulted h fun hf h => ?_
  split at h
  next hb => exact lzwAnswer_of_ok hf (.loads bytes hb) (by rintro _ ⟨⟩) h
  next => exact lzwAnswer_of_raise hf (capacityExceeded_mem .lzw) h

theorem lzwAnswer_of_execBrRead {width : Nat} (h : execBrRead width s = .next t) :
    LzwAnswer s t := by
  refine lzwAnswer_of_unlessFaulted h fun hf h => ?_
  split at h
  · exact lzwAnswer_of_refuse h
  · split at h
    · exact lzwAnswer_of_refuse h
    · obtain rfl | ⟨hw, v, h⟩ := consumeBits_next h
      · exact .faulted hf _ truncatedInput_mem _
      · exact lzwAnswer_of_ok hf (.reads width hw) (by rintro _ ⟨⟩) h

theorem lzwAnswer_of_execCtInit {mcs cts : Nat} (h : execCtInit mcs cts s = .next t) :
    LzwAnswer s t := by
  refine lzwAnswer_of_unlessFaulted h fun hf h => ?_
  split at h
  next hc => exact lzwAnswer_of_ok hf (.seeds mcs cts hc) (by rintro _ ⟨⟩) h
  next => exact lzwAnswer_of_refuse h

theorem lzwAnswer_of_execCtLookup {code : Nat} (h : execCtLookup code s = .next t) :
    LzwAnswer s t := by
  refine lzwAnswer_of_unlessFaulted h fun hf h => ?_
  split at h
  · exact lzwAnswer_of_refuse h
  · split at h
    next => exact lzwAnswer_of_raise hf decodeProtocolViolation_mem h
    next seq hseq =>
      refine lzwAnswer_of_ok hf .nothing (fun l hl => ⟨code, ?_⟩) h
      cases hl; exact hseq

theorem lzwAnswer_of_execCtHas {code : Nat} (h : execCtHas code s = .next t) : LzwAnswer s t := by
  refine lzwAnswer_of_unlessFaulted h fun hf h => ?_
  split at h
  · exact lzwAnswer_of_refuse h
  · exact lzwAnswer_of_ok hf .nothing (by rintro _ ⟨⟩) h

theorem lzwAnswer_of_execCtInsert {words : List SymWord} (h : execCtInsert words s = .next t) :
    LzwAnswer s t := by
  refine lzwAnswer_of_unlessFaulted h fun hf h => ?_
  split at h
  · exact lzwAnswer_of_refuse h
  next hct =>
    split at h
    · exact lzwAnswer_of_refuse h
    next seq hs =>
      obtain ⟨-, he⟩ | ⟨-, -, he⟩ | ⟨hk, hl, he⟩ := insertNext_cases seq s (ok .nothing) <;>
        rw [he] at h
      · exact lzwAnswer_of_raise hf (capacityExceeded_mem .lzw) h
      · exact lzwAnswer_of_raise hf (capacityExceeded_mem .lzw) h
      · exact lzwAnswer_of_ok hf (.inserts (by simpa using hct) hs hk hl) (by rintro _ ⟨⟩) h

theorem lzwAnswer_of_execLzwDecode {mcs cts : Nat} {bytes : List Byte}
    (h : execLzwDecode mcs cts bytes s = .next t) : LzwAnswer s t := by
  refine lzwAnswer_of_unlessFaulted h fun hf h => ?_
  split at h
  · exact lzwAnswer_of_refuse h
  next hc =>
    split at h
    · exact lzwAnswer_of_raise hf (capacityExceeded_mem .lzw) h
    next hb => exact .decoded hf (by simpa using hc) (by simpa using hb) h

theorem lzwAnswer_of_exec {i : Instr} (hi : isCodeWord i = false) (he : engineOfInstr i = .lzw)
    (h : exec i s = .next t) : LzwAnswer s t := by
  cases i with
  | brLoad bytes => exact lzwAnswer_of_execBrLoad h
  | brRead width => exact lzwAnswer_of_execBrRead h
  | ctInit mcs cts => exact lzwAnswer_of_execCtInit h
  | ctLookup code => exact lzwAnswer_of_execCtLookup h
  | ctHas code => exact lzwAnswer_of_execCtHas h
  | ctInsert words => exact lzwAnswer_of_execCtInsert h
  | lzwDecode mcs cts bytes => exact lzwAnswer_of_execLzwDecode h
  | frAppend _ | frHasfg | frSwg | frTakeg | frTakef | frClear | bStart | bEnd | bData _ => cases he
  | cwWiden _ _ _ | cwClear _ _ | cwEoi _ _ | cwPresent _ _ | cwAbsent _ _ => cases hi

end Lzw

/-! ### What an operation of the FR engine can do -/

/-- How an operation of the FR engine on `s` can end: a buffer it leaves passes no capacity that the buffer before did not pass, and it answers no symbols (R212 to R217). -/
inductive FrAnswer (s : State) : State → Prop
  | refused (reason : RefuseReason) : FrAnswer s (enterRefusal .fr reason s)
  | faulted (hf : s.frFault = none) (kind : FaultKind) (hk : kind ∈ kindsOf .fr) (info : Nat) :
      FrAnswer s (enterFault .fr kind info s)
  | performed (hf : s.frFault = none) (buf : List Byte)
      (hb : s.params.bufMax.allows s.frbuf.length = true → s.params.bufMax.allows buf.length = true)
      (v : Result) (hv : resultFits v = true) :
      FrAnswer s { s with frbuf := buf, response := some ⟨.ok, 0, v⟩ }

section Fr

variable {s t : State}

/-- The first check of every operation refuses or goes on (R242). -/
theorem frAnswer_of_unlessFaulted {go : StepOutcome} (h : unlessFaulted .fr s go = .next t)
    (hgo : s.frFault = none → go = .next t → FrAnswer s t) : FrAnswer s t := by
  by_cases hf : s.frFault = none
  · rw [unlessFaulted_of_none (by exact hf)] at h
    exact hgo hf h
  · rw [unlessFaulted_of_fault (by exact hf)] at h
    cases h; exact .refused _

/-- A part of the buffer stays, and the operation answers OK. -/
theorem frAnswer_of_ok_drop {n : Nat} {v : Result} (hf : s.frFault = none) (hv : resultFits v = true)
    (h : ok v { s with frbuf := s.frbuf.drop n } = .next t) : FrAnswer s t := by
  cases h
  exact .performed hf _ (Capacity.allows_mono (by simp)) v hv

theorem frAnswer_of_arrive {bytes : List Byte} (h : arrive bytes s = .next t) : FrAnswer s t := by
  obtain ⟨-, he⟩ | ⟨hf, -, he⟩ | ⟨hf, hb, he⟩ := arrive_cases bytes s <;> rw [he] at h <;> cases h
  · exact .refused _
  · exact .faulted hf _ (capacityExceeded_mem .fr) _
  · exact .performed hf _ (fun _ => by simpa using hb) _ rfl

theorem frAnswer_of_execFrTakef (h : execFrTakef s = .next t) : FrAnswer s t := by
  refine frAnswer_of_unlessFaulted h fun hf h => ?_
  split at h
  · cases h; exact .faulted hf _ (by decide) _
  · exact frAnswer_of_ok_drop hf rfl h

theorem frAnswer_of_exec {i : Instr} (he : engineOfInstr i = .fr) (h : exec i s = .next t) :
    FrAnswer s t := by
  cases i with
  | frAppend _ | bStart | bEnd | bData _ => exact frAnswer_of_arrive h
  | frHasfg | frSwg =>
    exact frAnswer_of_unlessFaulted h fun hf h => frAnswer_of_ok_drop (n := 0) hf rfl h
  | frTakeg => exact frAnswer_of_unlessFaulted h fun hf h => frAnswer_of_ok_drop hf rfl h
  | frTakef => exact frAnswer_of_execFrTakef h
  | frClear =>
    refine frAnswer_of_unlessFaulted h fun hf h => ?_
    cases h
    exact .performed hf [] (Capacity.allows_mono (Nat.zero_le _)) _ rfl
  | brLoad _ | brRead _ | ctInit _ _ | ctLookup _ | ctHas _ | ctInsert _ | lzwDecode _ _ _
  | cwWiden _ _ _ | cwClear _ _ | cwEoi _ _ | cwPresent _ _ | cwAbsent _ _ => cases he

end Fr

/-! ### The frames: the other engine's part stays (R20) -/

section Frames

variable {s t : State}

theorem SameLzw.refl (s : State) : SameLzw s s := by constructor <;> rfl

theorem Performs.sameFr (h : Performs s t) : SameFr s t := by
  cases h <;> exact ⟨rfl, rfl, rfl⟩

theorem LzwAnswer.sameFr (h : LzwAnswer s t) : SameFr s t := by
  cases h with
  | refused | faulted => exact ⟨rfl, rfl, rfl⟩
  | performed _ hu => exact { hu.sameFr with }
  | decoded hf _ _ ht => exact (decodeEnded_of_runDecode hf ht).sameFr

theorem CodeRun.sameFr (h : CodeRun s t) : SameFr s t := by
  cases h with
  | goesOn hu => exact hu.sameFr
  | faults _ _ hu | finishes hu => exact { hu.sameFr with }

theorem FrAnswer.sameLzw (h : FrAnswer s t) : SameLzw s t := by
  cases h <;> exact { SameLzw.refl s with }

end Frames

/-! ### The marks that only reset clears -/

/-- Fault records and refused flags of `s` stand in `t` (R32, R33, R42, R43). -/
structure KeepsMarks (s t : State) : Prop where
  lzwFault : ∀ r, s.lzwFault = some r → t.lzwFault = some r
  frFault : ∀ r, s.frFault = some r → t.frFault = some r
  lzwRefused : s.lzwRefused = true → t.lzwRefused = true
  frRefused : s.frRefused = true → t.frRefused = true

section Marks

variable {s t : State}

theorem KeepsMarks.refl (s : State) : KeepsMarks s s := ⟨fun _ h => h, fun _ h => h, id, id⟩

theorem keepsMarks_enterRefusal (e : Engine) (reason : RefuseReason) (s : State) :
    KeepsMarks s (enterRefusal e reason s) := by
  cases e with
  | lzw => exact { KeepsMarks.refl s with lzwRefused := fun _ => rfl }
  | fr => exact { KeepsMarks.refl s with frRefused := fun _ => rfl }

/-- Where no record is there yet, leaving the FR engine and the refused flag alone keeps every mark. -/
theorem keepsMarks_of_sameFr (hf : s.lzwFault = none) (hfr : SameFr s t)
    (hr : t.lzwRefused = s.lzwRefused) : KeepsMarks s t where
  lzwFault _ h := by rw [hf] at h; cases h
  frFault _ h := hfr.frFault ▸ h
  lzwRefused h := hr.trans h
  frRefused h := hfr.frRefused ▸ h

theorem Performs.lzwRefused_eq (h : Performs s t) : t.lzwRefused = s.lzwRefused := by
  cases h <;> rfl

theorem LzwAnswer.keepsMarks (h : LzwAnswer s t) : KeepsMarks s t := by
  have hfr := h.sameFr
  cases h with
  | refused reason => exact keepsMarks_enterRefusal .lzw reason s
  | faulted hf => exact keepsMarks_of_sameFr hf hfr rfl
  | performed hf hu => exact keepsMarks_of_sameFr hf hfr hu.lzwRefused_eq
  | decoded hf _ _ ht =>
    exact keepsMarks_of_sameFr hf hfr (decodeEnded_of_runDecode hf ht).lzwRefused

theorem FrAnswer.keepsMarks (h : FrAnswer s t) : KeepsMarks s t := by
  cases h with
  | refused reason => exact keepsMarks_enterRefusal .fr reason s
  | faulted hf => exact { KeepsMarks.refl s with frFault := fun _ h => by rw [hf] at h; cases h }
  | performed => exact { KeepsMarks.refl s with }

theorem CodeRun.keepsMarks (hf : s.lzwFault = none) (h : CodeRun s t) : KeepsMarks s t := by
  refine keepsMarks_of_sameFr hf h.sameFr ?_
  cases h with
  | goesOn hu | faults _ _ hu | finishes hu => exact hu.lzwRefused

/-- Between operations there is no code word to run (R27, R90). -/
theorem exec_codeWord_of_idle {i : Instr} (hi : isCodeWord i = true) (hp : s.phase = .idle) :
    exec i s = .refused .noDecodeInProgress := by
  cases i with
  | cwWiden _ _ _ => simp [exec, execCwWiden, hp]
  | cwClear _ _ => simp [exec, execCwClear, hp]
  | cwEoi _ _ => simp [exec, execCwEoi, hp]
  | cwPresent _ _ => simp [exec, execCwPresent, hp]
  | cwAbsent _ _ => simp [exec, execCwAbsent, hp]
  | _ => cases hi

/-- An instruction that runs between operations is answered by its engine. -/
theorem answer_of_exec {i : Instr} (hp : s.phase = .idle) (h : exec i s = .next t) :
    LzwAnswer s t ∨ FrAnswer s t := by
  cases hi : isCodeWord i with
  | true => rw [exec_codeWord_of_idle hi hp] at h; cases h
  | false =>
    cases he : engineOfInstr i with
    | lzw => exact .inl (lzwAnswer_of_exec hi he h)
    | fr => exact .inr (frAnswer_of_exec he h)

/-- A command or a byte of the frame stream, between operations, is answered by its engine (R240, R241). -/
theorem answer_of_issue {x : HostInput} (hp : s.phase = .idle) (hx : ∀ target, x ≠ .rst target)
    (h : issue x s = .next t) : LzwAnswer s t ∨ FrAnswer s t := by
  cases x with
  | command w p =>
    simp only [issue, issueCommand] at h
    split at h
    · exact answer_of_exec hp h
    · obtain ⟨reason, he⟩ := refuseUnmatched_cases w s
      rw [he] at h
      cases h
      cases engineOf w with
      | lzw => exact .inl (.refused reason)
      | fr => exact .inr (.refused reason)
  | frameByte b => exact answer_of_exec hp h
  | rst target => exact absurd rfl (hx target)

theorem codeStep_keepsMarks (hf : s.lzwFault = none) (h : codeStep s = .next t) : KeepsMarks s t := by
  obtain ⟨p, rfl⟩ | ⟨-, hr⟩ := codeStep_cases h
  · exact keepsMarks_of_sameFr hf ⟨rfl, rfl, rfl⟩ rfl
  · exact { hr.keepsMarks (s := afterFetch s) hf with }

end Marks

/-- Settles O11: an operation writes a record only where there is none, and a refusal only sets its flag; a code word runs only on an unfaulted engine, by the invariant. -/
theorem faultsAndRefusedFlagsStayUntilReset : Obligations.FaultsAndRefusedFlagsStayUntilReset := by
  intro s t hinv h hno
  have hk : KeepsMarks s t := by
    by_cases hp : s.phase = .idle
    · cases hh : s.host with
      | nil =>
        rw [step_wait hp hh] at h
        cases h; exact .refl s
      | cons x rest =>
        rw [step_input hp hh] at h
        have hx : ∀ target, x ≠ .rst target := fun target hx => hno target rest hp (hx ▸ hh)
        obtain ha | ha := answer_of_issue (by exact hp) hx h
        · exact { ha.keepsMarks with }
        · exact { ha.keepsMarks with }
    · rw [step_running hp] at h
      obtain ⟨-, -, hf, -⟩ := hinv.decode hp
      exact codeStep_keepsMarks hf h
  obtain ⟨hlf, hff, hlr, hfr⟩ := hk
  exact ⟨hlf, hff, hlr, hfr⟩

end Sys2Proof.Machine
end

section
/-! The invariant: it holds after reset, and every operation on the state keeps it (spec/10_state.md): settles O12, O58, O59. -/

namespace Sys2Proof.Machine

/-! ### Capacities and codes -/

theorem Capacity.allows_zero (c : Capacity) : c.allows 0 = true := by
  cases c <;> simp [Capacity.allows]

/-- What a capacity allows every larger one allows. -/
theorem allows_of_capacityLe {c d : Capacity} {n : Nat} (hcd : capacityLe c d = true)
    (hn : c.allows n = true) : d.allows n = true := by
  cases c <;> cases d <;> simp [capacityLe, Capacity.allows] at *; omega

theorem belowCodes_zero (c : Capacity) : belowCodes c 0 = true := by
  cases c <;> simp [belowCodes]

/-- A code of an allowed width is in the range of `cur` and `prev` (R26). -/
theorem belowCodes_of_lt {m : Capacity} {c w : Nat} (hw : m.allows w = true) (hc : c < 2 ^ w) :
    belowCodes m c = true := by
  cases m with
  | unbounded => rfl
  | atMost k =>
    simp only [Capacity.allows, decide_eq_true_eq] at hw
    exact decide_eq_true (hc.trans_le (Nat.pow_le_pow_right (by decide) hw))

/-! ### Symbols -/

/-- Under the constraints on the parameters the literals of a legal table have symbol words (R107, R142). -/
theorem symbolFits_of_mem_freshDict {p : Params} {mcs cts : Nat} {e : Nat × List Symbol} {x : Symbol}
    (hp : paramsWf p = true) (hc : legalConfig p mcs cts = true) (he : e ∈ freshDict mcs cts)
    (hx : x ∈ e.2) : symbolFits x = true := by
  obtain ⟨-, hcts, -, -⟩ := (legalConfig_iff p mcs cts).1 hc
  simp only [paramsWf, Bool.and_eq_true] at hp
  have hle : cts ≤ 2 ^ Config.idxW := of_decide_eq_true (allows_of_capacityLe hp.2 hcts)
  simp only [freshDict, List.mem_append, List.mem_map, List.mem_range, List.mem_cons,
    List.not_mem_nil, or_false] at he
  rcases he with ⟨i, hi, rfl⟩ | rfl | rfl
  · obtain rfl := List.mem_singleton.1 hx
    exact decide_eq_true (hi.trans_le hle)
  · obtain rfl := List.mem_singleton.1 hx; rfl
  · obtain rfl := List.mem_singleton.1 hx; rfl

theorem symbolFits_of_symbolOfWord {w : SymWord} {x : Symbol} (h : symbolOfWord w = some x) :
    symbolFits x = true := by
  unfold symbolOfWord at h
  split at h
  next hw => cases h; exact decide_eq_true hw
  next =>
    split at h
    · cases h; rfl
    · split at h <;> cases h
      rfl

theorem symbolFits_of_symbolsOfWords {ws : List SymWord} {seq : List Symbol}
    (h : symbolsOfWords ws = some seq) : ∀ x ∈ seq, symbolFits x = true := by
  induction ws generalizing seq with
  | nil => cases h; nofun
  | cons w ws ih =>
    simp only [symbolsOfWords] at h
    split at h
    next x xs hx hxs =>
      cases h
      intro y hy
      rcases List.mem_cons.1 hy with rfl | hy
      · exact symbolFits_of_symbolOfWord hx
      · exact ih hxs y hy
    next => cases h

/-! ### After reset (R50) -/

theorem inv_resetWith {p : Params} (hp : paramsWf p = true) (h : List HostInput) :
    (State.resetWith p h).Inv where
  params := hp
  input := ⟨rfl, le_rfl, Capacity.allows_zero _⟩
  dictWf := List.Pairwise.nil
  table := nofun
  decode hne := absurd rfl hne
  codes := ⟨Capacity.allows_zero _, belowCodes_zero _, belowCodes_zero _⟩
  sequences := ⟨rfl, Capacity.allows_zero _, Capacity.allows_zero _, nofun, nofun⟩
  faults := ⟨nofun, nofun⟩
  response := nofun

/-! ### Each operation on the state keeps the invariant -/

section Inv

variable {s u : State} (h : s.Inv)
include h

/-- The symbols of an entry have symbol words (R107). -/
theorem State.Inv.resultFits {k : Nat} {seq : List Symbol} (hk : readDict s k = some seq) :
    resultFits (.symbols seq) = true := by
  obtain ⟨-, -, -, -, hfit⟩ := h.sequences
  exact List.all_eq_true.2 (hfit _ (mem_of_readCell hk))

theorem State.Inv.symbolFits_of_drawn {seq : List Symbol} (hd : Drawn s seq) :
    ∀ x ∈ seq, symbolFits x = true := by
  obtain ⟨-, -, -, -, hfit⟩ := h.sequences
  intro x hx
  obtain ⟨e, he, hxe⟩ := hd x hx
  exact hfit e he x hxe

/-- During a decode no entry of the table is empty: the fresh ones have one symbol, the derived ones at least two (R186). -/
theorem State.Inv.noEmptyEntry (hp : s.phase ≠ .idle) : NoEmptyEntry s := by
  obtain ⟨-, hct, -, -, hderived⟩ := h.decode hp
  obtain ⟨-, hfresh, -⟩ := h.table hct
  intro e he hnil
  rw [← List.take_append_drop (s.cts + 2) s.dict, List.mem_append, hfresh] at he
  rcases he with he | he
  · simpa [hnil] using length_of_mem_freshDict he
  · simpa [hnil] using hderived e he

/-- No key of a valid table is above `max_key` (R30, R146). -/
theorem State.Inv.key_le_maxKey (hct : s.ctValid = true) : ∀ e ∈ s.dict, e.1 ≤ s.maxKey := by
  obtain ⟨hc, hfresh, hkeys, hmax, -, -⟩ := h.table hct
  obtain ⟨-, -, -, hcts⟩ := (legalConfig_iff _ _ _).1 hc
  rw [eoiKey_eq] at hmax hkeys
  intro e he
  rw [← List.take_append_drop (s.cts + 2) s.dict, List.mem_append, hfresh] at he
  rcases he with he | he
  · simp only [freshDict, List.mem_append, List.mem_map, List.mem_range, List.mem_cons,
      List.not_mem_nil, or_false] at he
    rcases he with ⟨i, hi, rfl⟩ | rfl | rfl
    · dsimp only; omega
    · simp only [clrKey_eq]; omega
    · simpa using hmax
  · have hk := List.mem_map_of_mem (f := Prod.fst) he
    rw [hkeys, List.mem_range'_1] at hk
    omega

theorem State.Inv.ok {v : Result} (hv : Machine.resultFits v = true) :
    { s with response := some ⟨.ok, 0, v⟩ : State }.Inv :=
  { h with
    response := by
      rintro r ⟨⟩
      exact ⟨rfl, hv, fun hne => absurd rfl hne, fun _ => rfl⟩ }

theorem State.Inv.enterRefusal (e : Engine) (reason : RefuseReason) :
    (enterRefusal e reason s).Inv := by
  cases e <;> exact
    { h with
      response := by
        rintro r ⟨⟩
        exact ⟨rfl, rfl, fun _ => rfl, fun _ => rfl⟩ }

/-- Without reader, table and phase nothing is asked of them. -/
theorem State.Inv.quiesce :
    { s with brValid := false, ctValid := false, phase := .idle : State }.Inv :=
  { h with
    table := nofun
    decode := fun hne => absurd rfl hne
    faults := ⟨fun r hr => ⟨(h.faults.1 r hr).1, rfl, rfl, rfl⟩, h.faults.2⟩ }

theorem State.Inv.enterFault (e : Engine) {kind : FaultKind} (hk : kind ∈ kindsOf e) (info : Nat) :
    (enterFault e kind info s).Inv := by
  have hresp : State.ResponseOk (Machine.enterFault e kind info s) := by
    intro r hr
    cases e <;> cases hr <;>
      exact ⟨by simp [statusProduced, hk], rfl, fun _ => rfl, fun hne => absurd rfl (hne kind)⟩
  cases e with
  | lzw =>
    exact { h.quiesce with
      decode := fun hne => absurd rfl hne
      faults := ⟨by rintro r ⟨⟩; exact ⟨hk, rfl, rfl, rfl⟩, h.faults.2⟩
      response := hresp }
  | fr =>
    exact { h with
      faults := ⟨h.faults.1, by rintro r ⟨⟩; exact hk⟩
      response := hresp }

theorem State.Inv.loadInput (hf : s.lzwFault = none) {bs : List Byte}
    (hb : s.params.inMax.allows bs.length = true) : (loadInput bs s).Inv :=
  { h with
    input := ⟨by simp [List.range_eq_range'], Nat.zero_le _, hb⟩
    decode := fun hp => by
      obtain ⟨-, hct, -, hw, hd⟩ := h.decode hp
      exact ⟨rfl, hct, hf, hw, hd⟩
    faults := ⟨fun r hr => by simp [hf] at hr, h.faults.2⟩ }

theorem State.Inv.initTable (hf : s.lzwFault = none) {mcs cts : Nat}
    (hc : legalConfig s.params mcs cts = true) (hw : s.phase ≠ .idle → mcs + 1 ≤ s.codeWidth) :
    (initTable mcs cts s).Inv := by
  obtain ⟨-, -, hkey, hcts⟩ := (legalConfig_iff _ _ _).1 hc
  have hparams := h.params
  simp only [paramsWf, Bool.and_eq_true] at hparams
  have hdrop : (freshDict mcs cts).drop (cts + 2) = [] := List.drop_of_length_le (by simp)
  exact { h with
    dictWf := freshDict_wf hcts
    table := fun _ => ⟨hc, List.take_of_length_le (by simp), by simp [hdrop], by simp, by simpa using hkey,
      fun e he => by rw [length_of_mem_freshDict he]; exact hparams.1.2⟩
    decode := fun hp => by
      obtain ⟨hbr, -⟩ := h.decode hp
      exact ⟨hbr, rfl, hf, hw hp, by simp [hdrop]⟩
    sequences := by
      obtain ⟨hlen, hout, hbuf, hfit, -⟩ := h.sequences
      exact ⟨hlen, hout, hbuf, hfit, fun e he x hx => symbolFits_of_mem_freshDict h.params hc he hx⟩
    faults := ⟨fun r hr => by simp [hf] at hr, h.faults.2⟩ }

theorem State.Inv.setBitpos {b : Nat} (hb : b ≤ 8 * s.inLen) : { s with bitpos := b : State }.Inv :=
  { h with input := ⟨h.input.1, hb, h.input.2.2⟩ }

theorem State.Inv.setPrev {c : Nat} (hc : belowCodes s.params.cwMax c = true) :
    { s with prev := c : State }.Inv :=
  { h with codes := ⟨h.codes.1, h.codes.2.1, hc⟩ }

theorem State.Inv.setCur {c : Nat} (hc : belowCodes s.params.cwMax c = true) :
    { s with cur := c : State }.Inv :=
  { h with codes := ⟨h.codes.1, hc, h.codes.2.2⟩ }

theorem State.Inv.setPhase (hp : s.phase ≠ .idle) (ph : Phase) : { s with phase := ph : State }.Inv :=
  { h with
    decode := fun _ => h.decode hp
    faults := ⟨fun r hr => by
      obtain ⟨-, -, hf, -⟩ := h.decode hp
      simp [hf] at hr, h.faults.2⟩ }

theorem State.Inv.setCodeWidth {w : Nat} (hw : s.params.cwMax.allows w = true) (hle : s.codeWidth ≤ w) :
    { s with codeWidth := w : State }.Inv :=
  { h with
    decode := fun hp => by
      obtain ⟨hbr, hct, hf, hmin, hd⟩ := h.decode hp
      exact ⟨hbr, hct, hf, hmin.trans hle, hd⟩
    codes := ⟨hw, h.codes.2⟩ }

theorem State.Inv.append {seq : List Symbol} (ho : s.params.outMax.allows (s.outLen + seq.length) = true)
    (hd : Drawn s seq) :
    { s with out := s.out ++ seq, outLen := s.outLen + seq.length : State }.Inv := by
  obtain ⟨hlen, -, hbuf, hout, hdict⟩ := h.sequences
  have hseq := h.symbolFits_of_drawn hd
  exact { h with
    sequences := ⟨by simp [hlen], ho, hbuf,
      fun x hx => (List.mem_append.1 hx).elim (hout x) (hseq x), hdict⟩ }

/-- A new entry stands behind every other (R150, R193). -/
theorem State.Inv.writeDict_next (hct : s.ctValid = true) (seq : List Symbol) :
    writeDict (s.maxKey + 1) seq { s with maxKey := s.maxKey + 1 } =
      { s with maxKey := s.maxKey + 1, dict := s.dict ++ [(s.maxKey + 1, seq)] } := by
  have hdict := writeCell_above seq fun e he => Nat.lt_succ_of_le (h.key_le_maxKey hct e he)
  simp only [writeDict, hdict]

theorem State.Inv.insert {seq : List Symbol} (hct : s.ctValid = true)
    (hk : s.params.keyMax.allows (s.maxKey + 1) = true) (hl : s.params.seqMax.allows seq.length = true)
    (hfit : ∀ x ∈ seq, symbolFits x = true) (hlen : s.phase ≠ .idle → 2 ≤ seq.length) :
    (writeDict (s.maxKey + 1) seq { s with maxKey := s.maxKey + 1 }).Inv := by
  have hwf := writeDict_wf (s.maxKey + 1) seq { s with maxKey := s.maxKey + 1 } h.dictWf
  rw [h.writeDict_next hct] at hwf ⊢
  obtain ⟨hc, hfresh, hkeys, hmax, -, hseqs⟩ := h.table hct
  have hle : s.cts + 2 ≤ s.dict.length := by
    have := congrArg List.length hfresh
    rw [List.length_take, freshDict_length] at this
    omega
  have hdrop : (s.dict ++ [(s.maxKey + 1, seq)]).drop (s.cts + 2) =
      s.dict.drop (s.cts + 2) ++ [(s.maxKey + 1, seq)] := List.drop_append_of_le_length hle
  have hcount : s.maxKey + 1 - eoiKey s.mcs = s.maxKey - eoiKey s.mcs + 1 := by omega
  have hnext : eoiKey s.mcs + 1 + (s.maxKey - eoiKey s.mcs) = s.maxKey + 1 := by omega
  exact { h with
    dictWf := hwf
    table := fun _ => by
      refine ⟨hc, (List.take_append_of_le_length hle).trans hfresh, ?_, hmax.trans (Nat.le_succ _), hk, ?_⟩
      · dsimp only
        rw [hdrop, List.map_append, hkeys, hcount, List.range'_1_concat, hnext]
        rfl
      · exact List.forall_mem_append.2 ⟨hseqs, List.forall_mem_singleton.2 hl⟩
    decode := fun hp => by
      obtain ⟨hbr, -, hf, hw, hd⟩ := h.decode hp
      refine ⟨hbr, hct, hf, hw, ?_⟩
      dsimp only
      rw [hdrop]
      exact List.forall_mem_append.2 ⟨hd, List.forall_mem_singleton.2 (hlen hp)⟩
    sequences := by
      obtain ⟨hlen, hout, hbuf, houtFit, hdictFit⟩ := h.sequences
      exact ⟨hlen, hout, hbuf, houtFit,
        List.forall_mem_append.2 ⟨hdictFit, List.forall_mem_singleton.2 hfit⟩⟩ }

theorem State.Inv.setFrbuf {buf : List Byte} (hb : s.params.bufMax.allows buf.length = true) :
    { s with frbuf := buf : State }.Inv := by
  obtain ⟨hlen, hout, -, hfit⟩ := h.sequences
  exact { h with sequences := ⟨hlen, hout, hb, hfit⟩ }

/-- The entry of a decode (R171). -/
theorem State.Inv.enterDecode (hp : s.phase = .idle) (hf : s.lzwFault = none) {mcs cts : Nat}
    {bytes : List Byte} (hc : legalConfig s.params mcs cts = true)
    (hb : s.params.inMax.allows bytes.length = true) : (enterDecode mcs cts bytes s).Inv := by
  have ht : (Machine.initTable mcs cts (Machine.loadInput bytes s)).Inv :=
    (h.loadInput hf hb).initTable hf hc fun hne => absurd hp hne
  obtain ⟨hcw, -⟩ := (legalConfig_iff _ _ _).1 hc
  obtain ⟨-, -, hbuf, -, hdict⟩ := ht.sequences
  have hdrop : (freshDict mcs cts).drop (cts + 2) = [] := List.drop_of_length_le (by simp)
  exact { ht with
    decode := fun _ => ⟨rfl, rfl, hf, le_rfl, by simp [hdrop]⟩
    codes := ⟨hcw, ht.codes.2⟩
    sequences := ⟨rfl, Capacity.allows_zero _, hbuf, nofun, hdict⟩
    faults := ⟨fun r hr => by simp [hf] at hr, h.faults.2⟩ }

/-! ### The run of a code word keeps the invariant -/

theorem Within.inv {c : Nat} (hp : s.phase ≠ .idle) (hc : belowCodes s.params.cwMax c = true)
    (hu : Within c s u) : u.Inv := by
  induction hu with
  | start => exact h
  | setsCur hu ih => exact ih.setCur (by rw [hu.underway.params]; exact hc)
  | restarts hu ih =>
    obtain ⟨-, hct, hf, hw, -⟩ := ih.decode (hu.phase_ne_idle hp)
    obtain ⟨hlegal, -⟩ := ih.table hct
    exact ih.initTable hf hlegal fun _ => hw
  | widens _ hw ih => exact ih.setCodeWidth hw (Nat.le_succ _)
  | appends _ ho hd ih => exact ih.append ho hd
  | inserts hu hk hl hread hx ih =>
    have hne := hu.phase_ne_idle hp
    obtain ⟨-, hct, -⟩ := ih.decode hne
    refine ih.insert hct hk hl (ih.symbolFits_of_drawn ((drawn_of_readDict hread).concat hx)) fun _ => ?_
    have hpos := List.length_pos_iff.2 (ih.noEmptyEntry hne _ (mem_of_readCell hread))
    simpa [Nat.succ_le_iff] using hpos
  | enters hu ph _ ih => exact ih.setPhase (hu.phase_ne_idle hp) ph

/-- The state after a fetch, wherever the cursor is left (R172, R175). -/
theorem State.Inv.afterFetch {b : Nat} (hb : b ≤ 8 * s.inLen) :
    { afterFetch s with bitpos := b : State }.Inv := by
  have hprev : belowCodes s.params.cwMax (if s.phase = .loop then s.cur else s.prev) = true := by
    split
    · exact h.codes.2.1
    · exact h.codes.2.2
  exact (h.setBitpos hb).setPrev hprev

theorem State.Inv.finish :
    { s with
      brValid := false, ctValid := false, phase := .idle
      response := some ⟨.ok, 0, .symbols s.out⟩ : State }.Inv := by
  obtain ⟨-, -, -, hout, -⟩ := h.sequences
  exact h.quiesce.ok (v := .symbols s.out) (List.all_eq_true.2 hout)

theorem inv_of_codeStep {t : State} (hp : s.phase ≠ .idle) (ht : codeStep s = .next t) : t.Inv := by
  obtain he | ⟨c, hc, hle, hend⟩ := codeStep_ends h.input.1
  · rw [ht] at he
    cases he
    exact (h.afterFetch h.input.2.1).enterFault .lzw truncatedInput_mem s.bitpos
  · have hs : (afterFetch s).Inv := h.afterFetch hle
    have hcode : belowCodes s.params.cwMax c = true := belowCodes_of_lt h.codes.1 hc
    rw [ht] at hend
    cases hend with
    | goesOn hu => exact hu.inv hs hp hcode
    | faults hu kind hk info => exact (hu.inv hs hp hcode).enterFault .lzw hk info
    | finishes hu => exact (hu.inv hs hp hcode).finish

end Inv

theorem inv_of_runDecode {n : Nat} {s t : State} (h : s.Inv) (hp : s.phase ≠ .idle)
    (ht : runDecode n s = .next t) : t.Inv := by
  induction n generalizing s with
  | zero => cases ht; exact h
  | succ n ih =>
    unfold runDecode at ht
    cases hs : codeStep s with
    | fault f => simp [hs] at ht
    | refused r => simp [hs] at ht
    | next u =>
      simp only [hs] at ht
      have hu := inv_of_codeStep h hp hs
      split at ht
      next => cases ht; exact hu
      next hne => exact ih hu hne ht

/-! ### Operations, resets and the step -/

theorem Performs.inv {s u : State} (h : s.Inv) (hp : s.phase = .idle) (hf : s.lzwFault = none)
    (hu : Performs s u) : u.Inv := by
  cases hu with
  | nothing => exact h
  | loads bytes hb => exact h.loadInput hf hb
  | reads w hw => exact h.setBitpos hw
  | seeds mcs cts hc => exact h.initTable hf hc fun hne => absurd hp hne
  | inserts hct hs hk hl =>
    exact h.insert hct hk hl (symbolFits_of_symbolsOfWords hs) fun hne => absurd hp hne

theorem FromTable.resultFits {s : State} {v : Result} (h : s.Inv) (hv : FromTable s v) :
    resultFits v = true := by
  cases v with
  | symbols seq =>
    obtain ⟨k, hk⟩ := hv seq rfl
    exact h.resultFits hk
  | nothing | number _ | bit _ | bytes _ => rfl

theorem LzwAnswer.inv {s t : State} (h : s.Inv) (hp : s.phase = .idle) (ht : LzwAnswer s t) : t.Inv := by
  cases ht with
  | refused reason => exact h.enterRefusal .lzw reason
  | faulted _ kind hk info => exact h.enterFault .lzw hk info
  | performed hf hu v hv => exact (hu.inv h hp hf).ok (hv.resultFits h)
  | decoded hf hc hb ht => exact inv_of_runDecode (h.enterDecode hp hf hc hb) nofun ht

theorem FrAnswer.inv {s t : State} (h : s.Inv) (ht : FrAnswer s t) : t.Inv := by
  cases ht with
  | refused reason => exact h.enterRefusal .fr reason
  | faulted _ kind hk info => exact h.enterFault .fr hk info
  | performed _ buf hb v hv =>
    obtain ⟨-, -, hbuf, -⟩ := h.sequences
    exact (h.setFrbuf (hb hbuf)).ok hv

/-- A block reset leaves what a reset from power-on leaves (R50, R300). -/
theorem applyReset_block (s : State) :
    applyReset .block s = .next (State.resetWith s.params s.host) := rfl

theorem inv_of_applyReset {target : ResetTarget} {s t : State} (h : s.Inv)
    (ht : applyReset target s = .next t) : t.Inv := by
  have hreset : (State.resetWith s.params s.host).Inv := inv_resetWith h.params s.host
  cases target with
  | block => rw [applyReset_block] at ht; cases ht; exact hreset
  | engine e =>
    simp only [applyReset] at ht
    split at ht
    next =>
      obtain ⟨hlen, hout, hbuf, hfit⟩ := h.sequences
      cases e with
      | lzw =>
        cases ht
        exact { hreset with
          sequences := ⟨rfl, Capacity.allows_zero _, hbuf, nofun, nofun⟩
          faults := ⟨nofun, h.faults.2⟩ }
      | fr =>
        cases ht
        exact { h with
          sequences := ⟨hlen, hout, Capacity.allows_zero _, hfit⟩
          faults := ⟨h.faults.1, nofun⟩
          response := nofun }
    next => cases ht

theorem inv_of_issue {x : HostInput} {s t : State} (h : s.Inv) (hp : s.phase = .idle)
    (ht : issue x s = .next t) : t.Inv := by
  by_cases hx : ∃ target, x = .rst target
  · obtain ⟨target, rfl⟩ := hx
    exact inv_of_applyReset h ht
  · obtain ha | ha := answer_of_issue hp (not_exists.1 hx) ht
    · exact ha.inv h hp
    · exact ha.inv h

/-! ### The obligations -/

/-- Settles O12: the block reset is the reset from power-on, with the parameters and the host kept. -/
theorem resetLeavesTheValuesOfR50 : Obligations.ResetLeavesTheValuesOfR50 := by
  intro s rest hp hh
  refine ⟨State.resetWith s.params rest, ?_, rfl, rfl, ?_⟩
  · rw [step_input hp hh]
    exact applyReset_block { s with host := rest }
  · rintro u (rfl | rfl) <;> exact ⟨rfl, rfl, rfl, rfl, rfl, rfl, rfl, rfl, rfl, rfl, rfl, rfl⟩

/-- Settles O58: the memories and FRBUF are empty, nothing is valid, and no capacity shuts out 0. -/
theorem invariantHoldsAfterReset : Obligations.InvariantHoldsAfterReset :=
  ⟨inv_resetWith (by decide) [], fun _ h hp => inv_resetWith hp h⟩

/-- Settles O59, by the cases of the step: waiting, issuing the first input, running a code word. -/
theorem everyStepKeepsTheInvariant : Obligations.EveryStepKeepsTheInvariant := by
  intro s t hinv h
  by_cases hp : s.phase = .idle
  · cases hh : s.host with
    | nil =>
      rw [step_wait hp hh] at h
      cases h; exact hinv
    | cons x rest =>
      rw [step_input hp hh] at h
      exact inv_of_issue (s := { s with host := rest }) { hinv with } hp h
  · rw [step_running hp] at h
    exact inv_of_codeStep hinv hp h

end Sys2Proof.Machine
end

section
/-! Noninterference of the engines, by running two states side by side (spec/10_state.md R20): settles O56. -/

namespace Sys2Proof.Machine

/-! ### Two outcomes side by side -/

/-- Two runs of the same instruction end alike: in next states related by `R`, or in the same stop of the model. -/
inductive Alike (R : State → State → Prop) : StepOutcome → StepOutcome → Prop
  | next {t t' : State} (h : R t t') : Alike R (.next t) (.next t')
  | fault (f : Fault) : Alike R (.fault f) (.fault f)
  | refused (r : Refusal) : Alike R (.refused r) (.refused r)

theorem Alike.ite {R : State → State → Prop} {p : Prop} [Decidable p] {a b a' b' : StepOutcome}
    (ha : p → Alike R a a') (hb : ¬ p → Alike R b b') :
    Alike R (if p then a else b) (if p then a' else b') := by
  split
  · exact ha ‹_›
  · exact hb ‹_›

theorem Alike.exists_next {R : State → State → Prop} {o o' : StepOutcome} {t : State} (h : Alike R o o')
    (ho : o = .next t) : ∃ t', o' = .next t' ∧ R t t' := by
  subst ho
  cases h with
  | next h => exact ⟨_, rfl, h⟩

/-! ### The LZW engine beside another FR engine -/

/-- The LZW engine and the response of `s`, with the FR engine and the host of `x`. -/
def beside (x s : State) : State :=
  { s with frbuf := x.frbuf, frFault := x.frFault, frRefused := x.frRefused, host := x.host }

/-- The same with the response of `x`: how a state looks where nothing has answered yet. -/
def lzwInto (x s : State) : State := { beside x s with response := x.response }

theorem lzwInto_eq {s x : State} (h : SameLzw s x) (hp : s.params = x.params) : lzwInto x s = x := by
  cases h
  simp only [lzwInto, beside, *]

theorem sameLzw_beside (x s : State) : SameLzw s (beside x s) := { SameLzw.refl s with }

/-- How a code word ends in the two runs: with the same answer where the decode ends, without one where it goes on. -/
inductive CodeAlike (x : State) : State → State → Prop
  | ended {t : State} (hp : t.phase = .idle) : CodeAlike x t (beside x t)
  | goesOn {t : State} (hp : t.phase ≠ .idle) : CodeAlike x t (lzwInto x t)

theorem CodeAlike.sameLzw {x t t' : State} (h : CodeAlike x t t') : SameLzw t t' := by
  cases h with
  | ended => exact sameLzw_beside x t
  | goesOn => exact { SameLzw.refl t with }

/-- How an operation ends in the two runs: with the same answer. -/
def OpAlike (x t t' : State) : Prop := t' = beside x t

/-- A relation of the two runs that holds where a fault ends both. -/
def HoldsOnFaults (x : State) (R : State → State → Prop) : Prop :=
  ∀ kind info s, R (enterFault .lzw kind info s) (beside x (enterFault .lzw kind info s))

theorem opAlike_holdsOnFaults (x : State) : HoldsOnFaults x (OpAlike x) := fun _ _ _ => rfl

theorem codeAlike_holdsOnFaults (x : State) : HoldsOnFaults x (CodeAlike x) := fun _ _ _ => .ended rfl

section Lzw

variable {x s : State} {R : State → State → Prop}

@[simp] theorem readDict_lzwInto (x s : State) (k : Nat) : readDict (lzwInto x s) k = readDict s k := rfl

theorem alike_raise (hR : HoldsOnFaults x R) (kind : FaultKind) (info : Nat) (s : State) :
    Alike R (raise .lzw kind info s) (raise .lzw kind info (lzwInto x s)) :=
  .next (hR kind info s)

theorem alike_insertNext (hR : HoldsOnFaults x R) {seq : List Symbol} {go : State → StepOutcome}
    (hgo : ∀ u, Alike R (go u) (go (lzwInto x u))) :
    Alike R (insertNext seq s go) (insertNext seq (lzwInto x s) go) :=
  .ite (fun _ => alike_raise hR _ _ s) fun _ => .ite (fun _ => alike_raise hR _ _ s) fun _ =>
    hgo (writeDict (s.maxKey + 1) seq { s with maxKey := s.maxKey + 1 })

theorem alike_consumeBits (hR : HoldsOnFaults x R) {w : Nat} {go : Nat → State → StepOutcome}
    (hgo : ∀ v u, Alike R (go v u) (go v (lzwInto x u))) :
    Alike R (consumeBits w s go) (consumeBits w (lzwInto x s) go) := by
  refine .ite (fun _ => alike_raise hR _ _ s) fun _ => ?_
  cases hv : readBits s.input s.bitpos w with
  | none =>
    have hv' : readBits (lzwInto x s).input (lzwInto x s).bitpos w = none := hv
    simp only [hv']
    exact .fault _
  | some v =>
    have hv' : readBits (lzwInto x s).input (lzwInto x s).bitpos w = some v := hv
    simp only [hv']
    exact hgo v { s with bitpos := s.bitpos + w }

/-! ### The run of a code word -/

theorem alike_codeRaise (kind : FaultKind) (info : Nat) (s : State) :
    Alike (CodeAlike x) (raise .lzw kind info s) (raise .lzw kind info (lzwInto x s)) :=
  alike_raise (codeAlike_holdsOnFaults x) kind info s

theorem alike_appendOut {seq : List Symbol} {go : State → StepOutcome}
    (hgo : ∀ u, Alike (CodeAlike x) (go u) (go (lzwInto x u))) :
    Alike (CodeAlike x) (appendOut seq s go) (appendOut seq (lzwInto x s) go) :=
  .ite (fun _ => alike_codeRaise _ _ s) fun _ =>
    hgo { s with out := s.out ++ seq, outLen := s.outLen + seq.length }

theorem alike_widen {c : Nat} {go : State → StepOutcome}
    (hgo : ∀ u, Alike (CodeAlike x) (go u) (go (lzwInto x u))) :
    Alike (CodeAlike x) (widen c s go) (widen c (lzwInto x s) go) :=
  .ite (fun _ => .ite (fun _ => alike_codeRaise _ _ s) fun _ => hgo { s with codeWidth := s.codeWidth + 1 })
    fun _ => hgo s

theorem alike_finish (x s : State) : Alike (CodeAlike x) (finish s) (finish (lzwInto x s)) :=
  .next (.ended (t := { s with
    brValid := false, ctValid := false, phase := .idle
    response := some ⟨.ok, 0, .symbols s.out⟩ }) rfl)

theorem alike_expectClear (c : Nat) (x s : State) :
    Alike (CodeAlike x) (expectClear c s) (expectClear c (lzwInto x s)) :=
  .ite (fun _ => .next (.goesOn (t := { s with cur := c, phase := .first }) nofun))
    fun _ => alike_codeRaise _ _ s

theorem alike_firstCode (c : Nat) (x s : State) :
    Alike (CodeAlike x) (firstCode c s) (firstCode c (lzwInto x s)) := by
  unfold firstCode
  rw [readDict_lzwInto]
  cases readDict s c with
  | none => exact alike_codeRaise _ _ s
  | some seq =>
    exact alike_appendOut fun u => .next (.goesOn (t := { u with cur := c, phase := .loop }) nofun)

/-- The insertion that ends a LOOP step (R179, R180). -/
theorem alike_lastInsert (seq : List Symbol) (x s : State) :
    Alike (CodeAlike x) (insertNext seq s fun u => .next { u with phase := .loop })
      (insertNext seq (lzwInto x s) fun u => .next { u with phase := .loop }) :=
  alike_insertNext (codeAlike_holdsOnFaults x) fun u => .next (.goesOn (t := { u with phase := .loop }) nofun)

theorem alike_presentCode (c : Nat) (x s : State) :
    Alike (CodeAlike x) (presentCode c s) (presentCode c (lzwInto x s)) := by
  unfold presentCode
  rw [readDict_lzwInto]
  cases readDict s c with
  | none => exact alike_codeRaise _ _ s
  | some seq =>
    refine alike_appendOut fun u => ?_
    cases seq with
    | nil => exact .fault _
    | cons k _ =>
      have hprev : readDict (lzwInto x u) (lzwInto x u).prev = readDict u u.prev := rfl
      simp only [hprev]
      cases readDict u u.prev with
      | none => exact alike_codeRaise _ _ u
      | some p => exact alike_lastInsert _ x u

theorem alike_absentCode (x s : State) :
    Alike (CodeAlike x) (absentCode s) (absentCode (lzwInto x s)) := by
  have hprev : readDict (lzwInto x s) (lzwInto x s).prev = readDict s s.prev := rfl
  unfold absentCode
  rw [hprev]
  cases readDict s s.prev with
  | none => exact alike_codeRaise _ _ s
  | some p =>
    cases p with
    | nil => exact .fault _
    | cons k _ => exact alike_appendOut fun u => alike_lastInsert _ x u

/-- Each class, in each phase, is one of the pieces above. -/
theorem alike_execClass (cls : CwClass) (c w : Nat) (x s : State) :
    Alike (CodeAlike x) (execClass cls c w s) (execClass cls c w (lzwInto x s)) := by
  have hphase : (lzwInto x s).phase = s.phase := rfl
  cases cls with
  | clear =>
    simp only [execClass, execCwClear, hphase]
    cases s.phase with
    | idle => exact .refused _
    | expectClear => exact alike_expectClear c x s
    | first => exact alike_firstCode c x (initTable s.mcs s.cts s)
    | loop => exact alike_presentCode c x (initTable s.mcs s.cts { s with cur := c, phase := .loop })
  | eoi =>
    simp only [execClass, execCwEoi, hphase]
    cases s.phase with
    | idle => exact .refused _
    | expectClear => exact alike_expectClear c x s
    | first => exact alike_firstCode c x s
    | loop => exact alike_finish x { s with cur := c, phase := .loop }
  | present =>
    simp only [execClass, execCwPresent, hphase]
    cases s.phase with
    | idle => exact .refused _
    | expectClear => exact alike_expectClear c x s
    | first => exact alike_firstCode c x s
    | loop => exact alike_presentCode c x { s with cur := c, phase := .loop }
  | absent =>
    simp only [execClass, execCwAbsent, hphase]
    cases s.phase with
    | idle => exact .refused _
    | expectClear => exact alike_expectClear c x s
    | first => exact alike_codeRaise _ _ s
    | loop => exact alike_absentCode x { s with cur := c, phase := .loop }

theorem alike_execCwWiden (cls : CwClass) (c w : Nat) (x s : State) :
    Alike (CodeAlike x) (execCwWiden cls c w s) (execCwWiden cls c w (lzwInto x s)) := by
  have hphase : (lzwInto x s).phase = s.phase := rfl
  simp only [execCwWiden, hphase]
  cases s.phase with
  | idle => exact .refused _
  | expectClear => exact alike_execClass cls c w x s
  | first => exact alike_widen fun u => alike_execClass cls c w x u
  | loop => exact alike_widen (s := { s with cur := c, phase := .loop }) fun u => alike_execClass cls c w x u

theorem alike_runCode (c : Nat) (x s : State) :
    Alike (CodeAlike x) (runCode c s) (runCode c (lzwInto x s)) :=
  .ite (fun _ => alike_execCwWiden _ c s.codeWidth x s) fun _ => alike_execClass _ c s.codeWidth x s

theorem alike_codeStep (x s : State) : Alike (CodeAlike x) (codeStep s) (codeStep (lzwInto x s)) := by
  rw [codeStep_eq_consumeBits, codeStep_eq_consumeBits]
  exact alike_consumeBits (s := { s with prev := if s.phase = .loop then s.cur else s.prev })
    (codeAlike_holdsOnFaults x) fun v u => alike_runCode v x u

/-- A decode that ends ends in both runs, with the same answer. -/
theorem runDecode_lzwInto {n : Nat} {t : State} (x : State) (ht : runDecode n s = .next t)
    (hp : s.phase ≠ .idle) (hend : t.phase = .idle) : runDecode n (lzwInto x s) = .next (beside x t) := by
  induction n generalizing s with
  | zero => cases ht; exact absurd hend hp
  | succ n ih =>
    unfold runDecode at ht ⊢
    cases hs : codeStep s with
    | fault f => simp [hs] at ht
    | refused r => simp [hs] at ht
    | next u =>
      simp only [hs] at ht
      obtain ⟨u', hu', halike⟩ := (alike_codeStep x s).exists_next hs
      simp only [hu']
      cases halike with
      | ended hu =>
        rw [if_pos hu] at ht
        cases ht
        exact if_pos hu
      | goesOn hu =>
        rw [if_neg hu] at ht
        exact (if_neg hu).trans (ih ht hu)

/-! ### The operations of the LZW engine -/

theorem alike_unlessFaulted {go go' : StepOutcome} (hgo : s.lzwFault = none → Alike (OpAlike x) go go') :
    Alike (OpAlike x) (unlessFaulted .lzw s go) (unlessFaulted .lzw (lzwInto x s) go') :=
  .ite hgo fun _ => .next rfl

theorem alike_opRaise (kind : FaultKind) (info : Nat) (x s : State) :
    Alike (OpAlike x) (raise .lzw kind info s) (raise .lzw kind info (lzwInto x s)) :=
  alike_raise (opAlike_holdsOnFaults x) kind info s

theorem alike_execCtLookup (code : Nat) (x s : State) :
    Alike (OpAlike x) (execCtLookup code s) (execCtLookup code (lzwInto x s)) := by
  refine alike_unlessFaulted fun _ => .ite (fun _ => .next rfl) fun _ => ?_
  rw [readDict_lzwInto]
  cases readDict s code with
  | none => exact alike_opRaise _ _ x s
  | some seq => exact .next rfl

theorem alike_execCtInsert (words : List SymWord) (x s : State) :
    Alike (OpAlike x) (execCtInsert words s) (execCtInsert words (lzwInto x s)) := by
  refine alike_unlessFaulted fun _ => .ite (fun _ => .next rfl) fun _ => ?_
  cases symbolsOfWords words with
  | none => exact .next rfl
  | some seq => exact alike_insertNext (opAlike_holdsOnFaults x) fun u => .next rfl

theorem alike_execLzwDecode (mcs cts : Nat) (bytes : List Byte) (x s : State) :
    Alike (OpAlike x) (execLzwDecode mcs cts bytes s) (execLzwDecode mcs cts bytes (lzwInto x s)) := by
  refine alike_unlessFaulted fun hf => .ite (fun _ => .next rfl) fun _ =>
    .ite (fun _ => alike_opRaise _ _ x s) fun _ => ?_
  obtain ⟨t, ht, hend⟩ := runDecode_enterDecode mcs cts bytes hf
  have ht' : runDecode (maxFetches mcs bytes.length) (enterDecode mcs cts bytes (lzwInto x s)) =
      .next (beside x t) := runDecode_lzwInto x ht nofun hend.phase
  rw [ht, ht']
  exact .next rfl

/-- An operation of the LZW engine beside another FR engine does the same and answers the same. -/
theorem alike_exec_lzw {i : Instr} (hi : isCodeWord i = false) (he : engineOfInstr i = .lzw) (x s : State) :
    Alike (OpAlike x) (exec i s) (exec i (lzwInto x s)) := by
  cases i with
  | brLoad bytes =>
    exact alike_unlessFaulted fun _ => .ite (fun _ => .next rfl) fun _ => alike_opRaise _ _ x s
  | brRead width =>
    exact alike_unlessFaulted fun _ => .ite (fun _ => .next rfl) fun _ => .ite (fun _ => .next rfl) fun _ =>
      alike_consumeBits (opAlike_holdsOnFaults x) fun v u => .next rfl
  | ctInit mcs cts =>
    exact alike_unlessFaulted fun _ => .ite (fun _ => .next rfl) fun _ => .next rfl
  | ctLookup code => exact alike_execCtLookup code x s
  | ctHas code => exact alike_unlessFaulted fun _ => .ite (fun _ => .next rfl) fun _ => .next rfl
  | ctInsert words => exact alike_execCtInsert words x s
  | lzwDecode mcs cts bytes => exact alike_execLzwDecode mcs cts bytes x s
  | frAppend _ | frHasfg | frSwg | frTakeg | frTakef | frClear | bStart | bEnd | bData _ => cases he
  | cwWiden _ _ _ | cwClear _ _ | cwEoi _ _ | cwPresent _ _ | cwAbsent _ _ => cases hi

theorem alike_exec_codeWord {i : Instr} (hi : isCodeWord i = true) (x s : State) :
    Alike (CodeAlike x) (exec i s) (exec i (lzwInto x s)) := by
  cases i with
  | cwWiden cls c w => exact alike_execCwWiden cls c w x s
  | cwClear c w => exact alike_execClass .clear c w x s
  | cwEoi c w => exact alike_execClass .eoi c w x s
  | cwPresent c w => exact alike_execClass .present c w x s
  | cwAbsent c w => exact alike_execClass .absent c w x s
  | _ => cases hi

end Lzw

/-! ### The FR engine beside another LZW engine -/

/-- `x` with the FR engine and the parameters of `s`. -/
def frInto (x s : State) : State :=
  { x with frbuf := s.frbuf, frFault := s.frFault, frRefused := s.frRefused, params := s.params }

theorem frInto_eq {s x : State} (h : SameFr s x) (hp : s.params = x.params) : frInto x s = x := by
  obtain ⟨hbuf, hfault, hrefused⟩ := h
  simp only [frInto, hbuf, hfault, hrefused, hp]

/-- How an operation of the FR engine ends in the two runs: with the same answer. -/
def FrAlike (x t t' : State) : Prop := t' = { frInto x t with response := t.response }

section Fr

variable {x s : State}

theorem alike_frUnlessFaulted {go go' : StepOutcome} (hgo : Alike (FrAlike x) go go') :
    Alike (FrAlike x) (unlessFaulted .fr s go) (unlessFaulted .fr (frInto x s) go') :=
  .ite (fun _ => hgo) fun _ => .next rfl

theorem alike_arrive (bytes : List Byte) (x s : State) :
    Alike (FrAlike x) (arrive bytes s) (arrive bytes (frInto x s)) :=
  alike_frUnlessFaulted (.ite (fun _ => .next rfl) fun _ => .next rfl)

theorem alike_execFrTakef (x s : State) :
    Alike (FrAlike x) (execFrTakef s) (execFrTakef (frInto x s)) := by
  refine alike_frUnlessFaulted ?_
  have hbuf : (frInto x s).frbuf = s.frbuf := rfl
  rw [hbuf]
  cases firstIndex endByte s.frbuf with
  | none => exact .next rfl
  | some j => exact .next rfl

theorem alike_exec_fr {i : Instr} (he : engineOfInstr i = .fr) (x s : State) :
    Alike (FrAlike x) (exec i s) (exec i (frInto x s)) := by
  cases i with
  | frAppend bytes => exact alike_arrive bytes x s
  | bStart => exact alike_arrive _ x s
  | bEnd => exact alike_arrive _ x s
  | bData b => exact alike_arrive _ x s
  | frHasfg | frSwg | frTakeg | frClear => exact alike_frUnlessFaulted (.next rfl)
  | frTakef => exact alike_execFrTakef x s
  | brLoad _ | brRead _ | ctInit _ _ | ctLookup _ | ctHas _ | ctInsert _ | lzwDecode _ _ _
  | cwWiden _ _ _ | cwClear _ _ | cwEoi _ _ | cwPresent _ _ | cwAbsent _ _ => cases he

end Fr

/-! ### The obligation -/

/-- An instruction of the LZW engine leaves the FR engine's part alone (R20). -/
theorem sameFr_of_exec {i : Instr} {s t : State} (he : engineOfInstr i = .lzw) (h : exec i s = .next t) :
    SameFr s t := by
  cases hi : isCodeWord i with
  | false => exact (lzwAnswer_of_exec hi he h).sameFr
  | true => exact (codeRun_of_exec hi h).sameFr

/-- An instruction of the LZW engine does the same from every state with the same LZW part and parameters (R20). -/
theorem exec_of_sameLzw {i : Instr} {s s' t : State} (he : engineOfInstr i = .lzw) (hs : SameLzw s s')
    (hp : s.params = s'.params) (h : exec i s = .next t) :
    ∃ t', exec i s' = .next t' ∧ SameLzw t t' ∧ (isCodeWord i = false → t.response = t'.response) := by
  rw [← lzwInto_eq hs hp]
  cases hi : isCodeWord i with
  | false =>
    obtain ⟨t', ht', rfl⟩ := (alike_exec_lzw hi he s' s).exists_next h
    exact ⟨_, ht', sameLzw_beside s' t, fun _ => rfl⟩
  | true =>
    obtain ⟨t', ht', halike⟩ := (alike_exec_codeWord hi s' s).exists_next h
    exact ⟨t', ht', halike.sameLzw, nofun⟩

/-- An instruction of the FR engine does the same from every state with the same FR part and parameters (R20). -/
theorem exec_of_sameFr {i : Instr} {s s' t : State} (he : engineOfInstr i = .fr) (hs : SameFr s s')
    (hp : s.params = s'.params) (h : exec i s = .next t) :
    ∃ t', exec i s' = .next t' ∧ SameFr t t' ∧ t.response = t'.response := by
  rw [← frInto_eq hs hp]
  obtain ⟨t', ht', rfl⟩ := (alike_exec_fr he s' s).exists_next h
  exact ⟨_, ht', ⟨rfl, rfl, rfl⟩, rfl⟩

/-- Settles O56: the frames, and each engine's instructions run side by side on two states that agree on its part. -/
theorem enginesShareNothing : Obligations.EnginesShareNothing := by
  intro i s s' t hp h
  refine ⟨fun he => ⟨sameFr_of_exec he h, fun hs => exec_of_sameLzw he hs hp h⟩,
    fun he => ⟨(frAnswer_of_exec he h).sameLzw, fun hs => exec_of_sameFr he hs hp h⟩⟩

end Sys2Proof.Machine
end

section
/-! The reads, the entry and the small steps of a decode, the two engines side by side, and that no operation stops the model (spec/20_memory.md R66, R70, R80, R82): settles O17, O41, O42, O57, O60. -/

namespace Sys2Proof.Machine

/-! ### Reading bits of a loaded input (R66, R122) -/

section Reads

variable {s : State}

/-- Up to the end of a loaded input a read of bits goes on. -/
theorem consumeBits_of_loaded (hin : s.input.map Prod.fst = List.range s.inLen) {w : Nat}
    (hw : s.bitpos + w ≤ 8 * s.inLen) (go : Nat → State → StepOutcome) :
    ∃ v, BitsAre s s.bitpos w v ∧ consumeBits w s go = go v { s with bitpos := s.bitpos + w } := by
  obtain ⟨v, hv⟩ := exists_bitsAre hin hw
  exact ⟨v, hv, consumeBits_here go hw hv⟩

/-- Past its checks `BR.READ` is its read of bits (R122). -/
theorem execBrRead_of_ready {width : Nat} (hf : s.lzwFault = none) (hbr : s.brValid = true)
    (hw : s.params.rwMax.allows width = true) :
    execBrRead width s = consumeBits width s fun v s' => ok (.number v) s' := by
  unfold execBrRead
  rw [unlessFaulted_of_none (by exact hf)]
  simp [hbr, hw]

end Reads

/-- Settles O17: past the checks, by what a read of a loaded input answers. -/
theorem brReadReturnsTheBitsAtTheCursor : Obligations.BrReadReturnsTheBitsAtTheCursor := by
  intro width s hf hbr hin hw hle
  obtain ⟨v, hv, he⟩ := consumeBits_of_loaded hin.1 hle fun v s' => ok (.number v) s'
  exact ⟨v, hv, (execBrRead_of_ready hf hbr hw).trans he⟩

/-! ### The entry of a decode (R70, R171) -/

section Entry

variable {mcs cts : Nat} {bytes : List Byte} {s : State}

theorem execLzwDecode_of_fault (hf : s.lzwFault ≠ none) :
    execLzwDecode mcs cts bytes s = .next (enterRefusal .lzw .engineFaulted s) :=
  unlessFaulted_of_fault (by exact hf) _

theorem execLzwDecode_of_illegal (hf : s.lzwFault = none)
    (hc : legalConfig s.params mcs cts = false) :
    execLzwDecode mcs cts bytes s = .next (enterRefusal .lzw .badConfig s) := by
  unfold execLzwDecode
  rw [unlessFaulted_of_none (by exact hf), if_pos hc]
  rfl

theorem execLzwDecode_of_tooLong (hf : s.lzwFault = none)
    (hc : legalConfig s.params mcs cts = true) (hb : s.params.inMax.allows bytes.length = false) :
    execLzwDecode mcs cts bytes s = .next (enterFault .lzw .capacityExceeded 1 s) := by
  unfold execLzwDecode
  rw [unlessFaulted_of_none (by exact hf), if_neg (by simp [hc]), if_pos hb]
  rfl

theorem faultsWith_enterFault (s : State) (kind : FaultKind) (info : Nat) :
    FaultsWith s kind info (.next (enterFault .lzw kind info s)) :=
  ⟨_, rfl, rfl, rfl, rfl, rfl, rfl, ⟨rfl, rfl, rfl⟩, rfl, rfl, rfl⟩

/-- What IN holds once a payload is loaded (R121). -/
theorem readCell_bytesFrom_zero (bs : List Byte) (a : Nat) :
    readCell (bytesFrom 0 bs) a = bs[a]? := by
  simp [readCell_bytesFrom]

/-- The state a decode starts from, field by field (R171). -/
theorem enterDecode_eq (mcs cts : Nat) (bytes : List Byte) (s : State) :
    enterDecode mcs cts bytes s = { s with
      input := bytesFrom 0 bytes, inLen := bytes.length, bitpos := 0, brValid := true
      dict := freshDict mcs cts, maxKey := 2 ^ mcs + 1, mcs := mcs, cts := cts, ctValid := true
      codeWidth := mcs + 1, out := [], outLen := 0, phase := .expectClear } := by
  rw [← clrKey_eq]; rfl

end Entry

/-- Settles O42: the three checks in their order, and the entry's memories by what a loaded input and a fresh table read as. -/
theorem decodeEntryRewritesEverything : Obligations.DecodeEntryRewritesEverything := by
  intro mcs cts bytes s
  refine ⟨execLzwDecode_of_fault, execLzwDecode_of_illegal, fun hf hc hb => ?_, fun _ => ?_⟩
  · have he : exec (.lzwDecode mcs cts bytes) s = .next (enterFault .lzw .capacityExceeded 1 s) :=
      execLzwDecode_of_tooLong hf hc hb
    rw [he]
    exact faultsWith_enterFault s _ _
  · exact ⟨_, _, enterDecode_eq mcs cts bytes s, readCell_bytesFrom_zero bytes,
      readCell_freshDict mcs cts⟩

/-! ### A whole decode as small steps (R80, R185) -/

section Steps

variable {s t u : State} {n : Nat}

/-- `n` steps lead from `s` to `t`, and before the last of them the phase is not IDLE. -/
def RunsUntil (n : Nat) (s t : State) : Prop :=
  Host.Core.run Sys2Proof.core n s = .next t ∧
    ∀ k < n, ∃ u : State, Host.Core.run Sys2Proof.core k s = .next u ∧ u.phase ≠ .idle

theorem runsUntil_zero (s : State) : RunsUntil 0 s s := ⟨rfl, nofun⟩

/-- A run begins with its first step. -/
theorem core_run_succ {M : Host.Core} {s u : M.State} (h : M.step s = .next u) (n : Nat) :
    M.run (n + 1) s = M.run n u := by
  simp only [Host.Core.run, h]

/-- A step inside a decode may stand before the steps that end it. -/
theorem RunsUntil.cons (hp : s.phase ≠ .idle) (h : step s = .next u) (hr : RunsUntil n u t) :
    RunsUntil (n + 1) s t := by
  obtain ⟨hrun, hbefore⟩ := hr
  refine ⟨(core_run_succ (M := Sys2Proof.core) h n).trans hrun, fun k hk => ?_⟩
  cases k with
  | zero => exact ⟨s, rfl, hp⟩
  | succ k =>
    obtain ⟨v, hv, hne⟩ := hbefore k (Nat.lt_of_succ_lt_succ hk)
    exact ⟨v, (core_run_succ (M := Sys2Proof.core) h k).trans hv, hne⟩

/-- A decode that ends is as many small steps as it takes, within its fuel (R184). -/
theorem exists_runsUntil_of_runDecode (hp : s.phase ≠ .idle) (h : runDecode n s = .next t)
    (ht : t.phase = .idle) : ∃ m, 1 ≤ m ∧ m ≤ n ∧ RunsUntil m s t := by
  induction n generalizing s with
  | zero => cases h; exact absurd ht hp
  | succ n ih =>
    unfold runDecode at h
    cases hs : codeStep s with
    | fault f => simp [hs] at h
    | refused r => simp [hs] at h
    | next u =>
      simp only [hs] at h
      have hstep : step s = .next u := (step_running hp).trans hs
      split at h
      next =>
        cases h
        exact ⟨1, le_rfl, by omega, (runsUntil_zero t).cons hp hstep⟩
      next hu =>
        obtain ⟨m, -, hm, hr⟩ := ih hu h
        exact ⟨m + 1, by omega, by omega, hr.cons hp hstep⟩

end Steps

/-- Settles O41: a decode ends within its fuel, the bound of R185, and then its recursion is the run of the small steps. -/
theorem lzwDecodeIsEntryThenSteps : Obligations.LzwDecodeIsEntryThenSteps := by
  intro mcs cts bytes s hf hc hb
  obtain ⟨t, ht, hend⟩ := runDecode_enterDecode mcs cts bytes hf
  have hp : (enterDecode mcs cts bytes s).phase ≠ .idle := (decodable_enterDecode mcs cts bytes hf).phase
  obtain ⟨n, hpos, hle, hrun, hbefore⟩ := exists_runsUntil_of_runDecode hp ht hend.phase
  exact ⟨n, t, hpos, hle, (execLzwDecode_of_legal hf hc hb).trans ht, hend.phase, hrun, hbefore⟩

/-! ### An operation of each engine (R82) -/

section Commute

variable {s t u : State}

theorem SameFr.symm (h : SameFr s t) : SameFr t s :=
  ⟨h.frbuf.symm, h.frFault.symm, h.frRefused.symm⟩

theorem SameLzw.symm (h : SameLzw s t) : SameLzw t s := by
  cases h; constructor <;> exact Eq.symm ‹_›

theorem SameLzw.trans (h : SameLzw s t) (h' : SameLzw t u) : SameLzw s u := by
  cases h; cases h'; constructor <;> exact Eq.trans ‹_› ‹_›

/-- An instruction of the FR engine leaves the LZW engine's part alone (R20). -/
theorem sameLzw_of_exec {j : Instr} (he : engineOfInstr j = .fr) (h : exec j s = .next t) :
    SameLzw s t :=
  (frAnswer_of_exec he h).sameLzw

end Commute

/-- Settles O57: neither operation sees what the other did (R20), so each does in the second order what it did in the first. -/
theorem operationsOfTheEnginesCommute : Obligations.OperationsOfTheEnginesCommute := by
  intro i j s t u hi hj hic hst htu
  obtain ⟨hpt, hht⟩ := exec_keeps hst
  obtain ⟨hpu, hhu⟩ := exec_keeps htu
  obtain ⟨t', hst', hfr, hrj⟩ := exec_of_sameFr hj (sameFr_of_exec hi hst).symm hpt htu
  obtain ⟨hpt', hht'⟩ := exec_keeps hst'
  obtain ⟨u', htu', hlzw, hri⟩ := exec_of_sameLzw hi (sameLzw_of_exec hj hst') hpt'.symm hst
  obtain ⟨hpu', hhu'⟩ := exec_keeps htu'
  refine ⟨t', u', hst', htu', ?_, ?_, hrj.symm, (hri hic).symm, ?_, ?_⟩
  · exact (sameLzw_of_exec hj htu).symm.trans hlzw
  · exact hfr.trans (sameFr_of_exec hi htu')
  · rw [hpu', hpt', hpu, hpt]
  · rw [hhu', hht', hhu, hht]

/-! ### No operation stops the model -/

/-- The model does not stop: there is a next state. -/
def Answers (o : StepOutcome) : Prop := ∃ t, o = .next t

section Answers

variable {s : State}

theorem answers_next (t : State) : Answers (.next t) := ⟨t, rfl⟩

theorem answers_ok (v : Result) (s : State) : Answers (ok v s) := answers_next _

theorem answers_raise (e : Engine) (kind : FaultKind) (info : Nat) (s : State) :
    Answers (raise e kind info s) := answers_next _

theorem answers_refuse (e : Engine) (reason : RefuseReason) (s : State) :
    Answers (refuse e reason s) := answers_next _

theorem Answers.ite {p : Prop} [Decidable p] {a b : StepOutcome} (ha : p → Answers a)
    (hb : ¬ p → Answers b) : Answers (if p then a else b) := by
  split
  · exact ha ‹_›
  · exact hb ‹_›

theorem answers_unlessFaulted {e : Engine} {go : StepOutcome}
    (hgo : faultOf e s = none → Answers go) : Answers (unlessFaulted e s go) :=
  .ite hgo fun _ => answers_refuse _ _ s

theorem answers_consumeBits (hin : s.input.map Prod.fst = List.range s.inLen) (w : Nat)
    {go : Nat → State → StepOutcome} (hgo : ∀ v u, Answers (go v u)) :
    Answers (consumeBits w s go) := by
  by_cases hw : s.bitpos + w ≤ 8 * s.inLen
  · obtain ⟨v, -, he⟩ := consumeBits_of_loaded hin hw go
    rw [he]
    exact hgo v _
  · rw [consumeBits_past go (Nat.lt_of_not_le hw)]
    exact answers_next _

theorem answers_insertNext (seq : List Symbol) {go : State → StepOutcome}
    (hgo : ∀ u, Answers (go u)) : Answers (insertNext seq s go) :=
  .ite (fun _ => answers_raise _ _ _ s) fun _ => .ite (fun _ => answers_raise _ _ _ s) fun _ => hgo _

theorem answers_execCtLookup (code : Nat) (s : State) : Answers (execCtLookup code s) := by
  refine answers_unlessFaulted fun _ => .ite (fun _ => answers_refuse _ _ s) fun _ => ?_
  cases readDict s code with
  | none => exact answers_raise _ _ _ s
  | some seq => exact answers_ok _ s

theorem answers_execCtInsert (words : List SymWord) (s : State) : Answers (execCtInsert words s) := by
  refine answers_unlessFaulted fun _ => .ite (fun _ => answers_refuse _ _ s) fun _ => ?_
  cases symbolsOfWords words with
  | none => exact answers_refuse _ _ s
  | some seq => exact answers_insertNext seq fun u => answers_ok _ u

/-- Every decode ends (R185). -/
theorem answers_execLzwDecode (mcs cts : Nat) (bytes : List Byte) (s : State) :
    Answers (execLzwDecode mcs cts bytes s) := by
  refine answers_unlessFaulted fun hf => .ite (fun _ => answers_refuse _ _ s) fun _ =>
    .ite (fun _ => answers_raise _ _ _ s) fun _ => ?_
  obtain ⟨t, ht, -⟩ := runDecode_enterDecode mcs cts bytes hf
  exact ⟨t, ht⟩

theorem answers_arrive (bytes : List Byte) (s : State) : Answers (arrive bytes s) :=
  answers_unlessFaulted fun _ => .ite (fun _ => answers_ok _ _) fun _ => answers_raise _ _ _ s

theorem answers_execFrTakef (s : State) : Answers (execFrTakef s) := by
  refine answers_unlessFaulted fun _ => ?_
  cases firstIndex endByte s.frbuf with
  | none => exact answers_raise _ _ _ s
  | some j => exact answers_ok _ _

/-- Every operation of the host answers over a loaded input. -/
theorem answers_exec {i : Instr} (hi : isCodeWord i = false)
    (hin : s.input.map Prod.fst = List.range s.inLen) : Answers (exec i s) := by
  cases i with
  | brLoad bytes =>
    exact answers_unlessFaulted fun _ => .ite (fun _ => answers_ok _ _) fun _ => answers_raise _ _ _ s
  | brRead width =>
    exact answers_unlessFaulted fun _ => .ite (fun _ => answers_refuse _ _ s) fun _ =>
      .ite (fun _ => answers_refuse _ _ s) fun _ => answers_consumeBits hin width fun v u => answers_ok _ u
  | ctInit mcs cts =>
    exact answers_unlessFaulted fun _ => .ite (fun _ => answers_ok _ _) fun _ => answers_refuse _ _ s
  | ctLookup code => exact answers_execCtLookup code s
  | ctHas code =>
    exact answers_unlessFaulted fun _ => .ite (fun _ => answers_refuse _ _ s) fun _ => answers_ok _ s
  | ctInsert words => exact answers_execCtInsert words s
  | lzwDecode mcs cts bytes => exact answers_execLzwDecode mcs cts bytes s
  | frHasfg | frSwg | frTakeg | frClear => exact answers_unlessFaulted fun _ => answers_ok _ _
  | frTakef => exact answers_execFrTakef s
  | frAppend _ | bStart | bEnd | bData _ => exact answers_arrive _ s
  | cwWiden _ _ _ | cwClear _ _ | cwEoi _ _ | cwPresent _ _ | cwAbsent _ _ => cases hi

end Answers

/-! ### The host's inputs are no code words (R27, R90) -/

theorem isCodeWord_of_noArg {arg : Nat} {i j : Instr} (hi : isCodeWord i = false)
    (h : noArg arg i = .ok j) : isCodeWord j = false := by
  unfold noArg at h
  split at h <;> cases h
  exact hi

theorem isCodeWord_of_decodeCommand {w : CmdWord} {p : Payload} {i : Instr}
    (h : decodeCommand w p = .ok i) : isCodeWord i = false := by
  unfold decodeCommand at h
  dsimp only at h
  split at h
  case h_3 | h_4 | h_5 | h_7 => cases h; rfl
  case h_14 => cases h
  all_goals exact isCodeWord_of_noArg rfl h

theorem isCodeWord_decodeFrameByte (b : Byte) : isCodeWord (decodeFrameByte b) = false := by
  unfold decodeFrameByte
  split
  · rfl
  · split <;> rfl

/-! ### One host input, and the step -/

section Progress

variable {s t : State}

/-- A reset input that the block has is taken (R300, R301). -/
theorem answers_applyReset {target : ResetTarget}
    (ht : ∀ e, target = .engine e → s.params.splitReset = true) : Answers (applyReset target s) := by
  cases target with
  | block => exact answers_next _
  | engine e =>
    simp only [applyReset, ht e rfl, if_true]
    cases e <;> exact answers_next _

theorem answers_issue {x : HostInput} (hin : s.input.map Prod.fst = List.range s.inLen)
    (hx : ∀ e, x = .rst (.engine e) → s.params.splitReset = true) : Answers (issue x s) := by
  cases x with
  | command w p =>
    simp only [issue, issueCommand]
    split
    next i hi => exact answers_exec (isCodeWord_of_decodeCommand hi) hin
    next =>
      obtain ⟨reason, he⟩ := refuseUnmatched_cases w s
      exact ⟨_, he⟩
  | frameByte b => exact answers_exec (isCodeWord_decodeFrameByte b) hin
  | rst target => exact answers_applyReset fun e he => hx e (congrArg HostInput.rst he)

theorem Performs.phase_eq (h : Performs s t) : t.phase = s.phase := by
  cases h <;> rfl

theorem LzwAnswer.phase_idle (h : LzwAnswer s t) (hp : s.phase = .idle) : t.phase = .idle := by
  cases h with
  | refused => exact hp
  | faulted => rfl
  | performed _ hu => exact hu.phase_eq.trans hp
  | decoded hf _ _ ht => exact (decodeEnded_of_runDecode hf ht).phase

theorem phase_idle_of_applyReset {target : ResetTarget} (hp : s.phase = .idle)
    (h : applyReset target s = .next t) : t.phase = .idle := by
  cases target with
  | block => cases h; rfl
  | engine e =>
    simp only [applyReset] at h
    split at h
    · cases e <;> cases h
      · rfl
      · exact hp
    · cases h

/-- A host input leaves the block between operations (R80). -/
theorem phase_idle_of_issue {x : HostInput} (hp : s.phase = .idle) (h : issue x s = .next t) :
    t.phase = .idle := by
  by_cases hx : ∃ target, x = .rst target
  · obtain ⟨target, rfl⟩ := hx
    exact phase_idle_of_applyReset hp h
  · obtain ha | ha := answer_of_issue hp (not_exists.1 hx) h
    · exact ha.phase_idle hp
    · exact ha.sameLzw.phase.symm.trans hp

/-- Under the invariant a decode in progress never stops the model. -/
theorem State.Inv.decodable (h : s.Inv) (hp : s.phase ≠ .idle) : Decodable s := by
  obtain ⟨-, -, hf, hw, -⟩ := h.decode hp
  exact ⟨h.input.1, h.input.2.1, hw, hp, hf, h.noEmptyEntry hp⟩

theorem splitReset_of_asksSplitReset {rest : List HostInput} {e : Engine}
    (hs : s.asksSplitReset = false) (hh : s.host = .rst (.engine e) :: rest) :
    s.params.splitReset = true := by
  simpa [State.asksSplitReset, hh] using hs

end Progress

/-- Settles O60, by the cases of the step: waiting, issuing the first input, running a code word. -/
theorem noStepEverStops : Obligations.NoStepEverStops := by
  intro s hinv hs
  by_cases hp : s.phase = .idle
  · cases hh : s.host with
    | nil => exact ⟨s, step_wait hp hh, id⟩
    | cons x rest =>
      rw [step_input hp hh]
      have hx : ∀ e, x = .rst (.engine e) → s.params.splitReset = true := fun e he =>
        splitReset_of_asksSplitReset hs (he ▸ hh)
      obtain ⟨t, ht⟩ := answers_issue (s := { s with host := rest }) hinv.input.1 hx
      exact ⟨t, ht, fun _ => phase_idle_of_issue (by exact hp) ht⟩
  · rw [step_running hp]
    obtain ⟨t, ht, -⟩ := codeStep_of_decodable (hinv.decodable hp)
    exact ⟨t, ht, fun h => absurd h hp⟩

end Sys2Proof.Machine
end

section
/-! The encodings (spec/30_encoding.md): the command words and their rows, code words, symbol words, packed code streams: settles O1 to O5. -/

namespace Sys2Proof

/-! ### Command words (R100 to R103) -/

/-- A word whose unit and function are known is made of these and its argument (R100). -/
theorem eq_commandWord {w : CmdWord} {u f : Nat} (hu : unitField w = u) (hf : funcField w = f) :
    w = commandWord u f (argField w) := by
  rw [← hu, ← hf]; exact commandWord_of_fields w

theorem argField_lt (w : CmdWord) : argField w < 2 ^ 24 := Nat.mod_lt _ (by decide)

/-- A row marked "must be 0" takes exactly the argument 0 (R101). -/
theorem noArg_eq_ok {arg : Nat} {i j : Instr} : noArg arg i = .ok j ↔ arg = 0 ∧ i = j := by
  unfold noArg; split <;> simp [*]

/-- Each command's word decodes to the command, its operands and payload included (R101, R102). -/
theorem decodeCommand_of_encode {i : Instr} {w : CmdWord} {p : Payload} (hwf : i.wf = true)
    (he : encode i = .command w p) : decodeCommand w p = .ok i := by
  have fields (u f a : Nat) (h : u < 16 ∧ f < 16 ∧ a < 2 ^ 24) := commandWord_fields h.1 h.2.1 h.2.2
  cases i with
  | brLoad | ctInsert | frAppend | frHasfg | frSwg | frTakeg | frTakef | frClear => cases he; rfl
  | brRead width =>
    cases he
    have hwidth : width < 2 ^ 8 := of_decide_eq_true hwf
    simp only [decodeCommand, fields 0 1 width (by omega), noArg_eq_ok, Instr.brRead.injEq]
    omega
  | ctLookup code =>
    cases he
    simp only [decodeCommand, fields 1 1 code ⟨by decide, by decide, of_decide_eq_true hwf⟩]
  | ctHas code =>
    cases he
    simp only [decodeCommand, fields 1 2 code ⟨by decide, by decide, of_decide_eq_true hwf⟩]
  | ctInit mcs cts =>
    cases he
    simp only [Instr.wf, Bool.and_eq_true, decide_eq_true_eq] at hwf
    simp only [decodeCommand, fields 1 0 (cts * 2 ^ 8 + mcs) (by omega), Except.ok.injEq, Instr.ctInit.injEq]
    omega
  | lzwDecode mcs cts bytes =>
    cases he
    simp only [Instr.wf, Bool.and_eq_true, decide_eq_true_eq] at hwf
    simp only [decodeCommand, fields 2 0 (cts * 2 ^ 8 + mcs) (by omega), Except.ok.injEq,
      Instr.lzwDecode.injEq, Payload.asBytes, and_true]
    omega
  | _ => cases he

/-- A decoded row marked "must be 0" is the command of the word with argument 0. -/
theorem encode_of_noArg {w : CmdWord} {u f : Nat} {i j : Instr} (hw : w = commandWord u f (argField w))
    (h : noArg (argField w) i = .ok j) (hwf : i.wf = true)
    (he : ∃ q, encode i = .command (commandWord u f 0) q) : j.wf = true ∧ ∃ q, encode j = .command w q := by
  obtain ⟨h0, rfl⟩ := noArg_eq_ok.1 h
  rw [h0] at hw
  exact ⟨hwf, hw ▸ he⟩

/-- A word that decodes is the word of the command it decodes to, and the command is well formed (R101, R102). -/
theorem encode_of_decodeCommand {w : CmdWord} {p : Payload} {i : Instr} (h : decodeCommand w p = .ok i) :
    i.wf = true ∧ ∃ q, encode i = .command w q := by
  have ha := argField_lt w
  have hsplit : argField w / 2 ^ 8 * 2 ^ 8 + argField w % 2 ^ 8 = argField w := by omega
  have configWf : (decide (argField w % 2 ^ 8 < 2 ^ 8) && decide (argField w / 2 ^ 8 < 2 ^ 16)) = true := by
    simp only [Bool.and_eq_true, decide_eq_true_eq]; omega
  unfold decodeCommand at h
  dsimp only at h
  split at h
  case h_14 => cases h
  case h_2 hu hf =>
    obtain ⟨h0, rfl⟩ := noArg_eq_ok.1 h
    refine ⟨by simp only [Instr.wf, decide_eq_true_eq]; omega, .bytes [], ?_⟩
    rw [encode, show argField w % 2 ^ 8 = argField w by omega, ← eq_commandWord hu hf]
  case h_3 hu hf | h_7 hu hf =>
    cases h
    exact ⟨configWf, _, by rw [encode, hsplit, ← eq_commandWord hu hf]⟩
  case h_4 hu hf | h_5 hu hf =>
    cases h
    exact ⟨decide_eq_true ha, _, by rw [encode, ← eq_commandWord hu hf]⟩
  all_goals
    rename_i hu hf
    exact encode_of_noArg (eq_commandWord hu hf) h rfl ⟨_, rfl⟩

/-- A word that selects a row of the map decodes (R101, R103). -/
theorem decodeCommand_of_selects {w : CmdWord} {r : OpcodeRow} (p : Payload) (hr : r ∈ opcodeMap)
    (h : r.selects w = true) : ∃ i, decodeCommand w p = .ok i := by
  have whole {s : String} {m : CmdWord} (h : (OpcodeRow.mk s m 0xFFFFFFFF#32).selects w = true) : w = m := by
    rwa [selects_whole, decide_eq_true_eq, BitVec.toNat_inj] at h
  have fields {s : String} {m : CmdWord} (u f : Nat) (hm : m.toNat = u * 2 ^ 28 + f * 2 ^ 24 ∧ f < 16)
      (h : (OpcodeRow.mk s m 0xFF000000#32).selects w = true) : unitField w = u ∧ funcField w = f := by
    rw [selects_above24, decide_eq_true_eq] at h
    simp only [unitField, funcField]
    omega
  simp only [opcodeMap, List.mem_cons, List.not_mem_nil, or_false] at hr
  obtain rfl | rfl | rfl | rfl | rfl | rfl | rfl | rfl | rfl | rfl | rfl | rfl | rfl := hr
  · rw [whole h]; exact ⟨_, rfl⟩
  · rw [selects_above8, decide_eq_true_eq, BitVec.toNat_ofNat] at h
    have hu : unitField w = 0 := by simp only [unitField]; omega
    have hf : funcField w = 1 := by simp only [funcField]; omega
    have ha : argField w / 2 ^ 8 = 0 := by simp only [argField]; omega
    exact ⟨_, by simp only [decodeCommand, hu, hf, noArg_eq_ok]; exact ⟨ha, rfl⟩⟩
  · simp [decodeCommand, fields 1 0 (by decide) h]
  · simp [decodeCommand, fields 1 1 (by decide) h]
  · simp [decodeCommand, fields 1 2 (by decide) h]
  · rw [whole h]; exact ⟨_, rfl⟩
  · simp [decodeCommand, fields 2 0 (by decide) h]
  all_goals
    rw [whole h]
    exact ⟨_, rfl⟩

/-- The law of each command, together: its word selects its own row and no other (R101). -/
theorem rowOfEncoding (i : Instr) : Laws.RowOfEncoding.Statement i := by
  open Laws.RowOfEncoding in
  cases i with
  | brLoad bs => exact brLoad bs
  | brRead n => exact brRead n
  | ctInit mcs cts => exact ctInit mcs cts
  | ctLookup c => exact ctLookup c
  | ctHas c => exact ctHas c
  | ctInsert ws => exact ctInsert ws
  | lzwDecode mcs cts bs => exact lzwDecode mcs cts bs
  | frAppend bs => exact frAppend bs
  | frHasfg => exact frHasfg
  | frSwg => exact frSwg
  | frTakeg => exact frTakeg
  | frTakef => exact frTakef
  | frClear => exact frClear
  | cwWiden cls c w => exact cwWiden cls c w
  | cwClear c w => exact cwClear c w
  | cwEoi c w => exact cwEoi c w
  | cwPresent c w => exact cwPresent c w
  | cwAbsent c w => exact cwAbsent c w
  | bStart => exact bStart
  | bEnd => exact bEnd
  | bData b => exact bData b

/-! ### Code words (R90 to R94) -/

/-- The bits of a code word decode to what its value and width stand for (R90, R91). -/
theorem decode_codeBits (ctx : CodeContext) {c w : Nat} (h : codeInRange c w = true) :
    (Encoded.code (codeBits c w)).decode ctx = .ok (decodeCode ctx c w) := by
  simp only [codeInRange, Bool.and_eq_true, decide_eq_true_eq] at h
  rw [Encoded.decode, bitsToNat_codeBits w c h.2, codeBits_length]

/-- A code word whose class fits and that is not widened decodes to its class's instruction (R94). -/
theorem decode_codeBits_of_class {ctx : CodeContext} {cls : CwClass} {c w : Nat} (hr : codeInRange c w = true)
    (h : (ctx.classFits cls c && !(ctx.phase.widens && decide (c = allOnes w))) = true) :
    (Encoded.code (codeBits c w)).decode ctx = .ok (codeInstr cls c w) := by
  rw [Bool.and_eq_true, Bool.not_eq_true', ← Bool.not_eq_true, Bool.and_eq_true, decide_eq_true_eq] at h
  obtain ⟨hcls, hplain⟩ := h
  rw [decode_codeBits ctx hr, decodeCode, classOf_of_fits hcls, if_neg hplain]

/-- An all-ones code word whose class fits is widened in phases FIRST and LOOP (R94, R176). -/
theorem decode_codeBits_of_allOnes {ctx : CodeContext} {cls : CwClass} {c w : Nat} (hr : codeInRange c w = true)
    (h : (ctx.phase.widens && ctx.classFits cls c) = true) (hc : c = allOnes w) :
    (Encoded.code (codeBits c w)).decode ctx = .ok (.cwWiden cls c w) := by
  rw [Bool.and_eq_true] at h
  obtain ⟨hphase, hcls⟩ := h
  rw [decode_codeBits ctx hr, decodeCode, classOf_of_fits hcls, if_pos ⟨hphase, hc⟩]

/-! ### Symbol words (R107) -/

/-- A symbol that has a symbol word is read back from it. -/
theorem symbolOfWord_toWord {x : Symbol} (h : Machine.symbolFits x = true) : symbolOfWord x.toWord = some x := by
  cases x with
  | idx i =>
    have hi : i < 2 ^ Config.idxW := by simpa [Machine.symbolFits] using h
    have hn : (BitVec.ofNat 16 i).toNat = i := Nat.mod_eq_of_lt (hi.trans (by decide))
    simp only [Symbol.toWord, if_pos hi, symbolOfWord, hn]
  | mclr | meoi => rfl

/-- The word a symbol was read from is its symbol word. -/
theorem toWord_of_symbolOfWord {w : SymWord} {x : Symbol} (h : symbolOfWord w = some x) : x.toWord = w := by
  unfold symbolOfWord at h
  split at h
  case isTrue hw => cases h; simp [Symbol.toWord, hw]
  case isFalse =>
    split at h
    case isTrue hw => cases h; exact hw.symm
    case isFalse =>
      split at h
      case isTrue hw => cases h; exact hw.symm
      case isFalse => cases h

/-- The unassigned symbol words. -/
theorem symbolOfWord_eq_none {w : SymWord} : symbolOfWord w = none ↔ 0x8002 ≤ w.toNat := by
  simp only [symbolOfWord, Config.idxW, ← BitVec.toNat_inj, BitVec.toNat_ofNat]
  split_ifs <;> simp <;> omega

/-! ### Packed code streams (R90, R91, R113) -/

/-- Bit `i` of a code word is bit `i` of its value (R91). -/
theorem getElem?_codeBits {w i : Nat} (c : Nat) (h : i < w) : (codeBits c w)[i]? = some (c.testBit i) := by
  induction w generalizing c i with
  | zero => omega
  | succ w ih =>
    cases i with
    | zero => rfl
    | succ i => simpa [codeBits, Nat.testBit_succ] using ih (c / 2) (by omega)

/-- Bit `i` of the number that bits spell is the bit at place `i`, zero where there is none (R66). -/
theorem testBit_bitsToNat (bits : List Bool) (i : Nat) : (bitsToNat bits).testBit i = bits[i]?.getD false := by
  induction bits generalizing i with
  | nil => simp [bitsToNat]
  | cons b bits ih =>
    cases i with
    | zero => cases b <;> simp [bitsToNat]
    | succ i =>
      have hhalf : (b.toNat + 2 * bitsToNat bits) / 2 = bitsToNat bits := by
        have := b.toNat_le; omega
      simp [bitsToNat, Nat.testBit_succ, hhalf, ih]

/-- Bit `j` of a packed byte is the bit at place `j` (R113). -/
theorem getLsbD_byteOfBits {bits : List Bool} {j : Nat} (hj : j < 8) :
    (byteOfBits bits).getLsbD j = bits[j]?.getD false := by
  rw [byteOfBits, BitVec.getLsbD_ofNat, testBit_bitsToNat]
  simp [hj]

/-- Packing takes eight bits after eight; of the last byte some may be missing (R113). -/
theorem packBits_of_ne_nil {bits : List Bool} (h : bits ≠ []) :
    packBits bits = byteOfBits bits :: packBits (bits.drop 8) := by
  match bits, h with
  | [_], _ | [_, _], _ | [_, _, _], _ | [_, _, _, _], _ | [_, _, _, _, _], _ | [_, _, _, _, _, _], _
  | [_, _, _, _, _, _, _], _ | _ :: _ :: _ :: _ :: _ :: _ :: _ :: _ :: _, _ => rfl

/-- Bit `j` of byte `k` of a packed bit string is its bit `8k + j` (R113). -/
theorem getElem?_packBits {bits : List Bool} {k j : Nat} (hj : j < 8) (h : 8 * k + j < bits.length) :
    ∃ b, (packBits bits)[k]? = some b ∧ bits[8 * k + j]? = some (b.getLsbD j) := by
  induction k generalizing bits with
  | zero =>
    refine ⟨byteOfBits bits, by rw [packBits_of_ne_nil (by rintro rfl; simp at h)]; rfl, ?_⟩
    rw [getLsbD_byteOfBits hj, List.getElem?_eq_getElem (by omega), List.getElem?_eq_getElem (by omega)]
    simp
  | succ k ih =>
    obtain ⟨b, hb, hbit⟩ := ih (bits := bits.drop 8) (by rw [List.length_drop]; omega)
    refine ⟨b, by rw [packBits_of_ne_nil (by rintro rfl; simp at h)]; exact hb, ?_⟩
    rw [← hbit, List.getElem?_drop]
    congr 1; omega

/-- A code stream is as many bits long as the widths of its code words together (R90, R92). -/
theorem length_flatMap_codeBits (codes : List (Nat × Nat)) :
    (codes.flatMap fun cw => codeBits cw.1 cw.2).length = (codes.map Prod.snd).sum := by
  simp [List.length_flatMap]

/-- In a code stream, bit `i` of a code word stands `i` bits after those of the words before it (R90). -/
theorem getElem?_codeStream (pre post : List (Nat × Nat)) {c w i : Nat} (h : i < w) :
    ((pre ++ (c, w) :: post).flatMap fun cw => codeBits cw.1 cw.2)[(pre.map Prod.snd).sum + i]? =
      some (c.testBit i) := by
  rw [List.flatMap_append, ← length_flatMap_codeBits, List.getElem?_append_right (by omega),
    Nat.add_sub_cancel_left, List.flatMap_cons, List.getElem?_append_left (by simpa using h), getElem?_codeBits c h]

/-! ### The obligations -/

/-- Settles O1, level by level: command words, code words, frame bytes. -/
theorem decodeOfEncodeIsTheInstruction : Obligations.DecodeOfEncodeIsTheInstruction := by
  intro ctx i hwf hfits
  cases i with
  | cwWiden cls c w =>
    simp only [Instr.wf, Bool.and_eq_true, decide_eq_true_eq] at hwf
    obtain ⟨⟨hr, -⟩, hc⟩ := hwf
    exact decode_codeBits_of_allOnes hr hfits hc
  | cwClear c w =>
    obtain ⟨hr, -⟩ := Bool.and_eq_true_iff.1 hwf
    exact decode_codeBits_of_class (cls := .clear) hr hfits
  | cwEoi c w =>
    simp only [Instr.wf, Bool.and_eq_true] at hwf
    obtain ⟨⟨hr, -⟩, -⟩ := hwf
    exact decode_codeBits_of_class (cls := .eoi) hr hfits
  | cwPresent c w => exact decode_codeBits_of_class (cls := .present) hwf hfits
  | cwAbsent c w => exact decode_codeBits_of_class (cls := .absent) hwf hfits
  | bStart | bEnd => rfl
  | bData b => exact congrArg _ (rowOfEncoding (.bData b) hwf)
  | _ => exact decodeCommand_of_encode hwf rfl

/-- Settles O2: a decoded word is its command's word, and the word of a selected row decodes. -/
theorem commandWordsFollowTheOpcodeMap : Obligations.CommandWordsFollowTheOpcodeMap := by
  intro w p
  cases h : decodeCommand w p with
  | ok i =>
    obtain ⟨hwf, q, he⟩ := encode_of_decodeCommand h
    have hrow := rowOfEncoding i hwf
    rw [he] at hrow
    exact ⟨hrow, hwf, q, he⟩
  | error e =>
    intro r hr
    by_contra hs
    obtain ⟨i, hi⟩ := decodeCommand_of_selects p hr (Bool.eq_true_of_not_eq_false hs)
    rw [h] at hi
    cases hi

/-- Settles O3, word by word. -/
theorem wordsOfTheSpecDecode : Obligations.WordsOfTheSpecDecode := by
  unfold Obligations.WordsOfTheSpecDecode
  decide

/-- Settles O4. -/
theorem symbolWordsNameSymbolsOneToOne : Obligations.SymbolWordsNameSymbolsOneToOne :=
  ⟨fun _ => symbolOfWord_toWord, fun _ _ => toWord_of_symbolOfWord, fun _ => symbolOfWord_eq_none⟩

/-- Settles O5: the bit read, the bit packed, and the bit of the code word are one. -/
theorem packedCodeStreamSpellsItsCodeWords : Obligations.PackedCodeStreamSpellsItsCodeWords := by
  intro pre post c w s hc hin
  refine ⟨hc, fun i hi => ?_⟩
  have hbit := getElem?_codeStream pre post (c := c) hi
  set q := (pre.map Prod.snd).sum + i
  have hq : 8 * (q / 8) + q % 8 = q := Nat.div_add_mod q 8
  obtain ⟨hlt, -⟩ := List.getElem?_eq_some_iff.1 hbit
  obtain ⟨b, hb, hpacked⟩ := getElem?_packBits (Nat.mod_lt q (by decide)) (hq.symm ▸ hlt)
  rw [hq, hbit, Option.some.injEq] at hpacked
  exact ⟨b, by rw [Machine.readIn, hin, Machine.readCell_bytesFrom_zero]; exact hb, hpacked⟩

end Sys2Proof
end

section
/-! The step on its input, the status numbers, the code width and the first code word, the sentinels, and bytes that arrive (spec/30_encoding.md R92 to R97, R106): settles O6, O13, O14, O29, O30, O38, O54, O55. -/

namespace Sys2Proof.Machine

/-! ### The step runs what is decoded (R240, R172) -/

/-- Settles O13. -/
theorem stepRunsTheDecodedInput : Obligations.StepRunsTheDecodedInput := by
  intro s rest hp
  refine ⟨fun w p i hh hi => ?_, fun b hh => step_input hp hh, step_wait hp⟩
  rw [step_input hp hh, issue, issueCommand, hi]

/-- During a decode a step fetches the code word that is there and runs it (R172, R175). -/
theorem step_of_codeAt {s : State} {c : Nat} (hp : s.phase ≠ .idle) (hc : CodeAt s c) :
    step s = issueCode c (afterFetch s) := by
  obtain ⟨hle, hbits⟩ := hc
  rw [step_running hp, codeStep_eq_consumeBits, issueCode_eq_runCode]
  exact consumeBits_here runCode hle hbits

/-- Settles O14. -/
theorem stepRunsTheFetchedCodeWord : Obligations.StepRunsTheFetchedCodeWord :=
  fun _ _ hp hc => step_of_codeAt hp hc

/-! ### Status numbers (R106) -/

/-- The numbers of what the block produces (R106). -/
theorem code_of_statusProduced {st : Status} (h : statusProduced st = true) :
    st.code ∈ [0x00#8, 0x03#8, 0x04#8, 0x05#8, 0x06#8, 0x80#8, 0x81#8, 0x82#8, 0x84#8] := by
  cases st with
  | ok => decide
  | fault k => cases k <;> revert h <;> decide
  | refused r => cases r <;> decide

/-- Settles O6. -/
theorem responsesCarryTheStatusNumbers : Obligations.ResponsesCarryTheStatusNumbers := by
  refine ⟨rfl, rfl, rfl, rfl, rfl, rfl, rfl, rfl, rfl, rfl, rfl, fun s r hinv hr => ?_⟩
  obtain ⟨hst, -⟩ := hinv.response r hr
  exact code_of_statusProduced hst

/-! ### The sentinels (R95, R147) -/

/-- During a decode only a fresh entry holds a sequence of one symbol (R186). -/
theorem State.Inv.readDict_eq_singleton {s : State} (hinv : s.Inv) (hp : s.phase ≠ .idle) (k : Nat) (x : Symbol) :
    readDict s k = some [x] ↔ readCell (freshDict s.mcs s.cts) k = some [x] := by
  obtain ⟨-, hct, -, -, hlong⟩ := hinv.decode hp
  obtain ⟨-, hfresh, -⟩ := hinv.table hct
  have hderived : readCell (s.dict.drop (s.cts + 2)) k ≠ some [x] := fun h => by
    simpa using hlong _ (mem_of_readCell h)
  rw [readDict, ← List.take_append_drop (s.cts + 2) s.dict, readCell_append, hfresh]
  simp [Option.or_eq_some_iff, hderived]

/-- Settles O29. -/
theorem sentinelsByValueAndByNumberAgree : Obligations.SentinelsByValueAndByNumberAgree := by
  intro s k hinv hp
  obtain ⟨-, hct, -⟩ := hinv.decode hp
  obtain ⟨hlegal, -⟩ := hinv.table hct
  obtain ⟨-, -, -, hcts⟩ := (legalConfig_iff _ _ _).1 hlegal
  simp only [hinv.readDict_eq_singleton hp, readCell_freshDict]
  constructor <;> split_ifs <;> simp <;> omega

/-! ### The first code word (R96, R173, R191) -/

/-- In phase EXPECT_CLEAR every class is the test for the Clear-Code (R173). -/
theorem execClass_of_expectClear {s : State} (hp : s.phase = .expectClear) (cls : CwClass) (c w : Nat) :
    execClass cls c w s = expectClear c s := by
  cases cls <;> simp [execClass, execCwClear, execCwEoi, execCwPresent, execCwAbsent, hp]

/-- Settles O30: with or without the modifier, in EXPECT_CLEAR a code word is its test for the Clear-Code. -/
theorem firstCodeWordMustBeClear : Obligations.FirstCodeWordMustBeClear := by
  intro cls c w s hp
  have hplain : exec (codeInstr cls c w) s = expectClear c s :=
    (exec_codeInstr cls c w s).trans (execClass_of_expectClear hp cls c w)
  have hwiden : exec (.cwWiden cls c w) s = expectClear c s := by
    rw [exec, execCwWiden, hp]
    exact execClass_of_expectClear hp cls c w
  rw [hplain, hwiden, and_self, and_self, expectClear, clrKey_eq]
  refine ⟨fun hc => if_pos hc, fun hc => ?_⟩
  rw [if_neg hc]
  exact faultsWith_enterFault s _ _

/-! ### The code width (R92, R93, R188) -/

/-- Where `o` is a next state, the width there is `w`. -/
def WidthIs (w : Nat) (o : StepOutcome) : Prop := ∀ t, o = .next t → t.codeWidth = w

section Width

variable {s t : State} {w : Nat}

theorem widthIs_next (hw : s.codeWidth = w) : WidthIs w (.next s) := fun _ h => by cases h; exact hw

theorem widthIs_raise (hw : s.codeWidth = w) (kind : FaultKind) (info : Nat) :
    WidthIs w (raise .lzw kind info s) := widthIs_next hw

theorem widthIs_fault (f : Fault) : WidthIs w (.fault f) := fun _ h => by cases h

theorem widthIs_refused (r : Refusal) : WidthIs w (.refused r) := fun _ h => by cases h

theorem widthIs_appendOut (hw : s.codeWidth = w) (seq : List Symbol) {go : State → StepOutcome}
    (hgo : ∀ u, u.codeWidth = w → WidthIs w (go u)) : WidthIs w (appendOut seq s go) := by
  obtain ⟨-, he⟩ | ⟨-, he⟩ := appendOut_cases seq s go <;> rw [he]
  · exact widthIs_raise hw _ _
  · exact hgo _ hw

theorem widthIs_insertNext (hw : s.codeWidth = w) (seq : List Symbol) {go : State → StepOutcome}
    (hgo : ∀ u, u.codeWidth = w → WidthIs w (go u)) : WidthIs w (insertNext seq s go) := by
  obtain ⟨-, he⟩ | ⟨-, -, he⟩ | ⟨-, -, he⟩ := insertNext_cases seq s go <;> rw [he]
  · exact widthIs_raise hw _ _
  · exact widthIs_raise hw _ _
  · exact hgo _ hw

theorem widthIs_expectClear (hw : s.codeWidth = w) (c : Nat) : WidthIs w (expectClear c s) := by
  unfold expectClear
  split
  · exact widthIs_next hw
  · exact widthIs_raise hw _ _

theorem widthIs_firstCode (hw : s.codeWidth = w) (c : Nat) : WidthIs w (firstCode c s) := by
  unfold firstCode
  split
  · exact widthIs_raise hw _ _
  · exact widthIs_appendOut hw _ fun _ hu => widthIs_next hu

theorem widthIs_presentCode (hw : s.codeWidth = w) (c : Nat) : WidthIs w (presentCode c s) := by
  unfold presentCode
  split
  · exact widthIs_raise hw _ _
  · refine widthIs_appendOut hw _ fun u hu => ?_
    split
    · exact widthIs_fault _
    · split
      · exact widthIs_raise hu _ _
      · exact widthIs_insertNext hu _ fun _ hv => widthIs_next hv

theorem widthIs_absentCode (hw : s.codeWidth = w) : WidthIs w (absentCode s) := by
  unfold absentCode
  split
  · exact widthIs_raise hw _ _
  · split
    · exact widthIs_fault _
    · exact widthIs_appendOut hw _ fun _ hu => widthIs_insertNext hu _ fun _ hv => widthIs_next hv

/-- No class changes the width by itself (R177 to R180). -/
theorem widthIs_execClass (hw : s.codeWidth = w) (cls : CwClass) (c n : Nat) :
    WidthIs w (execClass cls c n s) := by
  cases cls with
  | clear =>
    simp only [execClass, execCwClear]
    split
    · exact widthIs_refused _
    · exact widthIs_expectClear hw c
    · exact widthIs_firstCode (by exact hw) c
    · exact widthIs_presentCode (by exact hw) c
  | eoi =>
    simp only [execClass, execCwEoi]
    split
    · exact widthIs_refused _
    · exact widthIs_expectClear hw c
    · exact widthIs_firstCode hw c
    · exact widthIs_next hw
  | present =>
    simp only [execClass, execCwPresent]
    split
    · exact widthIs_refused _
    · exact widthIs_expectClear hw c
    · exact widthIs_firstCode hw c
    · exact widthIs_presentCode (by exact hw) c
  | absent =>
    simp only [execClass, execCwAbsent]
    split
    · exact widthIs_refused _
    · exact widthIs_expectClear hw c
    · exact widthIs_raise hw _ _
    · exact widthIs_absentCode (by exact hw)

/-- The widen rule and then a class: the width stays or is one more (R176). -/
theorem codeWidth_of_widen {cls : CwClass} {c n : Nat} (h : widen c s (execClass cls c n) = .next t) :
    t.codeWidth = s.codeWidth ∨ t.codeWidth = s.codeWidth + 1 := by
  obtain ⟨-, he⟩ | ⟨-, -, he⟩ | ⟨-, -, he⟩ := widen_cases c s (execClass cls c n) <;> rw [he] at h
  · exact .inl (widthIs_execClass rfl cls c n t h)
  · exact .inl (widthIs_raise rfl _ _ t h)
  · exact .inr (widthIs_execClass rfl cls c n t h)

/-- The run of a code word changes the width only if the word is all ones in phase FIRST or LOOP (R94, R176). -/
theorem codeWidth_of_runCode {c : Nat} (h : runCode c s = .next t) :
    t.codeWidth = s.codeWidth ∨
    (t.codeWidth = s.codeWidth + 1 ∧ (s.phase = .first ∨ s.phase = .loop) ∧ c = 2 ^ s.codeWidth - 1) := by
  unfold runCode at h
  dsimp only at h
  split at h
  case isFalse => exact .inl (widthIs_execClass rfl _ c _ t h)
  case isTrue hc =>
    obtain ⟨-, hc⟩ := hc
    rw [allOnes_eq] at hc
    unfold execCwWiden at h
    split at h
    case h_1 => cases h
    case h_2 => exact .inl (widthIs_execClass rfl _ c _ t h)
    case h_3 hp => exact (codeWidth_of_widen h).imp_right fun hw => ⟨hw, .inl hp, hc⟩
    case h_4 hp => exact (codeWidth_of_widen h).imp_right fun hw => ⟨hw, .inr hp, hc⟩

end Width

/-- Settles O38: the fetch faults, or the word fetched is run. -/
theorem codeWidthGrowsOnlyOnAllOnes : Obligations.CodeWidthGrowsOnlyOnAllOnes := by
  intro s t hp h _
  rw [step_running hp, codeStep_eq_consumeBits] at h
  obtain ⟨-, he⟩ | ⟨c, hle, hc, he⟩ | ⟨-, -, he⟩ := consumeBits_cases s.codeWidth
    { s with prev := if s.phase = .loop then s.cur else s.prev } runCode <;> rw [he] at h
  · cases h; exact .inl rfl
  · exact (codeWidth_of_runCode h).imp_right fun ⟨hw, hph, hall⟩ => ⟨hw, hph, hle, hall ▸ hc⟩
  · cases h

/-! ### Bytes that arrive (R97, R212) -/

/-- The state after bytes have entered FRBUF (R212). -/
def appended (bytes : List Byte) (s : State) : State :=
  { s with frbuf := s.frbuf ++ bytes, response := some ⟨.ok, 0, .nothing⟩ }

@[simp] theorem appended_frbuf (bytes : List Byte) (s : State) : (appended bytes s).frbuf = s.frbuf ++ bytes := rfl

@[simp] theorem appended_params (bytes : List Byte) (s : State) : (appended bytes s).params = s.params := rfl

@[simp] theorem appended_appended (xs ys : List Byte) (s : State) :
    appended ys (appended xs s) = appended (xs ++ ys) s := by
  simp [appended]

section Arrivals

variable {s : State}

theorem arrive_of_allows {bytes : List Byte} (hf : s.frFault = none)
    (hb : s.params.bufMax.allows (s.frbuf.length + bytes.length) = true) :
    arrive bytes s = .next (appended bytes s) := by
  obtain ⟨h, -⟩ | ⟨-, h, -⟩ | ⟨-, -, he⟩ := arrive_cases bytes s
  · exact absurd hf h
  · rw [hb] at h; cases h
  · exact he

/-- Whatever its class, a byte's arrival is that byte's (R97, log entry 5). -/
theorem exec_decodeFrameByte (b : Byte) (s : State) : exec (decodeFrameByte b) s = arrive [b] s := by
  unfold decodeFrameByte
  split_ifs with hstart hend
  · rw [hstart]; rfl
  · rw [hend]; rfl
  · rfl

/-- Bytes behind the first do not change `fr_swg` (R214). -/
theorem frSwgBit_append {buf : List Byte} (h : buf ≠ []) (bytes : List Byte) :
    frSwgBit (buf ++ bytes) = frSwgBit buf := by
  cases buf with
  | nil => exact absurd rfl h
  | cons x xs => rfl

/-- A byte behind the first sets `fr_hfg` if it is END, and never clears it (R213). -/
theorem frHfgBit_concat {buf : List Byte} (h : buf ≠ []) (b : Byte) :
    frHfgBit (buf ++ [b]) = (frHfgBit buf || decide (b = endByte)) := by
  cases buf with
  | nil => exact absurd rfl h
  | cons x xs =>
    simp only [List.cons_append, frHfgBit]
    split
    · simp
    · rw [Bool.eq_iff_iff]
      simp [or_assoc, eq_comm (a := b)]

/-- A lone byte is garbage unless it is START, and START alone is no whole frame (R213, R214). -/
theorem frBits_singleton (b : Byte) :
    frSwgBit [b] = decide (b ≠ startByte) ∧ frHfgBit [b] = decide (b ≠ startByte) := by
  refine ⟨rfl, ?_⟩
  by_cases h : b = startByte
  · subst h; rfl
  · simp [frHfgBit, h]

/-- An operation that is an arrival answers OK (R212). -/
theorem runOp_arrival {i : Instr} {bytes : List Byte} (hi : exec i s = arrive bytes s) (hf : s.frFault = none)
    (hb : s.params.bufMax.allows (s.frbuf.length + bytes.length) = true) :
    runOp i s = some (⟨.ok, 0, .nothing⟩, appended bytes s) := by
  rw [runOp, hi, arrive_of_allows hf hb]
  rfl

/-- Operations each of which is an arrival answer OK one after another, and leave all the bytes in FRBUF (R212). -/
theorem runOps_arrivals {α : Type} {op : α → Instr} {bytes : α → List Byte}
    (hop : ∀ a s, exec (op a) s = arrive (bytes a) s) (a : α) (l : List α) (hf : s.frFault = none)
    (hb : s.params.bufMax.allows (s.frbuf.length + ((a :: l).flatMap bytes).length) = true) :
    runOps ((a :: l).map op) s =
      some (List.replicate (l.length + 1) ⟨.ok, 0, .nothing⟩, appended ((a :: l).flatMap bytes) s) := by
  have hfirst := runOp_arrival (hop a s) hf (Capacity.allows_mono (by simp) hb)
  induction l generalizing a s with
  | nil => simp [runOps, hfirst]
  | cons a' l ih =>
    have hb' : (appended (bytes a) s).params.bufMax.allows
        ((appended (bytes a) s).frbuf.length + ((a' :: l).flatMap bytes).length) = true := by
      simpa [Nat.add_assoc] using hb
    have hsecond := runOp_arrival (hop a' (appended (bytes a) s)) hf
      (Capacity.allows_mono (by simp [Nat.add_assoc]) hb')
    rw [List.map_cons, runOps, hfirst]
    simp only [ih (s := appended (bytes a) s) a' hf hb' hsecond]
    simp [List.replicate_succ]

/-- The same from any list of operations but the empty one, which answers nothing. -/
theorem exists_runOps_arrivals {α : Type} {op : α → Instr} {bytes : α → List Byte}
    (hop : ∀ a s, exec (op a) s = arrive (bytes a) s) {l : List α} (hl : l ≠ []) (hf : s.frFault = none)
    (hb : s.params.bufMax.allows (s.frbuf.length + (l.flatMap bytes).length) = true) :
    ∃ rs, runOps (l.map op) s = some (rs, appended (l.flatMap bytes) s) ∧ ∀ r ∈ rs, r = ⟨.ok, 0, .nothing⟩ := by
  cases l with
  | nil => exact absurd rfl hl
  | cons a l => exact ⟨_, runOps_arrivals hop a l hf hb, fun _ hr => List.eq_of_mem_replicate hr⟩

end Arrivals

/-- Settles O54. -/
theorem frameBytesArriveByClass : Obligations.FrameBytesArriveByClass := by
  intro b s hf hb
  have harrive (x : Byte) : arrive [x] s = .next (appended [x] s) := arrive_of_allows hf hb
  refine ⟨harrive _, harrive _, harrive b, fun t ht => ?_⟩
  rw [exec_decodeFrameByte, harrive] at ht
  cases ht
  refine ⟨fun he => ?_, fun he => ⟨frSwgBit_append he [b], frHfgBit_concat he b⟩⟩
  simp only [statusOutputs, appended_frbuf, he]
  exact frBits_singleton b

/-- Settles O55: the parts, and the single bytes, are arrivals of the same bytes. -/
theorem appendIsItsBytesInTurn : Obligations.AppendIsItsBytesInTurn := by
  intro parts s t hf hb ht
  have hall : exec (.frAppend parts.flatten) s = .next (appended parts.flatten s) := arrive_of_allows hf hb
  rw [hall] at ht
  cases ht
  refine ⟨fun hne => ?_, fun hne => ?_⟩
  · rw [← List.flatMap_id] at hb ⊢
    exact exists_runOps_arrivals (fun _ _ => rfl) hne hf hb
  · have hbytes : parts.flatten.flatMap (fun b => [b]) = parts.flatten := List.flatMap_singleton' _
    have h := exists_runOps_arrivals exec_decodeFrameByte hne hf (hbytes.symm ▸ hb)
    rwa [hbytes] at h

end Sys2Proof.Machine
end

section
/-! The BitReader: loading a payload, reads that end before, on and past the last bit, reads in a row, and the operations that find no reader or no table (spec/40_bitreader.md R121 to R126): settles O16, O18, O19, O20, O21. -/

namespace Sys2Proof.Machine

/-! ### Loading a payload (R121) -/

section Load

variable {bytes : List Byte} {s : State}

theorem execBrLoad_of_fault (hf : s.lzwFault ≠ none) :
    execBrLoad bytes s = .next (enterRefusal .lzw .engineFaulted s) :=
  unlessFaulted_of_fault (by exact hf) _

theorem execBrLoad_of_tooLong (hf : s.lzwFault = none) (hb : s.params.inMax.allows bytes.length = false) :
    execBrLoad bytes s = .next (enterFault .lzw .capacityExceeded 1 s) := by
  unfold execBrLoad
  rw [unlessFaulted_of_none (by exact hf), if_neg (by simp [hb])]
  rfl

theorem execBrLoad_of_allows (hf : s.lzwFault = none) (hb : s.params.inMax.allows bytes.length = true) :
    execBrLoad bytes s = ok .nothing (loadInput bytes s) := by
  unfold execBrLoad
  rw [unlessFaulted_of_none (by exact hf), if_pos hb]

end Load

/-- Settles O16: the two checks in their order, and IN by what a loaded input reads as. -/
theorem brLoadConstructsTheReader : Obligations.BrLoadConstructsTheReader :=
  fun bytes _ =>
    ⟨execBrLoad_of_fault, execBrLoad_of_tooLong,
      fun hf hb => ⟨bytesFrom 0 bytes, execBrLoad_of_allows hf hb, readCell_bytesFrom_zero bytes⟩⟩

/-! ### Reads up to the last bit and past it, and reads in a row (R122 to R125) -/

/-- A number spelled by `w1` bits and one spelled by the `w2` bits after them make the number that all of them spell (R66, R125). -/
theorem BitsAre.append {s : State} {pos w1 w2 a b : Nat} (ha : BitsAre s pos w1 a)
    (hb : BitsAre s (pos + w1) w2 b) : BitsAre s pos (w1 + w2) (a + b <<< w1) := by
  obtain ⟨hlta, hbita⟩ := ha
  obtain ⟨hltb, hbitb⟩ := hb
  rw [Nat.add_comm a, Nat.shiftLeft_add_eq_or_of_lt hlta]
  refine ⟨Nat.or_lt_two_pow ?_ ?_, fun i hi => ?_⟩
  · rw [Nat.shiftLeft_eq, Nat.add_comm, Nat.pow_add]
    exact Nat.mul_lt_mul_of_pos_right hltb (Nat.two_pow_pos w1)
  · exact hlta.trans_le (Nat.pow_le_pow_right (by decide) (Nat.le_add_right w1 w2))
  · by_cases hlow : i < w1
    · obtain ⟨x, hx, hxi⟩ := hbita i hlow
      exact ⟨x, hx, by simp [hxi, Nat.not_le.2 hlow]⟩
    · have hle : w1 ≤ i := Nat.not_lt.1 hlow
      have ha0 : a.testBit i = false :=
        Nat.testBit_lt_two_pow (hlta.trans_le (Nat.pow_le_pow_right (by decide) hle))
      obtain ⟨x, hx, hxi⟩ := hbitb (i - w1) (by omega)
      have hi' : pos + w1 + (i - w1) = pos + i := by omega
      rw [hi'] at hx hxi
      exact ⟨x, hx, by simp [ha0, hle, hxi]⟩

section Reads

variable {width : Nat} {s : State}

/-- `BR.READ` of bits that are there answers their number and moves the cursor past them (R122). -/
theorem exec_brRead_here {v : Nat} (hf : s.lzwFault = none) (hbr : s.brValid = true)
    (hw : s.params.rwMax.allows width = true) (hle : s.bitpos + width ≤ 8 * s.inLen)
    (hv : BitsAre s s.bitpos width v) :
    exec (.brRead width) s = .next { s with
      bitpos := s.bitpos + width, response := some ⟨.ok, 0, .number v⟩ } :=
  (execBrRead_of_ready hf hbr hw).trans (consumeBits_here _ hle hv)

/-- `BR.READ` past the end raises `TruncatedInput` (R123). -/
theorem exec_brRead_past (hf : s.lzwFault = none) (hbr : s.brValid = true)
    (hw : s.params.rwMax.allows width = true) (hlt : 8 * s.inLen < s.bitpos + width) :
    exec (.brRead width) s = .next (enterFault .lzw .truncatedInput s.bitpos s) :=
  (execBrRead_of_ready hf hbr hw).trans (consumeBits_past _ hlt)

end Reads

/-- Settles O18: a read past the end faults; up to the end the bits are there, also where the read ends on the last one. -/
theorem brReadFaultsExactlyPastTheEnd : Obligations.BrReadFaultsExactlyPastTheEnd := by
  intro width s hf hbr hin hw
  by_cases hlt : 8 * s.inLen < s.bitpos + width
  · exact ⟨_, exec_brRead_past hf hbr hw hlt, iff_of_true hlt nofun, fun _ => rfl, fun he => by omega⟩
  · have hle : s.bitpos + width ≤ 8 * s.inLen := Nat.not_lt.1 hlt
    obtain ⟨v, hv⟩ := exists_bitsAre hin.1 hle
    exact ⟨_, exec_brRead_here hf hbr hw hle hv, iff_of_false hlt (not_not_intro hf),
      fun h => absurd h hlt, fun he => ⟨he, hf⟩⟩

/-- Settles O19: no bits spell 0, wherever the cursor is, and no capacity shuts out 0. -/
theorem brReadOfWidthZeroChangesNothing : Obligations.BrReadOfWidthZeroChangesNothing := by
  intro s hf hbr hle
  have hnone : BitsAre s s.bitpos 0 0 := readBits_spec.1 rfl
  exact exec_brRead_here hf hbr (Capacity.allows_zero _) hle hnone

/-- Settles O20: the bits of the two reads are the bits of the one read, and the cursor ends at the same place. -/
theorem brReadsCompose : Obligations.BrReadsCompose := by
  intro w1 w2 s hf hbr hin hw hle
  have hle1 : s.bitpos + w1 ≤ 8 * s.inLen := by omega
  have hle2 : s.bitpos + w1 + w2 ≤ 8 * s.inLen := by omega
  obtain ⟨a, ha⟩ := exists_bitsAre hin.1 hle1
  obtain ⟨b, hb⟩ := exists_bitsAre hin.1 hle2
  refine ⟨a, b, _, _, exec_brRead_here hf hbr (Capacity.allows_mono (Nat.le_add_right w1 w2) hw) hle1 ha,
    exec_brRead_here hf hbr (Capacity.allows_mono (Nat.le_add_left w2 w1) hw) hle2 hb, rfl, rfl, ?_⟩
  rw [exec_brRead_here hf hbr hw hle (ha.append hb), Nat.add_assoc]

/-! ### No reader, no table (R126, R149, R242) -/

section Checks

variable {s : State}

/-- The check for a reader or a table comes next after the check for a fault, before anything else the operation does (R242, R277). -/
theorem unlessFaulted_of_notReady {ready : Bool} (hf : s.lzwFault = none) (hr : ready = false)
    (go : StepOutcome) :
    unlessFaulted .lzw s (if ready = false then refuse .lzw .notReady s else go) =
      .next (enterRefusal .lzw .notReady s) := by
  rw [unlessFaulted_of_none (by exact hf), if_pos hr]
  rfl

/-- With a reader a width that RW_MAX does not allow is refused (R122, R269). -/
theorem execBrRead_of_badWidth {width : Nat} (hf : s.lzwFault = none) (hbr : s.brValid = true)
    (hw : s.params.rwMax.allows width = false) :
    execBrRead width s = .next (enterRefusal .lzw .badConfig s) := by
  unfold execBrRead
  rw [unlessFaulted_of_none (by exact hf), if_neg (by simp [hbr]), if_pos hw]
  rfl

end Checks

/-- Settles O21: the four operations share the check that comes before their operands. -/
theorem notReadyComesBeforeBadConfig : Obligations.NotReadyComesBeforeBadConfig :=
  fun _ hf =>
    ⟨fun hbr _ => unlessFaulted_of_notReady hf hbr _,
      fun hbr _ hw => execBrRead_of_badWidth hf hbr hw,
      fun hct _ _ => ⟨unlessFaulted_of_notReady hf hct _, unlessFaulted_of_notReady hf hct _,
        unlessFaulted_of_notReady hf hct _⟩⟩

end Sys2Proof.Machine
end

section
/-! The CodeTable: fresh tables, lookups, insertions one after another, and the Clear-Code that makes a decode's table fresh again (spec/41_codetable.md R142 to R152, spec/42_lzw_decompress.md R177): settles O22, O23, O24, O25, O26, O27, O28, O34. -/

namespace Sys2Proof.Machine

/-! ### CT.INIT (R142, R143) -/

/-- A configuration is illegal on each of the four conditions of R142 and on no other. -/
theorem legalConfig_eq_false_iff (p : Params) (mcs cts : Nat) :
    legalConfig p mcs cts = false ↔
      p.cwMax.allows (mcs + 1) = false ∨ p.ctsMax.allows cts = false ∨
      p.keyMax.allows (2 ^ mcs + 1) = false ∨ 2 ^ mcs < cts := by
  rw [← Bool.not_eq_true, legalConfig_iff]
  simp only [not_and_or, Bool.not_eq_true, Nat.not_le]

/-- A fresh table in the state, field by field (R143). -/
theorem initTable_eq (mcs cts : Nat) (s : State) :
    initTable mcs cts s = { s with
      dict := freshDict mcs cts, maxKey := 2 ^ mcs + 1, mcs := mcs, cts := cts, ctValid := true } := by
  rw [← clrKey_eq]; rfl

section Init

variable {mcs cts : Nat} {s : State}

theorem exec_ctInit_of_illegal (hf : s.lzwFault = none) (hc : legalConfig s.params mcs cts = false) :
    exec (.ctInit mcs cts) s = .next (enterRefusal .lzw .badConfig s) := by
  change execCtInit mcs cts s = _
  unfold execCtInit
  rw [unlessFaulted_of_none (by exact hf), if_neg (by simp [hc])]
  rfl

theorem exec_ctInit_of_legal (hf : s.lzwFault = none) (hc : legalConfig s.params mcs cts = true) :
    exec (.ctInit mcs cts) s = ok .nothing (initTable mcs cts s) := by
  change execCtInit mcs cts s = _
  unfold execCtInit
  rw [unlessFaulted_of_none (by exact hf), if_pos hc]

/-- `LZW.DECODE` of a legal configuration is not refused: IN_MAX passed faults, and every decode ends in a result or a fault (R171, R185). -/
theorem exec_lzwDecode_not_refused (bytes : List Byte) (hf : s.lzwFault = none)
    (hc : legalConfig s.params mcs cts = true) :
    ∃ t, exec (.lzwDecode mcs cts bytes) s = .next t ∧ t.lzwRefused = s.lzwRefused ∧
      ∀ reason info v, t.response ≠ some ⟨.refused reason, info, v⟩ := by
  cases hb : s.params.inMax.allows bytes.length with
  | false => exact ⟨_, execLzwDecode_of_tooLong hf hc hb, rfl, nofun⟩
  | true =>
    obtain ⟨t, ht, hend⟩ := runDecode_enterDecode mcs cts bytes hf
    refine ⟨t, (execLzwDecode_of_legal hf hc hb).trans ht, hend.lzwRefused, fun reason info v hr => ?_⟩
    obtain ⟨-, hans⟩ | ⟨_, _, -, hans⟩ := hend.answer <;> rw [hans] at hr <;> cases hr

end Init

/-- Settles O22: the two checks in their order, and the table by what a fresh one reads as. -/
theorem ctInitSeedsTheTable : Obligations.CtInitSeedsTheTable := by
  intro mcs cts s
  refine ⟨fun hf => unlessFaulted_of_fault (by exact hf) _, exec_ctInit_of_illegal, fun hf hc => ?_⟩
  refine ⟨freshDict mcs cts, ?_, readCell_freshDict mcs cts⟩
  rw [exec_ctInit_of_legal hf hc, initTable_eq]
  rfl

/-- Settles O23: the four conditions are those of an illegal configuration, which both operations check. -/
theorem illegalConfigurationsAreRefused : Obligations.IllegalConfigurationsAreRefused := by
  intro mcs cts bytes s hf
  rw [← legalConfig_eq_false_iff, Bool.not_eq_false]
  exact ⟨fun hc => ⟨exec_ctInit_of_illegal hf hc, execLzwDecode_of_illegal hf hc⟩,
    fun hc => ⟨⟨_, exec_ctInit_of_legal hf hc, rfl⟩, exec_lzwDecode_not_refused bytes hf hc⟩⟩

/-! ### CT.LOOKUP and CT.HAS (R144 to R148) -/

section Lookup

variable {code : Nat} {s : State}

theorem exec_ctLookup_of_present {seq : List Symbol} (hf : s.lzwFault = none) (hct : s.ctValid = true)
    (hk : readDict s code = some seq) : exec (.ctLookup code) s = ok (.symbols seq) s := by
  change execCtLookup code s = _
  unfold execCtLookup
  rw [unlessFaulted_of_none (by exact hf), if_neg (by simp [hct]), hk]

theorem exec_ctLookup_of_absent (hf : s.lzwFault = none) (hct : s.ctValid = true)
    (hk : readDict s code = none) :
    exec (.ctLookup code) s = .next (enterFault .lzw .decodeProtocolViolation (absentKeyInfo code) s) := by
  change execCtLookup code s = _
  unfold execCtLookup
  rw [unlessFaulted_of_none (by exact hf), if_neg (by simp [hct]), hk]
  rfl

theorem exec_ctHas_of_ready (hf : s.lzwFault = none) (hct : s.ctValid = true) :
    exec (.ctHas code) s = ok (.bit (readDict s code).isSome) s := by
  change execCtHas code s = _
  unfold execCtHas
  rw [unlessFaulted_of_none (by exact hf), if_neg (by simp [hct])]

/-- The keys of a fresh table: the literals, then the two sentinels (R143). -/
theorem freshDict_keys (mcs cts : Nat) :
    (freshDict mcs cts).map Prod.fst = List.range cts ++ [2 ^ mcs, 2 ^ mcs + 1] := by
  simp [freshDict, Function.comp_def]

/-- The keys of a valid table: the fresh ones, then one after another up to `max_key` (R146). -/
theorem State.Inv.dict_keys (h : s.Inv) (hct : s.ctValid = true) :
    s.dict.map Prod.fst = (List.range s.cts ++ [2 ^ s.mcs, 2 ^ s.mcs + 1]) ++
      List.range' (2 ^ s.mcs + 2) (s.maxKey - (2 ^ s.mcs + 1)) := by
  obtain ⟨-, hfresh, hderived, -⟩ := h.table hct
  rw [eoiKey_eq] at hderived
  rw [← freshDict_keys, ← hfresh, ← hderived, ← List.map_append, List.take_append_drop]

/-- The keys present in a valid table (R146). -/
theorem State.Inv.readDict_isSome_iff (h : s.Inv) (hct : s.ctValid = true) :
    (readDict s code).isSome = true ↔ code < s.cts ∨ (2 ^ s.mcs ≤ code ∧ code ≤ s.maxKey) := by
  obtain ⟨-, -, -, hmax, -⟩ := h.table hct
  rw [eoiKey_eq] at hmax
  rw [readDict, readCell_isSome, h.dict_keys hct]
  simp only [List.mem_append, List.mem_range, List.mem_cons, List.not_mem_nil, or_false, List.mem_range'_1]
  omega

end Lookup

/-- Settles O24: a literal of the fresh table is present. -/
theorem literalLookupAfterInit : Obligations.LiteralLookupAfterInit := by
  intro mcs cts c s hf hc hlt
  have hread : readCell (freshDict mcs cts) c = some [.idx c] := by rw [readCell_freshDict, if_pos hlt]
  exact ⟨_, exec_ctInit_of_legal hf hc, exec_ctLookup_of_present (by exact hf) rfl hread⟩

/-- Settles O25. -/
theorem ctLookupReturnsOrFaults : Obligations.CtLookupReturnsOrFaults :=
  fun _ _ =>
    ⟨fun hf => unlessFaulted_of_fault (by exact hf) _, fun hf hct => unlessFaulted_of_notReady hf hct _,
      fun hf hct => ⟨fun _ => exec_ctLookup_of_present hf hct, exec_ctLookup_of_absent hf hct⟩⟩

/-- Settles O26: the answer for every state, the present set by the keys the invariant names. -/
theorem ctHasAnswersThePresentSet : Obligations.CtHasAnswersThePresentSet := by
  intro code s
  refine ⟨fun hf => unlessFaulted_of_fault (by exact hf) _, fun hf hct => unlessFaulted_of_notReady hf hct _,
    exec_ctHas_of_ready, fun hinv hct => ⟨?_, hinv.readDict_isSome_iff hct⟩⟩
  obtain ⟨-, -, -, hmax, -⟩ := hinv.table hct
  rwa [eoiKey_eq] at hmax

/-! ### CT.INSERT (R107, R150) -/

/-- The symbols of a payload, word for word (R107). -/
theorem symbolsOfWords_eq_some_iff {ws : List SymWord} {seq : List Symbol} :
    symbolsOfWords ws = some seq ↔ ws.map symbolOfWord = seq.map some := by
  induction ws generalizing seq with
  | nil => cases seq <;> simp [symbolsOfWords]
  | cons w ws ih =>
    cases seq with
    | nil => cases hw : symbolOfWord w <;> cases hws : symbolsOfWords ws <;> simp [symbolsOfWords, hw, hws]
    | cons x xs =>
      rw [List.map_cons, List.map_cons, List.cons.injEq, ← ih]
      cases hw : symbolOfWord w <;> cases hws : symbolsOfWords ws <;> simp [symbolsOfWords, hw, hws]

/-- A payload with an unassigned word has no symbols (R107). -/
theorem symbolsOfWords_eq_none {ws : List SymWord} (h : ∃ w ∈ ws, 0x8002 ≤ w.toNat) :
    symbolsOfWords ws = none := by
  obtain ⟨w, hw, hlarge⟩ := h
  refine Option.eq_none_iff_forall_ne_some.2 fun seq hseq => ?_
  have hmem : none ∈ ws.map symbolOfWord := List.mem_map.2 ⟨w, hw, symbolOfWord_eq_none.2 hlarge⟩
  rw [symbolsOfWords_eq_some_iff.1 hseq] at hmem
  simp at hmem

/-- The state after a sequence has been inserted and the response given (R150). -/
def inserted (seq : List Symbol) (s : State) : State :=
  { s with
    maxKey := s.maxKey + 1, dict := writeCell s.dict (s.maxKey + 1) seq, response := some ⟨.ok, 0, .nothing⟩ }

@[simp] theorem inserted_maxKey (seq : List Symbol) (s : State) : (inserted seq s).maxKey = s.maxKey + 1 := rfl

theorem readDict_inserted (seq : List Symbol) (s : State) (k : Nat) :
    readDict (inserted seq s) k = if k = s.maxKey + 1 then some seq else readDict s k :=
  readCell_writeCell s.dict (s.maxKey + 1) k seq

section Insert

variable {ws : List SymWord} {seq : List Symbol} {s t : State} {r : Response}

theorem insertNext_of_keyMax {go : State → StepOutcome} (hk : s.params.keyMax.allows (s.maxKey + 1) = false) :
    insertNext seq s go = .next (enterFault .lzw .capacityExceeded 3 s) := by
  simp [insertNext, raise, hk]

theorem insertNext_of_seqMax {go : State → StepOutcome} (hk : s.params.keyMax.allows (s.maxKey + 1) = true)
    (hl : s.params.seqMax.allows seq.length = false) :
    insertNext seq s go = .next (enterFault .lzw .capacityExceeded 4 s) := by
  simp [insertNext, raise, hk, hl]

theorem insertNext_of_allows {go : State → StepOutcome} (hk : s.params.keyMax.allows (s.maxKey + 1) = true)
    (hl : s.params.seqMax.allows seq.length = true) :
    insertNext seq s go = go (writeDict (s.maxKey + 1) seq { s with maxKey := s.maxKey + 1 }) := by
  simp [insertNext, hk, hl]

theorem exec_ctInsert_of_unassigned (hf : s.lzwFault = none) (hct : s.ctValid = true)
    (hs : symbolsOfWords ws = none) :
    exec (.ctInsert ws) s = .next (enterRefusal .lzw .badConfig s) := by
  change execCtInsert ws s = _
  unfold execCtInsert
  rw [unlessFaulted_of_none (by exact hf), if_neg (by simp [hct]), hs]
  rfl

theorem exec_ctInsert_of_assigned (hf : s.lzwFault = none) (hct : s.ctValid = true)
    (hs : symbolsOfWords ws = some seq) : exec (.ctInsert ws) s = insertNext seq s (ok .nothing) := by
  change execCtInsert ws s = _
  unfold execCtInsert
  rw [unlessFaulted_of_none (by exact hf), if_neg (by simp [hct]), hs]

/-- An insertion that answers OK has inserted the symbols of its payload: each of its checks answers otherwise (R150). -/
theorem exists_inserted_of_ok (h : exec (.ctInsert ws) s = .next t) (hr : t.response = some r)
    (hok : r.status = .ok) : ∃ seq, symbolsOfWords ws = some seq ∧ t = inserted seq s := by
  have stopped {u : State} {st : Status} {info : Nat} (he : exec (.ctInsert ws) s = .next u)
      (hu : u.response = some ⟨st, info, .nothing⟩) (hne : st ≠ .ok) : False := by
    rw [h] at he
    cases he
    rw [hr] at hu
    cases hu
    exact hne hok
  by_cases hf : s.lzwFault = none
  case neg => exact (stopped (unlessFaulted_of_fault (by exact hf) _) rfl nofun).elim
  cases hct : s.ctValid with
  | false => exact (stopped (unlessFaulted_of_notReady hf hct _) rfl nofun).elim
  | true =>
    cases hs : symbolsOfWords ws with
    | none => exact (stopped (exec_ctInsert_of_unassigned hf hct hs) rfl nofun).elim
    | some seq =>
      have hexec := exec_ctInsert_of_assigned hf hct hs
      obtain ⟨-, he⟩ | ⟨-, -, he⟩ | ⟨-, -, he⟩ := insertNext_cases seq s (ok .nothing)
      · exact (stopped (hexec.trans he) rfl nofun).elim
      · exact (stopped (hexec.trans he) rfl nofun).elim
      · rw [hexec, he] at h
        cases h
        exact ⟨seq, rfl, rfl⟩

end Insert

/-- Settles O27: the checks in their order, and the table by what it reads as after a write. -/
theorem ctInsertAddsTheNextKey : Obligations.CtInsertAddsTheNextKey := by
  intro words s
  refine ⟨fun hf => unlessFaulted_of_fault (by exact hf) _, fun hf hct => unlessFaulted_of_notReady hf hct _,
    fun hf hct => ⟨fun hw => exec_ctInsert_of_unassigned hf hct (symbolsOfWords_eq_none hw), fun seq hseq => ?_⟩⟩
  have hlen : words.length = seq.length := by simpa using congrArg List.length hseq
  rw [exec_ctInsert_of_assigned hf hct (symbolsOfWords_eq_some_iff.2 hseq), hlen]
  exact ⟨insertNext_of_keyMax, insertNext_of_seqMax,
    fun hk hl => ⟨_, insertNext_of_allows hk hl, readDict_inserted seq s⟩⟩

/-! ### Insertions one after another (R151) -/

theorem runOp_eq_some {i : Instr} {s t : State} {r : Response} (h : runOp i s = some (r, t)) :
    exec i s = .next t ∧ t.response = some r := by
  unfold runOp at h
  split at h
  next u he =>
    obtain ⟨r', hr, hrt⟩ := Option.map_eq_some_iff.1 h
    cases hrt; exact ⟨he, hr⟩
  next => cases h
  next => cases h

/-- A run of operations is the run of the first and then of the others. -/
theorem runOps_cons_eq_some {i : Instr} {is : List Instr} {s t : State} {rs : List Response}
    (h : runOps (i :: is) s = some (rs, t)) :
    ∃ r u rs', exec i s = .next u ∧ u.response = some r ∧ runOps is u = some (rs', t) ∧ rs = r :: rs' := by
  rw [runOps] at h
  split at h
  next => cases h
  next r u hop =>
    obtain ⟨hexec, hresp⟩ := runOp_eq_some hop
    obtain ⟨⟨rs', t'⟩, hrest, hrt⟩ := Option.map_eq_some_iff.1 h
    cases hrt; exact ⟨r, u, rs', hexec, hresp, hrest, rfl⟩

/-- Insertions that all answer OK: each stands under the next key, and no earlier key is touched (R150, R151). -/
theorem readDict_of_runOps_ctInsert {payloads : List (List SymWord)} {rs : List Response} {s t : State}
    (h : runOps (payloads.map .ctInsert) s = some (rs, t)) (hok : ∀ r ∈ rs, r.status = .ok) :
    t.maxKey = s.maxKey + payloads.length ∧
    (∀ k ≤ s.maxKey, readDict t k = readDict s k) ∧
    ∀ (j : Nat) (ws : List SymWord), payloads[j]? = some ws →
      readDict t (s.maxKey + (j + 1)) = symbolsOfWords ws := by
  induction payloads generalizing s rs with
  | nil => cases h; exact ⟨rfl, fun _ _ => rfl, by simp⟩
  | cons ws payloads ih =>
    obtain ⟨r, u, rs', hexec, hresp, hrest, rfl⟩ := runOps_cons_eq_some h
    obtain ⟨hr, hrs⟩ := List.forall_mem_cons.1 hok
    obtain ⟨seq, hseq, rfl⟩ := exists_inserted_of_ok hexec hresp hr
    obtain ⟨hmax, hold, hnew⟩ := ih hrest hrs
    simp only [inserted_maxKey, readDict_inserted] at hmax hold hnew
    refine ⟨by rw [hmax, List.length_cons]; omega, fun k hk => ?_, fun j vs hj => ?_⟩
    · rw [hold k (by omega), if_neg (by omega)]
    · cases j with
      | zero =>
        cases hj
        rw [hold _ le_rfl, if_pos rfl, hseq]
      | succ j =>
        have hkey : s.maxKey + (j + 1 + 1) = s.maxKey + 1 + (j + 1) := by omega
        rw [hkey]
        exact hnew j vs hj

/-- Settles O28: after `CT.INIT` the largest key is EOI, and the insertions count up from it. -/
theorem insertionKeysCountUpFromEoi : Obligations.InsertionKeysCountUpFromEoi := by
  intro mcs cts payloads rs s t hf hc hrun hok
  obtain ⟨r, u, rs', hexec, -, hrest, rfl⟩ := runOps_cons_eq_some hrun
  rw [exec_ctInit_of_legal hf hc, initTable_eq] at hexec
  cases hexec
  obtain ⟨hmax, -, hkeys⟩ := readDict_of_runOps_ctInsert hrest (List.forall_mem_cons.1 hok).2
  exact ⟨hmax, hkeys⟩

/-! ### The Clear-Code after the first code word (R152, R177) -/

section Clear

variable {c : Nat} {x : Symbol} {xs seq p : List Symbol} {s : State}

theorem appendOut_of_allows {go : State → StepOutcome}
    (ho : s.params.outMax.allows (s.outLen + seq.length) = true) :
    appendOut seq s go = go { s with out := s.out ++ seq, outLen := s.outLen + seq.length } := by
  simp [appendOut, ho]

/-- An append leaves the table alone (R193). -/
theorem readDict_of_append (s : State) (o : List Symbol) (n k : Nat) :
    readDict { s with out := o, outLen := n } k = readDict s k := rfl

/-- In FIRST a present code is appended, and the phase is LOOP (R174). -/
theorem firstCode_of_present (hc : readDict s c = some seq)
    (ho : s.params.outMax.allows (s.outLen + seq.length) = true) :
    firstCode c s = .next { s with
      out := s.out ++ seq, outLen := s.outLen + seq.length, cur := c, phase := .loop } := by
  unfold firstCode
  rw [hc]
  exact appendOut_of_allows ho

/-- In LOOP a present code is appended; where `prev` is present, what remains is the insertion (R179). -/
theorem presentCode_of_prev (hc : readDict s c = some (x :: xs))
    (ho : s.params.outMax.allows (s.outLen + (x :: xs).length) = true) (hp : readDict s s.prev = some p) :
    presentCode c s = insertNext (p ++ [x])
      { s with out := s.out ++ x :: xs, outLen := s.outLen + (x :: xs).length }
      fun u => .next { u with phase := .loop } := by
  simp [presentCode, hc, appendOut_of_allows ho, readDict_of_append, hp]

/-- In LOOP a present code is appended; where `prev` is absent, the step faults then (R179). -/
theorem presentCode_of_no_prev (hc : readDict s c = some (x :: xs))
    (ho : s.params.outMax.allows (s.outLen + (x :: xs).length) = true) (hp : readDict s s.prev = none) :
    presentCode c s = .next (enterFault .lzw .decodeProtocolViolation (absentKeyInfo s.prev)
      { s with out := s.out ++ x :: xs, outLen := s.outLen + (x :: xs).length }) := by
  simp [presentCode, hc, appendOut_of_allows ho, readDict_of_append, hp, raise]

theorem exec_cwClear_first (w : Nat) (hp : s.phase = .first) :
    exec (.cwClear c w) s = firstCode c (initTable s.mcs s.cts s) := by
  change execCwClear c w s = _
  simp [execCwClear, hp]

theorem exec_cwClear_loop (w : Nat) (hp : s.phase = .loop) :
    exec (.cwClear c w) s = presentCode c (initTable s.mcs s.cts { s with cur := c }) := by
  change execCwClear c w s = _
  simp [execCwClear, hp]

/-- What the claims call a fresh entry is what a fresh table holds (R143). -/
theorem readCell_freshDict_eq_freshEntry (mcs cts k : Nat) :
    readCell (freshDict mcs cts) k = freshEntry mcs cts k := readCell_freshDict mcs cts k

/-- The Clear-Code's entry of a fresh table (R143). -/
theorem readDict_initTable_clear {mcs cts : Nat} (hcts : cts ≤ 2 ^ mcs) (s : State) :
    readDict (initTable mcs cts s) (2 ^ mcs) = some [.mclr] := by
  rw [readDict, initTable_dict, readCell_freshDict, if_neg (Nat.not_lt.2 hcts), if_pos rfl]

theorem length_of_freshEntry {mcs cts k : Nat} (h : freshEntry mcs cts k = some p) : p.length = 1 :=
  length_of_mem_freshDict (mem_of_readCell ((readCell_freshDict_eq_freshEntry mcs cts k).trans h))

end Clear

/-- Settles O34: the marker is present in the fresh table, so the word is handled as a present code over it. -/
theorem clearCodeReinitializesAndFallsThrough : Obligations.ClearCodeReinitializesAndFallsThrough := by
  intro w s hcts hout
  have hfresh := readCell_freshDict_eq_freshEntry s.mcs s.cts
  refine ⟨fun hp => ⟨freshDict s.mcs s.cts, ?_, hfresh⟩, fun hp => ?_⟩
  · rw [exec_cwClear_first w hp, firstCode_of_present (readDict_initTable_clear hcts s) hout, initTable_eq]
    rfl
  · have hmarker := readDict_initTable_clear hcts { s with cur := 2 ^ s.mcs }
    rw [exec_cwClear_loop w hp]
    refine ⟨fun p hprev hk hl => ?_, fun hprev => ?_⟩
    · have hlen : (p ++ [Symbol.mclr]).length = 2 := by simp [length_of_freshEntry hprev]
      refine ⟨writeCell (freshDict s.mcs s.cts) (2 ^ s.mcs + 2) (p ++ [.mclr]), ?_, fun k => ?_⟩
      · rw [presentCode_of_prev hmarker hout ((hfresh _).trans hprev), initTable_eq,
          insertNext_of_allows hk (by rw [hlen]; exact hl), ← hp]
        rfl
      · rw [readCell_writeCell, hfresh]
    · rw [presentCode_of_no_prev hmarker hout ((hfresh _).trans hprev)]
      exact ⟨_, rfl, rfl, rfl, rfl, rfl, rfl, ⟨rfl, rfl, rfl⟩, rfl, rfl, rfl⟩

end Sys2Proof.Machine
end

section
/-! The code words of a decode, class by class, in phases FIRST and LOOP, the widen rule before them, and a fetch past the end (spec/42_lzw_decompress.md R172 to R182, R190, R193): settles O31, O32, O33, O35, O36, O37, O39. -/

namespace Sys2Proof.Machine

/-! ### Faults within the run of a code word -/

/-- What a fault leaves of a state within the run of a code word, it leaves of the state the run began in (R183, R270). -/
theorem FaultsWith.of_underway {s u : State} {kind : FaultKind} {info : Nat} {o : StepOutcome}
    (h : FaultsWith u kind info o) (hu : Underway s u) : FaultsWith s kind info o := by
  obtain ⟨t, ho, hf, hr, hbr, hct, hp, hfr, href, hpar, hhost⟩ := h
  exact ⟨t, ho, hf, hr, hbr, hct, hp, hu.sameFr.trans hfr, href.trans hu.lzwRefused, hpar.trans hu.params,
    hhost.trans hu.host⟩

theorem Underway.faultsWith {s u : State} (h : Underway s u) (kind : FaultKind) (info : Nat) :
    FaultsWith s kind info (.next (enterFault .lzw kind info u)) :=
  (faultsWith_enterFault u kind info).of_underway h

/-- An append is within the run (R193). -/
theorem Underway.setOut {s u : State} (h : Underway s u) (o : List Symbol) (n : Nat) :
    Underway s { u with out := o, outLen := n } := { h with }

/-- The fetch touches nothing that `FaultsWith` names (R172, R175). -/
theorem FaultsWith.of_afterFetch {s : State} {kind : FaultKind} {info : Nat} {o : StepOutcome}
    (h : FaultsWith (afterFetch s) kind info o) : FaultsWith s kind info o := by
  obtain ⟨t, ho, hf, hr, hbr, hct, hp, hfr, hrest⟩ := h
  exact ⟨t, ho, hf, hr, hbr, hct, hp, { hfr with }, hrest⟩

/-! ### The classes in phases FIRST and LOOP (R174, R178 to R180) -/

section Classes

variable {c w : Nat} {x : Symbol} {xs seq : List Symbol} {s u : State}

theorem exec_cwPresent_first (hp : s.phase = .first) : exec (.cwPresent c w) s = firstCode c s := by
  change execCwPresent c w s = _
  rw [execCwPresent, hp]

theorem exec_cwEoi_first (hp : s.phase = .first) : exec (.cwEoi c w) s = firstCode c s := by
  change execCwEoi c w s = _
  rw [execCwEoi, hp]

theorem exec_cwAbsent_first (hp : s.phase = .first) :
    exec (.cwAbsent c w) s = .next (enterFault .lzw .decodeProtocolViolation (absentKeyInfo c) s) := by
  change execCwAbsent c w s = _
  rw [execCwAbsent, hp]
  rfl

theorem exec_cwPresent_loop (hp : s.phase = .loop) :
    exec (.cwPresent c w) s = presentCode c { s with cur := c } := by
  change execCwPresent c w s = _
  rw [execCwPresent, hp]

theorem exec_cwAbsent_loop (hp : s.phase = .loop) :
    exec (.cwAbsent c w) s = absentCode { s with cur := c } := by
  change execCwAbsent c w s = _
  rw [execCwAbsent, hp]

theorem exec_cwEoi_loop (hp : s.phase = .loop) : exec (.cwEoi c w) s = finish { s with cur := c } := by
  change execCwEoi c w s = _
  rw [execCwEoi, hp]

/-! ### The micro-operations whose outcome is known (R193) -/

theorem appendOut_of_outMax {go : State → StepOutcome}
    (ho : s.params.outMax.allows (s.outLen + seq.length) = false) :
    appendOut seq s go = .next (enterFault .lzw .capacityExceeded 5 s) := by
  simp [appendOut, ho, raise]

theorem firstCode_of_outMax (hc : readDict s c = some seq)
    (ho : s.params.outMax.allows (s.outLen + seq.length) = false) :
    firstCode c s = .next (enterFault .lzw .capacityExceeded 5 s) := by
  unfold firstCode
  rw [hc]
  exact appendOut_of_outMax ho

theorem presentCode_of_outMax (hc : readDict s c = some seq)
    (ho : s.params.outMax.allows (s.outLen + seq.length) = false) :
    presentCode c s = .next (enterFault .lzw .capacityExceeded 5 s) := by
  unfold presentCode
  rw [hc]
  exact appendOut_of_outMax ho

theorem absentCode_of_no_prev (hp : readDict s s.prev = none) :
    absentCode s = .next (enterFault .lzw .decodeProtocolViolation (absentKeyInfo s.prev) s) := by
  simp [absentCode, hp, raise]

theorem absentCode_of_outMax (hp : readDict s s.prev = some (x :: xs))
    (ho : s.params.outMax.allows (s.outLen + (x :: xs ++ [x]).length) = false) :
    absentCode s = .next (enterFault .lzw .capacityExceeded 5 s) := by
  unfold absentCode
  rw [hp]
  exact appendOut_of_outMax ho

/-- In LOOP an absent code appends the sequence of a present `prev` with its first symbol; what remains is the insertion (R180). -/
theorem absentCode_of_prev (hp : readDict s s.prev = some (x :: xs))
    (ho : s.params.outMax.allows (s.outLen + (x :: xs ++ [x]).length) = true) :
    absentCode s = insertNext (x :: xs ++ [x])
      { s with out := s.out ++ (x :: xs ++ [x]), outLen := s.outLen + (x :: xs ++ [x]).length }
      fun v => .next { v with phase := .loop } := by
  unfold absentCode
  rw [hp]
  exact appendOut_of_allows ho

/-- The insertion that ends a LOOP step: KEY_MAX, then SEQ_MAX, else the sequence stands under the next key and every other key reads as before (R179, R180, R193). -/
theorem lastInsert_spec (hu : Underway s u) (hp : u.phase = .loop) (seq : List Symbol) :
    (u.params.keyMax.allows (u.maxKey + 1) = false →
      FaultsWith s .capacityExceeded 3 (insertNext seq u fun v => .next { v with phase := .loop })) ∧
    (u.params.keyMax.allows (u.maxKey + 1) = true → u.params.seqMax.allows seq.length = false →
      FaultsWith s .capacityExceeded 4 (insertNext seq u fun v => .next { v with phase := .loop })) ∧
    (u.params.keyMax.allows (u.maxKey + 1) = true → u.params.seqMax.allows seq.length = true →
      ∃ d, (insertNext seq u fun v => .next { v with phase := .loop }) =
          .next { u with maxKey := u.maxKey + 1, dict := d } ∧
        ∀ k, readCell d k = if k = u.maxKey + 1 then some seq else readDict u k) := by
  refine ⟨fun hk => ?_, fun hk hl => ?_, fun hk hl => ?_⟩
  · rw [insertNext_of_keyMax hk]
    exact hu.faultsWith _ _
  · rw [insertNext_of_seqMax hk hl]
    exact hu.faultsWith _ _
  · refine ⟨_, ?_, fun k => readCell_writeCell u.dict _ k seq⟩
    rw [insertNext_of_allows hk hl, ← hp]
    rfl

end Classes

/-- Settles O31: in FIRST the three classes are the lookup and the append, or the fault of the lookup. -/
theorem firstRealCodeIsAppended : Obligations.FirstRealCodeIsAppended := by
  intro c w s hp
  rw [exec_cwPresent_first hp, exec_cwEoi_first hp, exec_cwAbsent_first hp]
  refine ⟨fun seq hc ho => ⟨firstCode_of_present hc ho, rfl⟩, fun seq hc ho => ?_, fun _ => ?_⟩
  · rw [firstCode_of_outMax hc ho]
    exact faultsWith_enterFault s _ _
  · exact faultsWith_enterFault s _ _

/-- Settles O35: in LOOP the class is `finish`. -/
theorem endOfInformationReturnsTheOutput : Obligations.EndOfInformationReturnsTheOutput :=
  fun _ _ _ hp => exec_cwEoi_loop hp

/-- Settles O32: the append, then the lookup of `prev`, then the insertion. -/
theorem presentCodeAppendsAndInserts : Obligations.PresentCodeAppendsAndInserts := by
  rintro c w x xs s t hp hc rfl
  have hcur : Underway s { s with cur := c } := (Underway.refl s).setCur c
  have hread : readDict { s with cur := c } c = some (x :: xs) := hc
  rw [exec_cwPresent_loop hp]
  refine ⟨fun ho => ?_, fun ho => ⟨fun hprev => ?_, fun p hprev => ?_⟩⟩
  · rw [presentCode_of_outMax hread ho]
    exact hcur.faultsWith _ _
  · rw [presentCode_of_no_prev hread ho hprev]
    exact (hcur.setOut _ _).faultsWith _ _
  · have hlen : (p ++ [x]).length = p.length + 1 := List.length_append
    rw [presentCode_of_prev hread ho hprev, ← hlen]
    exact lastInsert_spec (hcur.setOut _ _) hp (p ++ [x])

/-- Settles O33: the lookup of `prev`, then the append, then the insertion. -/
theorem absentCodeRepeatsThePreviousSequence : Obligations.AbsentCodeRepeatsThePreviousSequence := by
  intro c w s hp
  have hcur : Underway s { s with cur := c } := (Underway.refl s).setCur c
  rw [exec_cwAbsent_loop hp]
  refine ⟨fun hprev => ?_, ?_⟩
  · rw [absentCode_of_no_prev (by exact hprev)]
    exact hcur.faultsWith _ _
  rintro x xs t hprev rfl
  have hread : readDict { s with cur := c } s.prev = some (x :: xs) := hprev
  have hlen : (x :: xs ++ [x]).length = xs.length + 2 := by simp
  rw [← hlen]
  refine ⟨fun ho => ?_, fun ho => ?_⟩
  · rw [absentCode_of_outMax hread ho]
    exact hcur.faultsWith _ _
  · rw [absentCode_of_prev hread ho]
    exact lastInsert_spec (hcur.setOut _ _) hp (x :: xs ++ [x])

/-! ### The widen rule before the class (R94, R176) -/

section Widen

variable {cls : CwClass} {c w : Nat} {s : State}

/-- In LOOP every class writes `cur` first, so it may stand there before (R175). -/
theorem execClass_setCur (hp : s.phase = .loop) : execClass cls c w { s with cur := c } = execClass cls c w s := by
  cases cls <;> simp [execClass, execCwClear, execCwEoi, execCwPresent, execCwAbsent, hp]

/-- In FIRST and LOOP an all-ones code word is its class at the wider width (R176). -/
theorem execCwWiden_of_allOnes (hp : s.phase = .first ∨ s.phase = .loop) (hc : c = 2 ^ s.codeWidth - 1)
    (hw : s.params.cwMax.allows (s.codeWidth + 1) = true) :
    execCwWiden cls c w s = execClass cls c w { s with codeWidth := s.codeWidth + 1 } := by
  rcases hp with hp | hp
  · simp [execCwWiden, hp, widen, hc, hw]
  · rw [← execClass_setCur (by exact hp)]
    simp [execCwWiden, hp, widen, hc, hw]

/-- In FIRST and LOOP an all-ones code word that cannot widen faults before its class is handled (R176). -/
theorem faultsWith_execCwWiden_of_cwMax (hp : s.phase = .first ∨ s.phase = .loop) (hc : c = 2 ^ s.codeWidth - 1)
    (hw : s.params.cwMax.allows (s.codeWidth + 1) = false) :
    FaultsWith s .capacityExceeded 2 (execCwWiden cls c w s) := by
  rcases hp with hp | hp
  · have he : execCwWiden cls c w s = .next (enterFault .lzw .capacityExceeded 2 s) := by
      simp [execCwWiden, hp, widen, hc, hw, raise]
    exact he ▸ faultsWith_enterFault s _ _
  · have he : execCwWiden cls c w s = .next (enterFault .lzw .capacityExceeded 2 { s with cur := c }) := by
      simp [execCwWiden, hp, widen, hc, hw, raise]
    exact he ▸ ((Underway.refl s).setCur c).faultsWith _ _

/-- On a value that is not all ones the widen rule does nothing (R176). -/
theorem execCwWiden_of_ne (hp : s.phase = .first ∨ s.phase = .loop) (hc : c ≠ 2 ^ s.codeWidth - 1) :
    execCwWiden cls c w s = execClass cls c w s := by
  rcases hp with hp | hp
  · simp [execCwWiden, hp, widen, hc]
  · rw [← execClass_setCur hp]
    simp [execCwWiden, hp, widen, hc]

end Widen

/-- Settles O36: the three outcomes of the widen rule before the class. -/
theorem allOnesCodeWidensByOne : Obligations.AllOnesCodeWidensByOne := by
  intro cls w s hp
  simp only [exec_codeInstr]
  exact ⟨execCwWiden_of_allOnes hp rfl, faultsWith_execCwWiden_of_cwMax hp rfl, fun _ => execCwWiden_of_ne hp⟩

/-- Settles O37: after the widening (O36) each class is handled at the wider width as without it (O32 to O35). -/
theorem widenedCodeWordsComplete : Obligations.WidenedCodeWordsComplete := by
  intro cls w s hp hw
  obtain ⟨hwiden, -⟩ := allOnesCodeWidensByOne cls w s (.inr hp)
  rw [hwiden hw]
  refine ⟨?_, fun ho hk hl => ⟨?_, ?_, ?_⟩⟩
  · rintro rfl
    exact endOfInformationReturnsTheOutput _ w { s with codeWidth := s.codeWidth + 1 } hp
  · rintro x xs p rfl hc hprev
    obtain ⟨-, h⟩ := presentCodeAppendsAndInserts _ w x xs { s with codeWidth := s.codeWidth + 1 } _ hp hc rfl
    obtain ⟨-, h⟩ := h (by simp [ho, Capacity.allows])
    obtain ⟨-, -, h⟩ := h p hprev
    obtain ⟨d, he, hd⟩ := h (by simp [hk, Capacity.allows]) (by simp [hl, Capacity.allows])
    exact ⟨d, he, by simp [hd]⟩
  · rintro x xs rfl hprev
    obtain ⟨-, h⟩ := absentCodeRepeatsThePreviousSequence (2 ^ s.codeWidth - 1) w
      { s with codeWidth := s.codeWidth + 1 } hp
    obtain ⟨-, h⟩ := h x xs _ hprev rfl
    obtain ⟨-, -, h⟩ := h (by simp [ho, Capacity.allows])
    obtain ⟨d, he, hd⟩ := h (by simp [hk, Capacity.allows]) (by simp [hl, Capacity.allows])
    exact ⟨d, he, by simp [hd]⟩
  · rintro rfl hclr hcts hprev
    obtain ⟨-, h⟩ := clearCodeReinitializesAndFallsThrough w { s with codeWidth := s.codeWidth + 1 } hcts
      (by simp [ho, Capacity.allows])
    obtain ⟨h, -⟩ := h hp
    obtain ⟨d, he, hd⟩ := h [.idx s.prev] (if_pos hprev) (by simp [hk, Capacity.allows])
      (by simp [hl, Capacity.allows])
    rw [hclr]
    exact ⟨d, he, by simp [hd]⟩

/-! ### The fetch (R172, R185) -/

/-- Settles O39: the fetch is a read of bits, and nothing comes before it but `prev`. -/
theorem fetchPastTheEndFaults : Obligations.FetchPastTheEndFaults := by
  intro s hp hpast
  rw [step_running hp, codeStep_eq_consumeBits, consumeBits_past _ (by exact hpast)]
  exact Underway.faultsWith (by exact { Underway.refl s with }) _ _

end Sys2Proof.Machine
end

section
/-! A code word handled whole, from its fetch to its class (spec/42_lzw_decompress.md R172 to R176): what a hole in the table leads to (R187), and the decode of a stream of literals (R192, R194): settles O40, O43. -/

namespace Sys2Proof.Machine

/-! ### The class of a code word, and the code word with the widen rule (R94, R176) -/

section CodeWord

variable {c n : Nat} {seq : List Symbol} {s t u : State}

theorem classOf_of_clr (hc : c = 2 ^ s.mcs) : classOf (codeContext c s) c = .clear := by
  simp [classOf, codeContext, hc]

theorem classOf_of_eoi (hp : s.phase = .loop) (hc : c = 2 ^ s.mcs + 1) : classOf (codeContext c s) c = .eoi := by
  simp [classOf, codeContext, hc, hp]

theorem classOf_of_present (hclr : c ≠ 2 ^ s.mcs) (heoi : c ≠ 2 ^ s.mcs + 1) (hc : readDict s c = some seq) :
    classOf (codeContext c s) c = .present := by
  simp [classOf, codeContext, hclr, heoi, hc]

theorem classOf_of_absent (hclr : c ≠ 2 ^ s.mcs) (heoi : c ≠ 2 ^ s.mcs + 1) (hc : readDict s c = none) :
    classOf (codeContext c s) c = .absent := by
  simp [classOf, codeContext, hclr, heoi, hc]

/-- A code word that is there is run with the cursor past it (R172). -/
theorem codeStep_of_codeAt (hp : s.phase ≠ .idle) (hc : CodeAt s c) : codeStep s = runCode c (afterFetch s) := by
  rw [← step_running hp, step_of_codeAt hp hc, issueCode_eq_runCode]

theorem runCode_of_ne (hc : c ≠ 2 ^ s.codeWidth - 1) :
    runCode c s = execClass (classOf (codeContext c s) c) c s.codeWidth s := by
  simp [runCode, hc]

/-- Where the widening that a code word may ask for is allowed, the word is its class at some width (R176). -/
theorem exists_runCode_eq (hp : s.phase = .first ∨ s.phase = .loop)
    (hw : c = 2 ^ s.codeWidth - 1 → s.params.cwMax.allows (s.codeWidth + 1) = true) :
    ∃ n, s.codeWidth ≤ n ∧
      runCode c s = execClass (classOf (codeContext c s) c) c s.codeWidth { s with codeWidth := n } := by
  by_cases hc : c = 2 ^ s.codeWidth - 1
  · have hph : s.phase.widens = true := by rcases hp with hp | hp <;> rw [hp] <;> rfl
    refine ⟨s.codeWidth + 1, Nat.le_succ _, ?_⟩
    rw [← execCwWiden_of_allOnes hp hc (hw hc)]
    simp [runCode, codeContext, hph, ← hc]
  · exact ⟨s.codeWidth, le_rfl, runCode_of_ne hc⟩

/-- The class of the code word that is there does not depend on the fetch; where its widening is allowed, a step in FIRST or LOOP is that class at some width (R172, R176). -/
theorem exists_codeStep_eq (hp : s.phase = .first ∨ s.phase = .loop) (hc : CodeAt s c)
    (hw : c = 2 ^ s.codeWidth - 1 → s.params.cwMax.allows (s.codeWidth + 1) = true) :
    ∃ n, s.codeWidth ≤ n ∧ codeStep s =
      execClass (classOf (codeContext c s) c) c s.codeWidth { afterFetch s with codeWidth := n } := by
  have hne : s.phase ≠ .idle := by rcases hp with hp | hp <;> simp [hp]
  rw [codeStep_of_codeAt hne hc]
  exact exists_runCode_eq (s := afterFetch s) hp hw

/-- A code word after which the decode goes on has stayed within its run. -/
theorem CodeRun.underway (h : CodeRun s t) (ht : t.phase ≠ .idle) : Underway s t := by
  cases h with
  | goesOn hu => exact hu
  | faults | finishes => exact absurd rfl ht

theorem NoEmptyEntry.exists_cons (h : NoEmptyEntry s) (hc : readDict s c = some seq) : ∃ x xs, seq = x :: xs :=
  List.exists_cons_of_ne_nil (h _ (mem_of_readCell hc))

end CodeWord

/-! ### After an absent code that is not the next key (R187) -/

section Hole

variable {c w : Nat} {s t : State}

/-- A key that is absent in a valid table is absent in a fresh one (R146). -/
theorem State.Inv.freshDict_absent (h : s.Inv) (hct : s.ctValid = true) (hc : readDict s c = none) :
    readCell (freshDict s.mcs s.cts) c = none := by
  obtain ⟨-, hfresh, -⟩ := h.table hct
  rw [readDict, ← List.take_append_drop (s.cts + 2) s.dict, readCell_append, hfresh, Option.or_eq_none_iff] at hc
  obtain ⟨hc, -⟩ := hc
  exact hc

/-- An absent code after which the decode goes on stands in `cur`, and has changed the table at the next key only (R180). -/
theorem absent_goesOn (hp : s.phase = .loop) (hne : NoEmptyEntry s) (h : exec (.cwAbsent c w) s = .next t)
    (ht : t.phase ≠ .idle) : t.cur = c ∧ ∀ k ≠ s.maxKey + 1, readDict t k = readDict s k := by
  have hno {kind : FaultKind} {info : Nat} (hf : FaultsWith s kind info (exec (.cwAbsent c w) s)) : False := by
    rw [h] at hf
    obtain ⟨_, ⟨⟩, -, -, -, -, hidle, -⟩ := hf
    exact ht hidle
  obtain ⟨hnone, hsome⟩ := absentCodeRepeatsThePreviousSequence c w s hp
  cases hprev : readDict s s.prev with
  | none => exact (hno (hnone hprev)).elim
  | some p =>
    obtain ⟨x, xs, rfl⟩ := hne.exists_cons hprev
    obtain ⟨hout, hin⟩ := hsome x xs _ hprev rfl
    have ho := Bool.eq_true_of_not_eq_false fun ho => hno (hout ho)
    obtain ⟨hkey, hseq, hgo⟩ := hin ho
    have hk := Bool.eq_true_of_not_eq_false fun hk => hno (hkey hk)
    have hl := Bool.eq_true_of_not_eq_false fun hl => hno (hseq hk hl)
    obtain ⟨d, he, hd⟩ := hgo hk hl
    rw [h] at he
    cases he
    exact ⟨rfl, fun k hne => (hd k).trans (if_neg hne)⟩

/-- In LOOP a present code whose `prev` is absent faults on `prev` after the append (R179, R181). -/
theorem faultsWith_presentCode_of_no_prev {u : State} {x : Symbol} {xs : List Symbol} (hu : Underway s u)
    (hc : readDict u c = some (x :: xs)) (ho : u.params.outMax = .unbounded) (hprev : readDict u u.prev = none) :
    FaultsWith s .decodeProtocolViolation (absentKeyInfo u.prev) (presentCode c u) := by
  rw [presentCode_of_no_prev hc (by simp [ho, Capacity.allows]) hprev]
  exact (hu.setOut _ _).faultsWith _ _

/-- In LOOP every class but End-of-Information looks `prev` up, in the table or in the fresh one, and faults on it where it is absent (R177, R179, R180). -/
theorem faultsWith_execClass_of_no_prev (hp : s.phase = .loop) (hne : NoEmptyEntry s) (hcts : s.cts ≤ 2 ^ s.mcs)
    (ho : s.params.outMax = .unbounded) (hprev : readDict s s.prev = none)
    (hfresh : readCell (freshDict s.mcs s.cts) s.prev = none) (heoi : c ≠ 2 ^ s.mcs + 1) :
    FaultsWith s .decodeProtocolViolation (absentKeyInfo s.prev)
      (execClass (classOf (codeContext c s) c) c w s) := by
  have hcur : Underway s { s with cur := c } := (Underway.refl s).setCur c
  by_cases hclr : c = 2 ^ s.mcs
  · have hmarker := readDict_initTable_clear hcts { s with cur := c }
    rw [← hclr] at hmarker
    rw [classOf_of_clr hclr, ← exec_codeInstr, codeInstr, exec_cwClear_loop w hp]
    exact faultsWith_presentCode_of_no_prev hcur.initTable hmarker ho hfresh
  · cases hc : readDict s c with
    | some seq =>
      obtain ⟨x, xs, rfl⟩ := hne.exists_cons hc
      rw [classOf_of_present hclr heoi hc, ← exec_codeInstr, codeInstr, exec_cwPresent_loop hp]
      exact faultsWith_presentCode_of_no_prev hcur hc ho hprev
    | none =>
      rw [classOf_of_absent hclr heoi hc, ← exec_codeInstr, codeInstr]
      obtain ⟨hfault, -⟩ := absentCodeRepeatsThePreviousSequence c w s hp
      exact hfault hprev

/-- The same for a whole step: under the invariant the sentinels are present, so an absent code is of class absent (R94, R180). -/
theorem codeStep_absent_goesOn (hinv : s.Inv) (hp : s.phase = .loop) (hc : CodeAt s c) (hnone : readDict s c = none)
    (hcode : codeStep s = .next t) (ht : t.phase ≠ .idle) (hcw : s.params.cwMax = .unbounded) :
    t.cur = c ∧ ∀ k ≠ s.maxKey + 1, readDict t k = readDict s k := by
  have hne : s.phase ≠ .idle := by simp [hp]
  obtain ⟨-, hct, -⟩ := hinv.decode hne
  obtain ⟨-, -, -, hmax, -⟩ := hinv.table hct
  rw [eoiKey_eq] at hmax
  have habsent : ¬ (c < s.cts ∨ 2 ^ s.mcs ≤ c ∧ c ≤ s.maxKey) := by
    rw [← hinv.readDict_isSome_iff hct, hnone]; simp
  obtain ⟨n, -, he⟩ := exists_codeStep_eq (.inr hp) hc fun _ => by simp [hcw, Capacity.allows]
  rw [he, classOf_of_absent (by omega) (by omega) hnone] at hcode
  exact absent_goesOn (s := { afterFetch s with codeWidth := n }) hp (hinv.noEmptyEntry hne) hcode ht

end Hole

/-- Settles O40: the absent code is `prev` in the next step, and every class but End-of-Information looks `prev` up. -/
theorem irregularAbsentCodeFaultsNext : Obligations.IrregularAbsentCodeFaultsNext := by
  intro s t c c' hinv hp hc hnone hnext hstep ht hcw hout hc' heoi
  have hne : s.phase ≠ .idle := by simp [hp]
  have htne : t.phase ≠ .idle := by simp [ht]
  have hcode : codeStep s = .next t := step_running hne ▸ hstep
  have htinv := inv_of_codeStep hinv hne hcode
  have hu := (codeRun_of_runCode (codeStep_of_codeAt hne hc ▸ hcode)).underway htne
  have hmcs : t.mcs = s.mcs := hu.mcs
  have hpar : t.params = s.params := hu.params
  obtain ⟨hcur, hdict⟩ := codeStep_absent_goesOn hinv hp hc hnone hcode htne (hpar ▸ hcw)
  have htnone : readDict t t.cur = none := by rw [hcur, hdict c hnext, hnone]
  refine ⟨hcur ▸ htnone, ?_⟩
  obtain ⟨-, htct, -⟩ := htinv.decode htne
  obtain ⟨hlegal, -⟩ := htinv.table htct
  obtain ⟨-, -, -, hcts⟩ := (legalConfig_iff _ _ _).1 hlegal
  have hprev : (afterFetch t).prev = t.cur := if_pos ht
  obtain ⟨n, hn, he⟩ := exists_codeStep_eq (.inr ht) hc' fun _ => by simp [hcw, Capacity.allows]
  rw [step_running htne, he, ← hcur, ← hprev]
  refine FaultsWith.of_afterFetch (FaultsWith.of_underway (u := { afterFetch t with codeWidth := n }) ?_ ?_)
  · exact faultsWith_execClass_of_no_prev (s := { afterFetch t with codeWidth := n }) ht (htinv.noEmptyEntry htne)
      hcts hout (hprev ▸ htnone) (hprev ▸ htinv.freshDict_absent htct htnone) (hmcs ▸ heoi)
  · exact { Underway.refl (afterFetch t) with codeWidth := hn }

/-! ### A stream of literals (R113, R192, R194) -/

/-- The code words of the indices `xs` as literals at width `mcs + 1`, between the Clear-Code and End-of-Information (R194). -/
def literalCodes (mcs : Nat) (xs : List Nat) : List (Nat × Nat) :=
  (2 ^ mcs, mcs + 1) :: xs.map (fun x => (x, mcs + 1)) ++ [(2 ^ mcs + 1, mcs + 1)]

/-- A code word of a loaded stream is there where the cursor stands behind the code words before it (R113). -/
theorem codeAt_of_packCodes {pre post : List (Nat × Nat)} {c w : Nat} {s : State} (hc : c < 2 ^ w) (hw : 0 < w)
    (hin : s.input = bytesFrom 0 (packCodes (pre ++ (c, w) :: post)))
    (hlen : s.inLen = (packCodes (pre ++ (c, w) :: post)).length)
    (hpos : s.bitpos = (pre.map Prod.snd).sum) (hcw : s.codeWidth = w) : CodeAt s c := by
  have hbits : BitsAre s s.bitpos s.codeWidth c := by
    rw [hpos, hcw]
    exact packedCodeStreamSpellsItsCodeWords pre post c w s hc hin
  have ⟨_, hbit⟩ := hbits
  obtain ⟨b, hlast, -⟩ := hbit (s.codeWidth - 1) (by omega)
  rw [readIn, hin, readCell_bytesFrom_zero] at hlast
  obtain ⟨hlt, -⟩ := List.getElem?_eq_some_iff.1 hlast
  exact ⟨by omega, hbits⟩

/-- The reader stands at code word `n` of the literal stream of `xs`, at the width of the stream (R172). -/
structure AtWord (mcs : Nat) (xs : List Nat) (n : Nat) (s : State) : Prop where
  input : s.input = bytesFrom 0 (packCodes (literalCodes mcs xs))
  inLen : s.inLen = (packCodes (literalCodes mcs xs)).length
  bitpos : s.bitpos = n * (mcs + 1)
  codeWidth : s.codeWidth = mcs + 1

section Literals

variable {mcs cts n m y : Nat} {xs read rest : List Nat} {s t u : State}

theorem AtWord.codeAt {pre post : List (Nat × Nat)} {c : Nat} (h : AtWord mcs xs pre.length s)
    (hc : c < 2 ^ (mcs + 1)) (hs : literalCodes mcs xs = pre ++ (c, mcs + 1) :: post) : CodeAt s c := by
  have hwidths : ∀ e ∈ literalCodes mcs xs, e.2 = mcs + 1 := by
    intro e he
    simp only [literalCodes, List.mem_append, List.mem_cons, List.mem_map, List.not_mem_nil, or_false] at he
    rcases he with (rfl | ⟨x, -, rfl⟩) | rfl <;> rfl
  have hpre : pre.map Prod.snd = List.replicate pre.length (mcs + 1) := by
    refine List.eq_replicate_iff.2 ⟨List.length_map .., fun w hw => ?_⟩
    obtain ⟨e, he, rfl⟩ := List.mem_map.1 hw
    exact hwidths e (hs ▸ List.mem_append_left _ he)
  refine codeAt_of_packCodes hc (Nat.succ_pos _) (hs ▸ h.input) (hs ▸ h.inLen) ?_ h.codeWidth
  rw [hpre, List.sum_replicate, smul_eq_mul, h.bitpos]

/-- After a code word that has not widened, the reader stands at the next one. -/
theorem AtWord.next (h : AtWord mcs xs n s) (hu : Underway (afterFetch s) u) (hw : u.codeWidth = s.codeWidth) :
    AtWord mcs xs (n + 1) u where
  input := hu.input.trans h.input
  inLen := hu.inLen.trans h.inLen
  bitpos := by rw [hu.bitpos, Nat.add_one_mul, ← h.bitpos, ← h.codeWidth]; rfl
  codeWidth := hw.trans h.codeWidth

/-- The literals of the stream are below `cts`, and the decode passes no capacity (R192, R193). -/
structure LiteralStream (p : Params) (mcs cts : Nat) (xs : List Nat) : Prop where
  one_le : 1 ≤ mcs
  cts_le : cts ≤ 2 ^ mcs
  literals : ∀ x ∈ xs, x < cts
  outMax : p.outMax.allows xs.length = true
  keyMax : p.keyMax.allows (2 ^ mcs + xs.length) = true
  seqMax : 2 ≤ xs.length → p.seqMax.allows 2 = true
  cwMax : mcs = 1 → p.cwMax.allows 3 = true

/-- The decode of the literal stream of `xs` in LOOP, with the indices `read` behind it: they are the output, and each after the first has made an entry behind the literals (R174, R179). -/
structure LiteralsRead (p : Params) (mcs cts : Nat) (xs read : List Nat) (s : State) : Prop where
  reader : AtWord mcs xs (read.length + 1) s
  params_eq : s.params = p
  mcs_eq : s.mcs = mcs
  phase : s.phase = .loop
  cur : s.cur < cts
  maxKey : s.maxKey = 2 ^ mcs + read.length
  out : s.out = read.map .idx
  outLen : s.outLen = read.length
  literals : ∀ k < cts, readDict s k = some [.idx k]

theorem runCode_of_expectClear {c : Nat} (hp : s.phase = .expectClear) : runCode c s = expectClear c s := by
  simp [runCode, codeContext, hp, Phase.widens, execClass_of_expectClear hp]

/-- A literal of the stream is neither sentinel nor all ones, so it runs as a present code (R179). -/
theorem codeStep_literal (hp : s.phase = .first ∨ s.phase = .loop) (hr : AtWord mcs xs (read.length + 1) s)
    (hm : s.mcs = mcs) (hcts : cts ≤ 2 ^ mcs) (hy : y < cts) (hxs : xs = read ++ y :: rest)
    (hread : readDict s y = some [.idx y]) :
    codeStep s = exec (.cwPresent y s.codeWidth) (afterFetch s) := by
  subst hm
  have hne : s.phase ≠ .idle := by rcases hp with hp | hp <;> simp [hp]
  have hpow : 2 ^ (s.mcs + 1) = 2 ^ s.mcs + 2 ^ s.mcs := by omega
  have hclr : y ≠ 2 ^ s.mcs := by omega
  have heoi : y ≠ 2 ^ s.mcs + 1 := by omega
  have hones : y ≠ 2 ^ s.codeWidth - 1 := by rw [hr.codeWidth]; omega
  have hcode : CodeAt s y := by
    refine AtWord.codeAt (mcs := s.mcs) (xs := xs) (pre := (2 ^ s.mcs, s.mcs + 1) :: read.map fun x => (x, s.mcs + 1))
      (post := rest.map (fun x => (x, s.mcs + 1)) ++ [(2 ^ s.mcs + 1, s.mcs + 1)]) ?_ (by omega) ?_
    · simpa using hr
    · simp [hxs, literalCodes]
  rw [codeStep_of_codeAt hne hcode, runCode_of_ne (s := afterFetch s) hones,
    classOf_of_present (s := afterFetch s) hclr heoi hread]
  rfl

/-- The decode of the literal stream of `xs` behind its Clear-Code (R173). -/
def afterClear (mcs cts : Nat) (xs : List Nat) (s : State) : State :=
  { afterFetch (enterDecode mcs cts (packCodes (literalCodes mcs xs)) s) with cur := 2 ^ mcs, phase := .first }

theorem atWord_enterDecode (mcs cts : Nat) (xs : List Nat) (s : State) :
    AtWord mcs xs 0 (enterDecode mcs cts (packCodes (literalCodes mcs xs)) s) :=
  ⟨rfl, rfl, (Nat.zero_mul _).symm, rfl⟩

theorem codeStep_clear (mcs cts : Nat) (xs : List Nat) (s : State) :
    codeStep (enterDecode mcs cts (packCodes (literalCodes mcs xs)) s) = .next (afterClear mcs cts xs s) := by
  have hcode := (atWord_enterDecode mcs cts xs s).codeAt (pre := []) (c := 2 ^ mcs) (by simp [Nat.pow_succ]) rfl
  rw [codeStep_of_codeAt (by simp) hcode, runCode_of_expectClear (by rfl), expectClear, clrKey_eq]
  exact if_pos rfl

/-- After the first literal the decode is in LOOP with one index behind it (R174). -/
theorem exists_codeStep_firstLiteral (hs : LiteralStream s.params mcs cts (y :: rest)) :
    ∃ t, codeStep (afterClear mcs cts (y :: rest) s) = .next t ∧
      LiteralsRead s.params mcs cts (y :: rest) [y] t := by
  set u := afterClear mcs cts (y :: rest) s
  have hy : y < cts := hs.literals y (by simp)
  have hout : u.params.outMax.allows (0 + 1) = true := Capacity.allows_mono (by simp) hs.outMax
  have hlit (k : Nat) (hk : k < cts) : readDict u k = some [.idx k] :=
    (readCell_freshDict mcs cts k).trans (if_pos hk)
  have hr : AtWord mcs (y :: rest) 1 u :=
    (atWord_enterDecode mcs cts (y :: rest) s).next { Underway.refl (afterFetch (enterDecode mcs cts _ s)) with } rfl
  have hp : u.phase = .first := rfl
  refine ⟨_, (codeStep_literal (read := []) (.inl hp) hr rfl hs.cts_le hy rfl (hlit y hy)).trans
    ((exec_cwPresent_first (by exact hp)).trans (firstCode_of_present (s := afterFetch u) (hlit y hy) hout)), ?_⟩
  exact {
    reader := hr.next { Underway.refl (afterFetch u) with } rfl
    params_eq := rfl
    mcs_eq := rfl
    phase := rfl
    cur := hy
    maxKey := by simp [afterFetch, u, afterClear]
    out := rfl
    outLen := rfl
    literals := hlit }

/-- A later literal goes on in LOOP with one index more (R179). -/
theorem exists_codeStep_nextLiteral {p : Params} (hs : LiteralStream p mcs cts xs)
    (h : LiteralsRead p mcs cts xs read s) (hread : read ≠ []) (hxs : xs = read ++ y :: rest) :
    ∃ t, codeStep s = .next t ∧ LiteralsRead p mcs cts xs (read ++ [y]) t := by
  have hy : y < cts := hs.literals y (by simp [hxs])
  have hlen : read.length + 1 ≤ xs.length := by simp [hxs]
  have hpos := List.length_pos_iff.2 hread
  have hcts := hs.cts_le
  have hpar := h.params_eq
  have hout : s.params.outMax.allows (s.outLen + 1) = true :=
    Capacity.allows_mono (by rw [h.outLen]; exact hlen) (hpar ▸ hs.outMax)
  have hkey : s.params.keyMax.allows (s.maxKey + 1) = true :=
    Capacity.allows_mono (by rw [h.maxKey]; omega) (hpar ▸ hs.keyMax)
  have hseq : s.params.seqMax.allows 2 = true := hpar ▸ hs.seqMax (by omega)
  have hprev : readDict (afterFetch s) (afterFetch s).prev = some [.idx s.cur] := by
    rw [show (afterFetch s).prev = s.cur from if_pos h.phase]
    exact h.literals s.cur h.cur
  obtain ⟨-, hstep⟩ := presentCodeAppendsAndInserts y s.codeWidth (.idx y) [] (afterFetch s) _ h.phase
    (h.literals y hy) rfl
  obtain ⟨-, hstep⟩ := hstep hout
  obtain ⟨-, -, hstep⟩ := hstep _ hprev
  obtain ⟨d, he, hd⟩ := hstep hkey hseq
  refine ⟨_, (codeStep_literal (.inr h.phase) h.reader h.mcs_eq hcts hy hxs (h.literals y hy)).trans he, ?_⟩
  exact {
    reader := by
      rw [List.length_append]
      exact h.reader.next { Underway.refl (afterFetch s) with } rfl
    params_eq := hpar
    mcs_eq := h.mcs_eq
    phase := h.phase
    cur := hy
    maxKey := by simp [afterFetch, h.maxKey, Nat.add_assoc]
    out := by simp [afterFetch, h.out]
    outLen := by simp [afterFetch, h.outLen]
    literals := fun k hk => by
      have hne : k ≠ s.maxKey + 1 := by rw [h.maxKey]; omega
      exact ((hd k).trans (if_neg hne)).trans (h.literals k hk) }

/-- Only at `mcs = 1` is End-of-Information all ones at the width of the stream. -/
theorem eq_one_of_eoi_allOnes (h : 2 ^ mcs + 1 = 2 ^ (mcs + 1) - 1) : mcs = 1 :=
  Nat.pow_right_injective (le_refl 2) (by rw [Nat.pow_succ] at h; dsimp only; omega)

/-- End-of-Information after the last literal ends the decode with the indices (R178). -/
theorem exists_codeStep_lastWord {p : Params} (hs : LiteralStream p mcs cts xs) (h : LiteralsRead p mcs cts xs xs s) :
    ∃ t, codeStep s = .next t ∧ t.phase = .idle ∧ t.response = some ⟨.ok, 0, .symbols (xs.map .idx)⟩ := by
  have hcode : CodeAt s (2 ^ mcs + 1) := by
    refine AtWord.codeAt (mcs := mcs) (xs := xs) (pre := (2 ^ mcs, mcs + 1) :: xs.map fun x => (x, mcs + 1))
      (post := []) ?_ ?_ rfl
    · simpa using h.reader
    · have := Nat.pow_le_pow_right (n := 2) (by decide) hs.one_le
      omega
  obtain ⟨n, -, he⟩ := exists_codeStep_eq (.inr h.phase) hcode fun hc => by
    rw [h.reader.codeWidth] at hc ⊢
    obtain rfl := eq_one_of_eoi_allOnes hc
    exact h.params_eq ▸ hs.cwMax rfl
  rw [classOf_of_eoi h.phase (by rw [h.mcs_eq]), ← exec_codeInstr, codeInstr, exec_cwEoi_loop (by exact h.phase)] at he
  exact ⟨_, he, rfl, by rw [← h.out]; rfl⟩

/-- A decode that ends does not end in a step after which it goes on. -/
theorem exists_runDecode_of_codeStep (hp : s.phase ≠ .idle) (hs : codeStep s = .next u) (hu : u.phase ≠ .idle)
    (ht : runDecode n s = .next t) (hend : t.phase = .idle) : ∃ m, runDecode m u = .next t := by
  cases n with
  | zero => cases ht; exact absurd hend hp
  | succ n => exact ⟨n, by simpa [runDecode, hs, hu] using ht⟩

/-- A decode ends in the first state in which the phase is IDLE (R182, R183). -/
theorem eq_of_runDecode_of_codeStep (hp : s.phase ≠ .idle) (hs : codeStep s = .next u) (hu : u.phase = .idle)
    (ht : runDecode n s = .next t) (hend : t.phase = .idle) : t = u := by
  cases n with
  | zero => cases ht; exact absurd hend hp
  | succ n => simpa [runDecode, hs, hu, eq_comm] using ht

/-- From the first literal on, the decode of the stream answers its indices: by induction on the literals that are still to come. -/
theorem response_of_literalsRead {p : Params} (hs : LiteralStream p mcs cts xs) (h : LiteralsRead p mcs cts xs read s)
    (hread : read ≠ []) (hxs : xs = read ++ rest) (ht : runDecode n s = .next t) (hend : t.phase = .idle) :
    t.response = some ⟨.ok, 0, .symbols (xs.map .idx)⟩ := by
  have hp : s.phase ≠ .idle := by simp [h.phase]
  induction rest generalizing read s n with
  | nil =>
    obtain rfl : xs = read := by simpa using hxs
    obtain ⟨u, hu, hidle, hresp⟩ := exists_codeStep_lastWord hs h
    rw [eq_of_runDecode_of_codeStep hp hu hidle ht hend]
    exact hresp
  | cons y rest ih =>
    obtain ⟨u, hu, hnext⟩ := exists_codeStep_nextLiteral hs h hread hxs
    have hune : u.phase ≠ .idle := by simp [hnext.phase]
    obtain ⟨m, hm⟩ := exists_runDecode_of_codeStep hp hu hune ht hend
    exact ih hnext (by simp) (by simp [hxs]) hm hune

/-- The decode of the stream answers its indices: the Clear-Code, the first literal, then the others (R173, R174). -/
theorem response_of_literalStream (hs : LiteralStream s.params mcs cts xs) (hne : xs ≠ [])
    (ht : runDecode n (enterDecode mcs cts (packCodes (literalCodes mcs xs)) s) = .next t) (hend : t.phase = .idle) :
    t.response = some ⟨.ok, 0, .symbols (xs.map .idx)⟩ := by
  obtain ⟨y, rest, rfl⟩ := List.exists_cons_of_ne_nil hne
  obtain ⟨n, hn⟩ := exists_runDecode_of_codeStep (by simp) (codeStep_clear mcs cts (y :: rest) s) nofun ht hend
  obtain ⟨u, hu, hfirst⟩ := exists_codeStep_firstLiteral hs
  obtain ⟨m, hm⟩ := exists_runDecode_of_codeStep (by simp [afterClear]) hu (by simp [hfirst.phase]) hn hend
  exact response_of_literalsRead (rest := rest) hs hfirst (by simp) rfl hm hend

end Literals

/-- Settles O43: every decode ends (O45), and this one answers the indices. -/
theorem literalStreamDecodesToItsIndices : Obligations.LiteralStreamDecodesToItsIndices := by
  rintro mcs cts xs s hf hlegal hmcs hne hxs bytes rfl hin hout hkey hseq hcw
  obtain ⟨-, -, -, hcts⟩ := (legalConfig_iff _ _ _).1 hlegal
  have hs : LiteralStream s.params mcs cts xs := ⟨hmcs, hcts, hxs, hout, hkey, hseq, hcw⟩
  obtain ⟨t, ht, hend⟩ := runDecode_enterDecode mcs cts (packCodes (literalCodes mcs xs)) hf
  have hresp := response_of_literalStream hs hne ht hend.phase
  obtain ⟨hbr, hct, hph, hfr, hpar, hhost, href, ⟨hfault, -⟩ | ⟨k, i, -, hfresp⟩⟩ := hend
  · exact ⟨t, (execLzwDecode_of_legal hf hlegal hin).trans ht, hresp, hph, hbr, hct, hfault, href, hpar, hhost, hfr⟩
  · rw [hfresp] at hresp
    cases hresp

end Sys2Proof.Machine
end

section
/-! Noninterference of a decode with the state before it, by running two states side by side (spec/42_lzw_decompress.md R171, R189): settles O44. -/

namespace Sys2Proof.Machine

/-! ### Two decodes that differ in what the entry does not write -/

/-- `s` with another `prev` and another refused flag, as an earlier operation may have left them. -/
def withStale (p : Nat) (r : Bool) (s : State) : State := { s with prev := p, lzwRefused := r }

/-- Two runs of a decode, from code word to code word: `cur` is stale until the first code word is read, `prev` until the first fetch in LOOP (R171, R175), and a decode that succeeds has read both. -/
inductive Twin : State → State → Prop
  | begins {t : State} (c p : Nat) (r : Bool) (hp : t.phase = .expectClear) : Twin t (withStale p r { t with cur := c })
  | goesOn {t : State} (p : Nat) (r : Bool) (hp : t.phase = .first ∨ t.phase = .loop) : Twin t (withStale p r t)
  | faults {u : State} (kind : FaultKind) (info c p : Nat) (r : Bool) :
      Twin (enterFault .lzw kind info u) (enterFault .lzw kind info (withStale p r { u with cur := c }))
  | finishes {t : State} (r : Bool) (hp : t.phase = .idle) : Twin t (withStale t.prev r t)

theorem Twin.phase_eq {t t' : State} (h : Twin t t') : t'.phase = t.phase := by cases h <;> rfl

section Run

variable {c w p : Nat} {r : Bool} {seq : List Symbol} {s : State} {go : State → StepOutcome}

theorem twin_raise (kind : FaultKind) (info p : Nat) (r : Bool) (s : State) :
    Alike Twin (raise .lzw kind info s) (raise .lzw kind info (withStale p r s)) :=
  .next (.faults kind info s.cur p r)

theorem twin_appendOut
    (hgo : Alike Twin (go { s with out := s.out ++ seq, outLen := s.outLen + seq.length })
      (go (withStale p r { s with out := s.out ++ seq, outLen := s.outLen + seq.length }))) :
    Alike Twin (appendOut seq s go) (appendOut seq (withStale p r s) go) :=
  .ite (fun _ => twin_raise _ _ p r s) fun _ => hgo

/-- The insertion that ends a LOOP step (R179, R180). -/
theorem twin_lastInsert (seq : List Symbol) (p : Nat) (r : Bool) (s : State) :
    Alike Twin (insertNext seq s fun u => .next { u with phase := .loop })
      (insertNext seq (withStale p r s) fun u => .next { u with phase := .loop }) :=
  .ite (fun _ => twin_raise _ _ p r s) fun _ => .ite (fun _ => twin_raise _ _ p r s) fun _ =>
    .next (.goesOn (t := { writeDict (s.maxKey + 1) seq { s with maxKey := s.maxKey + 1 } with phase := .loop })
      p r (.inr rfl))

theorem twin_widen (hgo : ∀ u, u.phase = s.phase → u.prev = s.prev → Alike Twin (go u) (go (withStale p r u))) :
    Alike Twin (widen c s go) (widen c (withStale p r s) go) :=
  .ite (fun _ => .ite (fun _ => twin_raise _ _ p r s) fun _ => hgo { s with codeWidth := s.codeWidth + 1 } rfl rfl)
    fun _ => hgo s rfl rfl

theorem twin_firstCode (c p : Nat) (r : Bool) (s : State) :
    Alike Twin (firstCode c s) (firstCode c (withStale p r s)) := by
  have hread : readDict (withStale p r s) c = readDict s c := rfl
  unfold firstCode
  rw [hread]
  cases readDict s c with
  | none => exact twin_raise _ _ p r s
  | some seq =>
    exact twin_appendOut (.next (.goesOn (t := { s with
      out := s.out ++ seq, outLen := s.outLen + seq.length, cur := c, phase := .loop }) p r (.inr rfl)))

theorem twin_presentCode (c : Nat) (r : Bool) (s : State) :
    Alike Twin (presentCode c s) (presentCode c (withStale s.prev r s)) := by
  have hread : readDict (withStale s.prev r s) c = readDict s c := rfl
  unfold presentCode
  rw [hread]
  cases readDict s c with
  | none => exact twin_raise _ _ s.prev r s
  | some seq =>
    refine twin_appendOut ?_
    cases seq with
    | nil => exact .fault _
    | cons k xs =>
      have hprev (u : State) : readDict (withStale s.prev r u) (withStale s.prev r u).prev = readDict u s.prev := rfl
      simp only [hprev]
      cases readDict { s with out := s.out ++ k :: xs, outLen := s.outLen + (k :: xs).length } s.prev with
      | none => exact twin_raise _ _ s.prev r _
      | some q => exact twin_lastInsert _ s.prev r _

theorem twin_absentCode (r : Bool) (s : State) :
    Alike Twin (absentCode s) (absentCode (withStale s.prev r s)) := by
  have hprev : readDict (withStale s.prev r s) (withStale s.prev r s).prev = readDict s s.prev := rfl
  unfold absentCode
  rw [hprev]
  cases readDict s s.prev with
  | none => exact twin_raise _ _ s.prev r s
  | some q =>
    cases q with
    | nil => exact .fault _
    | cons k xs => exact twin_appendOut (twin_lastInsert _ s.prev r _)

/-- Only the LOOP step reads `prev` (R174, R179, R180). -/
theorem twin_execClass (cls : CwClass) (c w : Nat) (r : Bool) (hp : s.phase = .first ∨ s.phase = .loop ∧ p = s.prev) :
    Alike Twin (execClass cls c w s) (execClass cls c w (withStale p r s)) := by
  rw [← exec_codeInstr, ← exec_codeInstr]
  obtain hp | ⟨hp, rfl⟩ := hp
  · have hp' : (withStale p r s).phase = .first := hp
    cases cls with
    | clear =>
      rw [codeInstr, exec_cwClear_first w hp, exec_cwClear_first w hp']
      exact twin_firstCode c p r (initTable s.mcs s.cts s)
    | eoi =>
      rw [codeInstr, exec_cwEoi_first hp, exec_cwEoi_first hp']
      exact twin_firstCode c p r s
    | present =>
      rw [codeInstr, exec_cwPresent_first hp, exec_cwPresent_first hp']
      exact twin_firstCode c p r s
    | absent =>
      rw [codeInstr, exec_cwAbsent_first hp, exec_cwAbsent_first hp']
      exact twin_raise _ _ p r s
  · have hp' : (withStale s.prev r s).phase = .loop := hp
    cases cls with
    | clear =>
      rw [codeInstr, exec_cwClear_loop w hp, exec_cwClear_loop w hp']
      exact twin_presentCode c r (initTable s.mcs s.cts { s with cur := c })
    | eoi =>
      rw [codeInstr, exec_cwEoi_loop hp, exec_cwEoi_loop hp']
      exact .next (.finishes (t := { s with
        cur := c, brValid := false, ctValid := false, phase := .idle
        response := some ⟨.ok, 0, .symbols s.out⟩ }) r rfl)
    | present =>
      rw [codeInstr, exec_cwPresent_loop hp, exec_cwPresent_loop hp']
      exact twin_presentCode c r { s with cur := c }
    | absent =>
      rw [codeInstr, exec_cwAbsent_loop hp, exec_cwAbsent_loop hp']
      exact twin_absentCode r { s with cur := c }

theorem twin_execCwWiden (cls : CwClass) (c w : Nat) (r : Bool) (hp : s.phase = .first ∨ s.phase = .loop ∧ p = s.prev) :
    Alike Twin (execCwWiden cls c w s) (execCwWiden cls c w (withStale p r s)) := by
  have hph : (withStale p r s).phase = s.phase := rfl
  obtain hp | ⟨hp, rfl⟩ := hp <;> simp only [execCwWiden, hph, hp]
  · exact twin_widen fun u hu _ => twin_execClass cls c w r (.inl (hu.trans hp))
  · exact twin_widen (s := { s with cur := c, phase := .loop }) fun u hu hprev =>
      twin_execClass (s := u) cls c w r (.inr ⟨hu, hprev.symm⟩)

theorem twin_runCode (c : Nat) (r : Bool) (hp : s.phase = .first ∨ s.phase = .loop ∧ p = s.prev) :
    Alike Twin (runCode c s) (runCode c (withStale p r s)) :=
  .ite (fun _ => twin_execCwWiden _ c s.codeWidth r hp) fun _ => twin_execClass _ c s.codeWidth r hp

/-- A read of bits in the two runs. -/
theorem twin_consumeBits {s' : State} {w : Nat} {go : Nat → State → StepOutcome} (c p : Nat) (r : Bool)
    (hs : s' = withStale p r { s with cur := c })
    (hgo : ∀ v, Alike Twin (go v { s with bitpos := s.bitpos + w }) (go v { s' with bitpos := s.bitpos + w })) :
    Alike Twin (consumeBits w s go) (consumeBits w s' go) := by
  subst hs
  refine .ite (fun _ => .next (.faults _ _ c p r)) fun _ => ?_
  change Alike Twin _ (match readBits s.input s.bitpos w with | none => _ | some v => _)
  cases readBits s.input s.bitpos w with
  | none => exact .fault _
  | some v => exact hgo v

/-- A step of a decode in the two runs. -/
theorem twin_codeStep {s' : State} (h : Twin s s') (hp : s.phase ≠ .idle) :
    Alike Twin (codeStep s) (codeStep s') := by
  rw [codeStep_eq_consumeBits, codeStep_eq_consumeBits]
  cases h with
  | begins c p r hs =>
    have hne : s.phase ≠ .loop := by simp [hs]
    rw [if_neg hne, if_neg (by exact hne)]
    refine twin_consumeBits (s := s) (s' := withStale p r { s with cur := c }) c p r rfl fun v => ?_
    rw [runCode_of_expectClear (by exact hs), runCode_of_expectClear (by exact hs)]
    exact .ite (fun _ => .next (.goesOn (t := { s with bitpos := s.bitpos + s.codeWidth, cur := v, phase := .first })
      p r (.inl rfl))) fun _ => .next (.faults (u := { s with bitpos := s.bitpos + s.codeWidth }) _ _ c p r)
  | goesOn p r hs =>
    rcases hs with hs | hs
    · have hne : s.phase ≠ .loop := by simp [hs]
      rw [if_neg hne, if_neg (by exact hne)]
      exact twin_consumeBits (s := s) (s' := withStale p r s) s.cur p r rfl fun v => twin_runCode v r (.inl hs)
    · rw [if_pos hs, if_pos (by exact hs)]
      exact twin_consumeBits (s := { s with prev := s.cur }) (s' := withStale s.cur r s) s.cur s.cur r rfl fun v =>
        twin_runCode v r (.inr ⟨hs, rfl⟩)
  | faults => exact absurd rfl hp
  | finishes _ hidle => exact absurd hidle hp

/-- A decode that ends in one run ends in the other. -/
theorem exists_twin_runDecode {n : Nat} {s' t : State} (h : Twin s s') (hp : s.phase ≠ .idle)
    (ht : runDecode n s = .next t) : ∃ t', runDecode n s' = .next t' ∧ Twin t t' := by
  induction n generalizing s s' with
  | zero => cases ht; exact ⟨s', rfl, h⟩
  | succ n ih =>
    unfold runDecode at ht ⊢
    cases hs : codeStep s with
    | fault f => simp [hs] at ht
    | refused r => simp [hs] at ht
    | next u =>
      obtain ⟨u', hu', htwin⟩ := (twin_codeStep h hp).exists_next hs
      simp only [hs] at ht
      simp only [hu', htwin.phase_eq]
      split at ht
      next hidle => cases ht; exact ⟨u', if_pos hidle, htwin⟩
      next hne => rw [if_neg hne]; exact ih htwin hne ht

end Run

/-- A decode that ends does so from every unfaulted state with the same parameters, in a state that differs in what R272 hides and in what is not the decode's. -/
theorem exists_twin_decode {mcs cts : Nat} {bytes : List Byte} {n : Nat} {s s' t : State} (hf : s.lzwFault = none)
    (hf' : s'.lzwFault = none) (hpar : s.params = s'.params)
    (ht : runDecode n (enterDecode mcs cts bytes s) = .next t) (hend : t.phase = .idle) :
    ∃ u, Twin t u ∧ runDecode n (enterDecode mcs cts bytes s') = .next (beside (enterDecode mcs cts bytes s') u) := by
  set e := enterDecode mcs cts bytes s
  set e' := enterDecode mcs cts bytes s'
  have hlzw : SameLzw (withStale s'.prev s'.lzwRefused { e with cur := s'.cur }) e' :=
    { SameLzw.refl e' with lzwFault := hf.trans hf'.symm }
  obtain ⟨u, hu, htwin⟩ := exists_twin_runDecode (.begins s'.cur s'.prev s'.lzwRefused rfl) (by simp [e]) ht
  have hinto := runDecode_lzwInto e' hu (by simp [withStale, e]) (htwin.phase_eq.trans hend)
  rw [lzwInto_eq hlzw hpar] at hinto
  exact ⟨u, htwin, hinto⟩

/-- Settles O44: what the entry does not write is read only after a code word has written it. -/
theorem decodeForgetsTheStateBefore : Obligations.DecodeForgetsTheStateBefore := by
  intro mcs cts bytes s s' t t' hf hf' hpar hc hb ht ht'
  have ht : execLzwDecode mcs cts bytes s = .next t := ht
  have ht' : execLzwDecode mcs cts bytes s' = .next t' := ht'
  rw [execLzwDecode_of_legal hf hc hb] at ht
  rw [execLzwDecode_of_legal hf' (hpar ▸ hc) (hpar ▸ hb)] at ht'
  have hidle := (decodeEnded_of_runDecode hf ht).phase
  obtain ⟨u, htwin, hu⟩ := exists_twin_decode hf hf' hpar ht hidle
  rw [ht'] at hu
  cases hu
  cases htwin with
  | begins _ _ _ hp => simp [hp] at hidle
  | goesOn _ _ hp => simp [hidle] at hp
  | faults => exact ⟨rfl, rfl, nofun⟩
  | finishes => exact ⟨rfl, rfl, fun _ => ⟨rfl, rfl, rfl, rfl, rfl, rfl, rfl, rfl, rfl, rfl, rfl, rfl⟩⟩

end Sys2Proof.Machine
end

section
/-! The FrameReassembler: what each operation does to the buffer, what the two predicates say of it, and that a run of operations loses no byte (spec/43_frame_reassembler.md R212 to R220): settles O46, O47, O48, O49, O50, O51, O52. -/

namespace Sys2Proof.Machine

/-! ### The buffer split at a sentinel (R14, R215) -/

section Buffer

variable {buf : List Byte}

/-- The first index of a byte is the length of what stands before its first occurrence (R14). -/
theorem firstIndex_append_cons {b : Byte} {l rest : List Byte} (h : b ∉ l) :
    firstIndex b (l ++ b :: rest) = some l.length := by
  induction l with
  | nil => simp [firstIndex]
  | cons x l ih =>
    obtain ⟨hx, hl⟩ := List.ne_and_not_mem_of_not_mem_cons h
    simp [firstIndex, hx.symm, ih hl]

/-- The garbage has no START, and what stands behind it is nothing or starts with START (R215). -/
theorem garbageLength_spec (buf : List Byte) :
    startByte ∉ buf.take (garbageLength buf) ∧
      (buf.drop (garbageLength buf) = [] ∨ (buf.drop (garbageLength buf)).head? = some startByte) := by
  unfold garbageLength
  cases hi : firstIndex startByte buf with
  | none => simpa using firstIndex_eq_none.1 hi
  | some j =>
    obtain ⟨hsplit, hnot⟩ := firstIndex_eq_some hi
    refine ⟨hnot, .inr ?_⟩
    have hdrop : buf.drop j = startByte :: buf.drop (j + 1) :=
      List.append_cancel_left ((List.take_append_drop j buf).trans hsplit)
    rw [Option.getD_some, hdrop, List.head?_cons]

/-! ### The two predicates (R213, R214) -/

theorem frSwgBit_iff : frSwgBit buf = true ↔ buf ≠ [] ∧ buf.head? ≠ some startByte := by
  cases buf <;> simp [frSwgBit]

theorem frHfgBit_iff :
    frHfgBit buf = true ↔ buf ≠ [] ∧ (buf.head? ≠ some startByte ∨ endByte ∈ buf) := by
  cases buf with
  | nil => simp [frHfgBit]
  | cons b bs => by_cases hb : b = startByte <;> simp [frHfgBit, hb]

/-- A frame stands at the front exactly where there is a frame or garbage and the buffer does not start with garbage (R218). -/
theorem frameAvailable_iff :
    frHfgBit buf = true ∧ frSwgBit buf = false ↔ buf.head? = some startByte ∧ endByte ∈ buf := by
  rw [← Bool.not_eq_true, frHfgBit_iff, frSwgBit_iff]
  cases buf with
  | nil => simp
  | cons b bs => by_cases hb : b = startByte <;> simp [hb]

/-- Nothing is to be taken exactly from an empty buffer and from a partial frame without garbage (R218). -/
theorem frHfgBit_eq_false_iff :
    frHfgBit buf = false ↔ buf = [] ∨ buf.head? = some startByte ∧ endByte ∉ buf := by
  rw [← Bool.not_eq_true, frHfgBit_iff]
  tauto

/-- A buffer with a frame at its front is that frame and what stands behind its first END (R218). -/
theorem exists_frame_append (hs : buf.head? = some startByte) (he : endByte ∈ buf) :
    ∃ f rest, buf = startByte :: f ++ endByte :: rest ∧ endByte ∉ startByte :: f := by
  obtain ⟨front, rest, hbuf, hnot⟩ := List.eq_append_cons_of_mem he
  subst hbuf
  cases front with
  | nil => cases hs
  | cons b f => cases hs; exact ⟨f, rest, rfl, hnot⟩

end Buffer

/-! ### The operations (R212 to R217) -/

section Operations

variable {s t : State}

/-- A faulted FR engine refuses each of its operations (R271). -/
theorem exec_of_frFault {i : Instr} (he : engineOfInstr i = .fr) (hf : s.frFault ≠ none) :
    exec i s = .next (enterRefusal .fr .engineFaulted s) := by
  cases i with
  | frAppend _ | frHasfg | frSwg | frTakeg | frTakef | frClear | bStart | bEnd | bData _ =>
    exact unlessFaulted_of_fault (by exact hf) _
  | brLoad _ | brRead _ | ctInit _ _ | ctLookup _ | ctHas _ | ctInsert _ | lzwDecode _ _ _
  | cwWiden _ _ _ | cwClear _ _ | cwEoi _ _ | cwPresent _ _ | cwAbsent _ _ => cases he

theorem arrive_of_bufMax {bytes : List Byte} (hf : s.frFault = none)
    (hb : s.params.bufMax.allows (s.frbuf.length + bytes.length) = false) :
    arrive bytes s = .next (enterFault .fr .capacityExceeded 6 s) := by
  obtain ⟨h, -⟩ | ⟨-, -, he⟩ | ⟨-, h, -⟩ := arrive_cases bytes s
  · exact absurd hf h
  · exact he
  · rw [hb] at h; cases h

theorem exec_frHasfg (hf : s.frFault = none) :
    exec .frHasfg s = .next { s with response := some ⟨.ok, 0, .bit (frHfgBit s.frbuf)⟩ } :=
  unlessFaulted_of_none (by exact hf) _

theorem exec_frSwg (hf : s.frFault = none) :
    exec .frSwg s = .next { s with response := some ⟨.ok, 0, .bit (frSwgBit s.frbuf)⟩ } :=
  unlessFaulted_of_none (by exact hf) _

theorem exec_frTakeg (hf : s.frFault = none) :
    exec .frTakeg s = .next { s with
      frbuf := s.frbuf.drop (garbageLength s.frbuf)
      response := some ⟨.ok, 0, .bytes (s.frbuf.take (garbageLength s.frbuf))⟩ } :=
  unlessFaulted_of_none (by exact hf) _

theorem exec_frTakef_of_end {f rest : List Byte} (hf : s.frFault = none)
    (hbuf : s.frbuf = f ++ endByte :: rest) (hnot : endByte ∉ f) :
    exec .frTakef s = .next { s with
      frbuf := rest, response := some ⟨.ok, 0, .bytes (f ++ [endByte])⟩ } := by
  simp only [exec, execFrTakef]
  rw [unlessFaulted_of_none (by exact hf), hbuf, firstIndex_append_cons hnot]
  simp [ok, List.take_length_add_append]

theorem exec_frTakef_of_noEnd (hf : s.frFault = none) (hnot : endByte ∉ s.frbuf) :
    exec .frTakef s = .next (enterFault .fr .noFrameAvailable s.frbuf.length s) := by
  simp only [exec, execFrTakef]
  rw [unlessFaulted_of_none (by exact hf), firstIndex_eq_none.2 hnot]
  rfl

theorem exec_frClear (hf : s.frFault = none) :
    exec .frClear s = .next { s with frbuf := [], response := some ⟨.ok, 0, .nothing⟩ } :=
  unlessFaulted_of_none (by exact hf) _

/-! ### No byte is lost (R220) -/

/-- What the answer `r` of `i` returns and what `t` still buffers are, in order, what `s` buffered and what `i` appends. -/
def Conserves (i : Instr) (r : Response) (s t : State) : Prop :=
  returnedBytes r ++ t.frbuf = s.frbuf ++ appendedBytes i

theorem conserves_of_arrive {i : Instr} {r : Response} (hf : s.frFault = none)
    (h : arrive (appendedBytes i) s = .next t) (hr : t.response = some r) (hok : r.status = .ok) :
    Conserves i r s t := by
  cases hb : s.params.bufMax.allows (s.frbuf.length + (appendedBytes i).length) with
  | true =>
    rw [arrive_of_allows hf hb] at h
    cases h; cases hr; rfl
  | false =>
    rw [arrive_of_bufMax hf hb] at h
    cases h; cases hr; cases hok

theorem conserves_of_frTakef {r : Response} (hf : s.frFault = none) (h : exec .frTakef s = .next t)
    (hr : t.response = some r) (hok : r.status = .ok) : Conserves .frTakef r s t := by
  by_cases he : endByte ∈ s.frbuf
  · obtain ⟨f, rest, hbuf, hnot⟩ := List.eq_append_cons_of_mem he
    rw [exec_frTakef_of_end hf hbuf hnot] at h
    cases h; cases hr
    simp [Conserves, returnedBytes, appendedBytes, hbuf]
  · rw [exec_frTakef_of_noEnd hf he] at h
    cases h; cases hr; cases hok

/-- An operation of the FR engine other than `FR.CLEAR` that answers OK loses no byte (R212, R215, R216). -/
theorem conserves_of_exec {i : Instr} {r : Response} (he : engineOfInstr i = .fr) (hi : i ≠ .frClear)
    (h : exec i s = .next t) (hr : t.response = some r) (hok : r.status = .ok) : Conserves i r s t := by
  by_cases hf : s.frFault = none
  case neg =>
    rw [exec_of_frFault he hf] at h
    cases h; cases hr; cases hok
  cases i with
  | frAppend _ | bStart | bEnd | bData _ => exact conserves_of_arrive hf h hr hok
  | frHasfg =>
    rw [exec_frHasfg hf] at h
    cases h; cases hr
    exact (List.append_nil _).symm
  | frSwg =>
    rw [exec_frSwg hf] at h
    cases h; cases hr
    exact (List.append_nil _).symm
  | frTakeg =>
    rw [exec_frTakeg hf] at h
    cases h; cases hr
    exact (List.take_append_drop _ _).trans (List.append_nil _).symm
  | frTakef => exact conserves_of_frTakef hf h hr hok
  | frClear => exact absurd rfl hi
  | brLoad _ | brRead _ | ctInit _ _ | ctLookup _ | ctHas _ | ctInsert _ | lzwDecode _ _ _
  | cwWiden _ _ _ | cwClear _ _ | cwEoi _ _ | cwPresent _ _ | cwAbsent _ _ => cases he

end Operations

/-! ### The obligations -/

/-- Settles O46: the two checks in their order. -/
theorem frAppendExtendsTheBuffer : Obligations.FrAppendExtendsTheBuffer :=
  fun _ _ => ⟨exec_of_frFault rfl, arrive_of_allows, arrive_of_bufMax⟩

/-- Settles O47: the operations answer the bits of the level outputs, which say what the buffer holds. -/
theorem frPredicatesClassifyTheBuffer : Obligations.FrPredicatesClassifyTheBuffer := fun s =>
  ⟨fun hf => ⟨exec_of_frFault rfl hf, exec_of_frFault rfl hf⟩,
    fun hf => ⟨frHfgBit s.frbuf, frSwgBit s.frbuf, exec_frHasfg hf, exec_frSwg hf, rfl, rfl,
      frHfgBit_iff, frSwgBit_iff⟩⟩

/-- Settles O48: the buffer is split at the length of its garbage. -/
theorem frTakegRemovesTheGarbage : Obligations.FrTakegRemovesTheGarbage := by
  refine fun s => ⟨exec_of_frFault rfl, fun hf => ?_⟩
  obtain ⟨hgarbage, hrest⟩ := garbageLength_spec s.frbuf
  exact ⟨_, _, (List.take_append_drop _ _).symm, hgarbage, hrest, exec_frTakeg hf⟩

/-- Settles O49: with an END buffered and without. -/
theorem frTakefRemovesUpToTheFirstEnd : Obligations.FrTakefRemovesUpToTheFirstEnd := fun _ =>
  ⟨exec_of_frFault rfl, fun hf => ⟨fun _ _ => exec_frTakef_of_end hf, exec_frTakef_of_noEnd hf⟩⟩

/-- Settles O50. -/
theorem frClearDiscardsTheBuffer : Obligations.FrClearDiscardsTheBuffer :=
  fun _ => ⟨exec_frClear, exec_of_frFault rfl⟩

/-- Settles O51: what the two bits say of the buffer, and the split of a buffer with a frame at its front. -/
theorem frameAvailableMeansTakefSucceeds : Obligations.FrameAvailableMeansTakefSucceeds := by
  refine fun s hf => ⟨fun hswg => ?_, frameAvailable_iff, fun hhfg hswg => ?_, frHfgBit_eq_false_iff⟩
  · obtain ⟨hne, hhead⟩ := frSwgBit_iff.1 hswg
    exact frHfgBit_iff.2 ⟨hne, .inl hhead⟩
  · obtain ⟨hstart, hend⟩ := frameAvailable_iff.1 ⟨hhfg, hswg⟩
    obtain ⟨f, rest, hbuf, hnot⟩ := exists_frame_append hstart hend
    exact ⟨f, rest, exec_frTakef_of_end hf hbuf hnot, List.not_mem_of_not_mem_cons hnot, hbuf⟩

/-- Settles O52, by induction on the operations: each one conserves, and the rest conserve from where it ends. -/
theorem frConservesEveryByte : Obligations.FrConservesEveryByte := by
  intro ops
  induction ops with
  | nil =>
    intro rs s t _ h _
    cases h
    exact (List.append_nil _).symm
  | cons i is ih =>
    intro rs s t hops h hok
    obtain ⟨r, u, rs', hexec, hresp, hrest, rfl⟩ := runOps_cons_eq_some h
    obtain ⟨⟨hfr, hclear⟩, his⟩ := List.forall_mem_cons.1 hops
    obtain ⟨hr, hrs⟩ := List.forall_mem_cons.1 hok
    have hfirst : returnedBytes r ++ u.frbuf = s.frbuf ++ appendedBytes i :=
      conserves_of_exec hfr hclear hexec hresp hr
    have hothers := ih rs' u t his hrest hrs
    calc (r :: rs').flatMap returnedBytes ++ t.frbuf
        = returnedBytes r ++ (rs'.flatMap returnedBytes ++ t.frbuf) := by simp
      _ = (returnedBytes r ++ u.frbuf) ++ is.flatMap appendedBytes := by rw [hothers, List.append_assoc]
      _ = s.frbuf ++ (i :: is).flatMap appendedBytes := by rw [hfirst]; simp

end Sys2Proof.Machine
end

section
/-! The host protocol: the refusal of a word that selects no row, and FR.DRAIN, item by item (spec/44_host_protocol.md R240 to R244): settles O10, O53. -/

namespace Sys2Proof.Machine

/-! ### A word that selects no row (R103, R240, R241) -/

section Unassigned

variable {w : CmdWord}

/-- A word that selects no row does not decode, as the word of an instruction selects a row (R101, R103). -/
theorem decodeCommand_of_selects_none (p : Payload) (h : ∀ r ∈ opcodeMap, r.selects w = false) :
    ∃ e, decodeCommand w p = .error e := by
  have hmap := commandWordsFollowTheOpcodeMap w p
  cases hd : decodeCommand w p with
  | error e => exact ⟨e, rfl⟩
  | ok i =>
    rw [hd] at hmap
    obtain ⟨hrow, -⟩ := hmap
    have hnone : opcodeMap.filter (fun r => r.selects w) = [] :=
      List.filter_eq_nil_iff.2 fun r hr => Bool.eq_false_iff.1 (h r hr)
    rw [hnone] at hrow
    cases hrow

/-- UNIT is the word's upper four bits (R100). -/
theorem unitField_eq_toNat_extractLsb' (w : CmdWord) : unitField w = (w.extractLsb' 28 4).toNat := by
  have hw := w.isLt
  rw [unitField, BitVec.extractLsb'_toNat, Nat.shiftRight_eq_div_pow]
  omega

theorem engineOf_of_unit_eq (h : w.extractLsb' 28 4 = 3#4) : engineOf w = .fr :=
  if_pos (by rw [unitField_eq_toNat_extractLsb', h]; rfl)

theorem engineOf_of_unit_ne (h : w.extractLsb' 28 4 ≠ 3#4) : engineOf w = .lzw :=
  if_neg fun hu => h (BitVec.eq_of_toNat_eq ((unitField_eq_toNat_extractLsb' w).symm.trans hu))

/-- An unmatched word's refusal names the fault record before the word (R242). -/
theorem refuseUnmatched_eq (w : CmdWord) (s : State) :
    refuseUnmatched w s = .next (enterRefusal (engineOf w)
      (if faultOf (engineOf w) s = none then .badCommand else .engineFaulted) s) := by
  unfold refuseUnmatched unlessFaulted
  split <;> rfl

/-- The step that takes a word that selects no row is its refusal (R240). -/
theorem step_of_selects_none {s : State} {p : Payload} {rest : List HostInput} (hp : s.phase = .idle)
    (hh : s.host = .command w p :: rest) (h : ∀ r ∈ opcodeMap, r.selects w = false) :
    step s = refuseUnmatched w { s with host := rest } := by
  obtain ⟨e, he⟩ := decodeCommand_of_selects_none p h
  rw [step_input hp hh, issue, issueCommand, he]

end Unassigned

/-- Settles O10: the step refuses the word, and UNIT says which engine does. -/
theorem unassignedCommandsAreRefused : Obligations.UnassignedCommandsAreRefused := by
  intro s w p rest hp hh hnone
  rw [step_of_selects_none hp hh hnone, refuseUnmatched_eq]
  constructor
  · intro hu
    rw [engineOf_of_unit_eq hu]
    rfl
  · intro hu
    rw [engineOf_of_unit_ne hu]
    rfl

/-! ### What FR.DRAIN makes of a buffer (R243, R244) -/

/-- `FR.DRAIN` takes the items from the buffer one by one and leaves the last buffer: it stops where neither a frame nor garbage is there, takes garbage up to the next START, and takes a frame up to its END. -/
inductive Drained : List Byte → List Item → List Byte → Prop
  | stops {buf : List Byte} (h : buf = [] ∨ buf.head? = some startByte ∧ endByte ∉ buf) : Drained buf [] buf
  | garbage {g rest last : List Byte} {items : List Item} (hne : g ≠ []) (hg : startByte ∉ g)
      (hrest : rest = [] ∨ rest.head? = some startByte) (h : Drained rest items last) :
      Drained (g ++ rest) (.garbage g :: items) last
  | frame {f rest last : List Byte} {items : List Item} (hf : endByte ∉ f) (h : Drained rest items last) :
      Drained (startByte :: f ++ endByte :: rest) (.frame (startByte :: f ++ [endByte]) :: items) last

section Drained

variable {buf last : List Byte} {items : List Item}

/-- Every item takes at least one byte (R244(b)). -/
theorem Drained.length_le (h : Drained buf items last) : items.length ≤ buf.length := by
  induction h with
  | stops => exact Nat.zero_le _
  | garbage hne _ _ _ ih =>
    have hpos := List.length_pos_of_ne_nil hne
    simp only [List.length_cons, List.length_append]
    omega
  | frame _ _ ih =>
    simp only [List.length_cons, List.length_append]
    omega

/-- No byte is lost (R244(f)). -/
theorem Drained.flatMap_bytes_append (h : Drained buf items last) : items.flatMap Item.bytes ++ last = buf := by
  induction h with
  | stops => rfl
  | garbage _ _ _ _ ih => rw [List.flatMap_cons, List.append_assoc, ih, Item.bytes]
  | frame _ _ ih => rw [List.flatMap_cons, List.append_assoc, ih, Item.bytes, List.append_assoc]; rfl

/-- What is left is nothing or a partial frame (R244(c)). -/
theorem Drained.last_partial (h : Drained buf items last) :
    last = [] ∨ last.head? = some startByte ∧ endByte ∉ last := by
  induction h with
  | stops h => exact h
  | garbage _ _ _ _ ih => exact ih
  | frame _ _ ih => exact ih

/-- A garbage item is not empty and has no START (R244(b), (d)). -/
theorem Drained.garbage_spec (h : Drained buf items last) {g : List Byte} (hg : .garbage g ∈ items) :
    g ≠ [] ∧ startByte ∉ g := by
  induction h with
  | stops => cases hg
  | garbage hne hnot _ _ ih =>
    cases hg with
    | head => exact ⟨hne, hnot⟩
    | tail _ hg => exact ih hg
  | frame _ _ ih =>
    cases hg with
    | tail _ hg => exact ih hg

/-- A frame item starts with START and ends with its only END (R244(d)). -/
theorem Drained.frame_spec (h : Drained buf items last) {f : List Byte} (hf : .frame f ∈ items) :
    ∃ m, f = startByte :: m ++ [endByte] ∧ endByte ∉ m := by
  induction h with
  | stops => cases hf
  | garbage _ _ _ _ ih =>
    cases hf with
    | tail _ hf => exact ih hf
  | frame hnot _ ih =>
    cases hf with
    | head => exact ⟨_, rfl, hnot⟩
    | tail _ hf => exact ih hf

/-- From a buffer that is empty or starts with START no garbage is taken first. -/
theorem Drained.head?_ne_garbage (h : Drained buf items last) (hb : buf = [] ∨ buf.head? = some startByte)
    (g : List Byte) : items.head? ≠ some (.garbage g) := by
  cases h with
  | stops | frame => nofun
  | @garbage g' _ _ _ hne hnot _ _ =>
    cases g' with
    | nil => exact absurd rfl hne
    | cons b bs =>
      obtain hb | hb := hb
      · cases hb
      · cases hb; exact absurd List.mem_cons_self hnot

/-- Garbage never follows garbage, as it is taken up to the next START (R244(e)). -/
theorem Drained.not_garbage_after_garbage (h : Drained buf items last) {n : Nat} {g g' : List Byte}
    (hg : items[n]? = some (.garbage g)) : items[n + 1]? ≠ some (.garbage g') := by
  induction h generalizing n with
  | stops => cases hg
  | garbage _ _ hrest h ih =>
    cases n with
    | zero =>
      rw [List.getElem?_cons_succ, ← List.head?_eq_getElem?]
      exact h.head?_ne_garbage hrest g'
    | succ n => exact ih hg
  | frame _ _ ih =>
    cases n with
    | zero => cases hg
    | succ n => exact ih hg

end Drained

/-! ### The loop of FR.DRAIN (R243) -/

/-- A buffer that starts with garbage has some before its first START. -/
theorem garbageLength_pos {buf : List Byte} (h : frSwgBit buf = true) : 0 < garbageLength buf := by
  obtain ⟨hne, hhead⟩ := frSwgBit_iff.1 h
  obtain ⟨-, hrest⟩ := garbageLength_spec buf
  rw [Nat.pos_iff_ne_zero]
  intro h0
  rw [h0, List.drop_zero] at hrest
  exact hrest.elim hne hhead

section Loop

variable {s t u : State} {n : Nat}

theorem runOp_of_exec {i : Instr} {r : Response} (h : exec i s = .next t) (hr : t.response = some r) :
    runOp i s = some (r, t) := by
  rw [runOp, h, Option.map_eq_some_iff]
  exact ⟨r, hr, rfl⟩

/-- The item an operation returns stands before those of the loop behind it (R243). -/
theorem takeItem_of_exec {i : Instr} {tag : List Byte → Item} {go : State → Option (List Item × State)}
    {bs : List Byte} {items : List Item} (h : exec i s = .next u) (hr : u.response = some ⟨.ok, 0, .bytes bs⟩)
    (hgo : go u = some (items, t)) : takeItem i tag s go = some (tag bs :: items, t) := by
  rw [takeItem, runOp_of_exec h hr]
  exact Option.map_eq_some_iff.2 ⟨_, hgo, rfl⟩

/-- Where neither a frame nor garbage is there, the loop ends (R243). -/
theorem frDrain_of_not_frHfgBit (n : Nat) (hf : s.frFault = none) (hh : frHfgBit s.frbuf = false) :
    frDrain (n + 1) s = some ([], { s with response := some ⟨.ok, 0, .bit false⟩ }) := by
  rw [frDrain, runOp_of_exec (exec_frHasfg hf) rfl, hh]

/-- Where there is a frame or garbage, the loop takes garbage if the buffer starts with it, else a frame (R243). -/
theorem frDrain_of_frHfgBit (n : Nat) (hf : s.frFault = none) (hh : frHfgBit s.frbuf = true) :
    frDrain (n + 1) s =
      bif frSwgBit s.frbuf then
        takeItem .frTakeg .garbage { s with response := some ⟨.ok, 0, .bit true⟩ } (frDrain n)
      else takeItem .frTakef .frame { s with response := some ⟨.ok, 0, .bit false⟩ } (frDrain n) := by
  rw [frDrain, runOp_of_exec (exec_frHasfg hf) rfl, hh]
  dsimp only
  rw [runOp_of_exec (exec_frSwg (by exact hf)) rfl]
  cases frSwgBit s.frbuf <;> rfl

/-- An iteration that takes garbage (R215, R243). -/
theorem frDrain_of_frSwgBit {items : List Item} (hf : s.frFault = none) (hh : frHfgBit s.frbuf = true)
    (hs : frSwgBit s.frbuf = true)
    (hgo : frDrain n { s with
      frbuf := s.frbuf.drop (garbageLength s.frbuf)
      response := some ⟨.ok, 0, .bytes (s.frbuf.take (garbageLength s.frbuf))⟩ } = some (items, t)) :
    frDrain (n + 1) s = some (.garbage (s.frbuf.take (garbageLength s.frbuf)) :: items, t) := by
  rw [frDrain_of_frHfgBit n hf hh, hs]
  exact takeItem_of_exec (exec_frTakeg (by exact hf)) rfl hgo

/-- An iteration that takes a frame (R216, R243). -/
theorem frDrain_of_frame {f rest : List Byte} {items : List Item} (hf : s.frFault = none)
    (hh : frHfgBit s.frbuf = true) (hs : frSwgBit s.frbuf = false)
    (hbuf : s.frbuf = f ++ endByte :: rest) (hnot : endByte ∉ f)
    (hgo : frDrain n { s with
      frbuf := rest, response := some ⟨.ok, 0, .bytes (f ++ [endByte])⟩ } = some (items, t)) :
    frDrain (n + 1) s = some (.frame (f ++ [endByte]) :: items, t) := by
  rw [frDrain_of_frHfgBit n hf hh, hs]
  exact takeItem_of_exec (exec_frTakef_of_end (by exact hf) hbuf hnot) rfl hgo

/-- With more iterations than the buffer has bytes the loop ends, having changed nothing but the buffer and the response (R244(a), (b)). -/
theorem exists_frDrain_drained (hf : s.frFault = none) (hn : s.frbuf.length < n) :
    ∃ items last r, frDrain n s = some (items, { s with frbuf := last, response := r }) ∧
      Drained s.frbuf items last := by
  induction n generalizing s with
  | zero => omega
  | succ n ih =>
    cases hh : frHfgBit s.frbuf with
    | false => exact ⟨[], s.frbuf, _, frDrain_of_not_frHfgBit n hf hh, .stops (frHfgBit_eq_false_iff.1 hh)⟩
    | true =>
      cases hs : frSwgBit s.frbuf with
      | true =>
        obtain ⟨hgarbage, hrest⟩ := garbageLength_spec s.frbuf
        have hpos : 0 < garbageLength s.frbuf := garbageLength_pos hs
        obtain ⟨hbuf, -⟩ := frSwgBit_iff.1 hs
        have hlt : (s.frbuf.drop (garbageLength s.frbuf)).length < n := by
          have := List.length_pos_of_ne_nil hbuf
          rw [List.length_drop]; omega
        obtain ⟨items, last, r, hdrain, hitems⟩ := ih (s := { s with
          frbuf := s.frbuf.drop (garbageLength s.frbuf)
          response := some ⟨.ok, 0, .bytes (s.frbuf.take (garbageLength s.frbuf))⟩ }) hf hlt
        have hne : s.frbuf.take (garbageLength s.frbuf) ≠ [] := by
          rw [Ne, List.take_eq_nil_iff, not_or]
          exact ⟨hpos.ne', hbuf⟩
        have hdrained := Drained.garbage hne hgarbage hrest hitems
        rw [List.take_append_drop] at hdrained
        exact ⟨_, last, r, frDrain_of_frSwgBit hf hh hs hdrain, hdrained⟩
      | false =>
        obtain ⟨hstart, hend⟩ := frameAvailable_iff.1 ⟨hh, hs⟩
        obtain ⟨f, rest, hbuf, hnot⟩ := exists_frame_append hstart hend
        have hlt : rest.length < n := by
          rw [hbuf, List.length_append, List.length_cons, List.length_cons] at hn
          omega
        obtain ⟨items, last, r, hdrain, hitems⟩ := ih (s := { s with
          frbuf := rest, response := some ⟨.ok, 0, .bytes (startByte :: f ++ [endByte])⟩ }) hf hlt
        exact ⟨_, last, r, frDrain_of_frame hf hh hs hbuf hnot hdrain,
          hbuf ▸ .frame (List.not_mem_of_not_mem_cons hnot) hitems⟩

end Loop

/-- Settles O53: the loop ends in time with the buffer drained, and each clause holds of what is drained. -/
theorem frDrainTakesEveryFrameAndAllGarbage : Obligations.FrDrainTakesEveryFrameAndAllGarbage := by
  intro s hf
  obtain ⟨items, last, r, hdrain, hitems⟩ := exists_frDrain_drained hf (Nat.lt_succ_self _)
  exact ⟨items, _, hdrain, hitems.length_le, hitems.flatMap_bytes_append, hitems.last_partial,
    fun _ => hitems.garbage_spec, fun _ => hitems.frame_spec, fun _ _ _ => hitems.not_garbage_after_garbage,
    { SameLzw.refl s with }, hf, rfl, id⟩

end Sys2Proof.Machine
end

section
/-! The exceptions: fault entry, wherever the fault is raised, and the faulted engine that refuses everything (spec/60_exceptions.md R270 to R272): settles O7, O9. -/

namespace Sys2Proof.Machine

/-! ### What a fault leaves of the LZW engine (R183, R270) -/

section Leaves

variable {s t : State} {r : FaultRecord}

/-- What fault entry leaves of the LZW engine, whatever the operation had done before it: the record, no reader, no table, phase IDLE, and a response of status and info (R270). -/
structure FaultLeft (r : FaultRecord) (t : State) : Prop where
  brValid : t.brValid = false
  ctValid : t.ctValid = false
  phase : t.phase = .idle
  response : t.response = some ⟨.fault r.kind, r.info, .nothing⟩
  output : (statusOutputs t).lzwFaultKind = r.kind.code

theorem faultLeft_enterFault (kind : FaultKind) (info : Nat) (u : State) :
    FaultLeft ⟨kind, info⟩ (enterFault .lzw kind info u) := ⟨rfl, rfl, rfl, rfl, rfl⟩

/-- The code word faults: going on and finishing write no record (R182, R183). -/
theorem CodeRun.faultLeft (h : CodeRun s t) (hf : s.lzwFault = none) (hr : t.lzwFault = some r) :
    FaultLeft r t := by
  cases h with
  | goesOn hu => rw [hu.lzwFault, hf] at hr; cases hr
  | faults kind info => cases hr; exact faultLeft_enterFault kind info _
  | @finishes u hu =>
    have hu' : u.lzwFault = some r := hr
    rw [hu.lzwFault, hf] at hu'; cases hu'

/-- An ended decode with a record ended in fault entry (R183). -/
theorem DecodeEnded.faultLeft (h : DecodeEnded s t) (hr : t.lzwFault = some r) : FaultLeft r t := by
  obtain ⟨hnone, -⟩ | ⟨kind, info, hrec, hresp⟩ := h.answer
  · rw [hnone] at hr; cases hr
  · rw [hrec] at hr; cases hr
    exact ⟨h.brValid, h.ctValid, h.phase, hresp, congrArg faultKindOutput hrec⟩

theorem Performs.lzwFault_eq (h : Performs s t) : t.lzwFault = s.lzwFault := by
  cases h <;> rfl

theorem LzwAnswer.faultLeft (h : LzwAnswer s t) (hf : s.lzwFault = none) (hr : t.lzwFault = some r) :
    FaultLeft r t := by
  cases h with
  | refused => rw [enterRefusal_lzw_lzwFault, hf] at hr; cases hr
  | faulted _ kind _ info => cases hr; exact faultLeft_enterFault kind info s
  | @performed _ u hu =>
    have hu' : u.lzwFault = some r := hr
    rw [hu.lzwFault_eq, hf] at hu'; cases hu'
  | decoded _ _ _ ht => exact (decodeEnded_of_runDecode hf ht).faultLeft hr

/-- An instruction of the LZW engine that writes its record leaves what fault entry leaves. -/
theorem faultLeft_of_exec {i : Instr} (he : engineOfInstr i = .lzw) (h : exec i s = .next t)
    (hf : s.lzwFault = none) (hr : t.lzwFault = some r) : FaultLeft r t := by
  cases hi : isCodeWord i with
  | false => exact (lzwAnswer_of_exec hi he h).faultLeft hf hr
  | true => exact (codeRun_of_exec hi h).faultLeft hf hr

end Leaves

/-! ### An operation that faults does nothing but enter the fault (R272) -/

/-- Where the outcome `o` leaves a record of the LZW engine, it is fault entry in `s` itself. -/
def FaultsAt (s : State) (o : StepOutcome) : Prop :=
  ∀ t r, o = .next t → t.lzwFault = some r → t = enterFault .lzw r.kind r.info s

section FaultsAt

variable {s u : State}

theorem faultsAt_raise (kind : FaultKind) (info : Nat) (s : State) :
    FaultsAt s (raise .lzw kind info s) := by
  intro t r h hr
  cases h; cases hr; rfl

theorem faultsAt_next_of_none (hu : u.lzwFault = none) : FaultsAt s (.next u) := by
  intro t r h hr
  cases h
  rw [hu] at hr; cases hr

theorem faultsAt_ok (hu : u.lzwFault = none) (v : Result) : FaultsAt s (ok v u) :=
  faultsAt_next_of_none (by exact hu)

theorem faultsAt_refuse (hf : s.lzwFault = none) (reason : RefuseReason) :
    FaultsAt s (refuse .lzw reason s) := faultsAt_next_of_none (by exact hf)

theorem faultsAt_unlessFaulted {go : StepOutcome} (hf : s.lzwFault = none) (hgo : FaultsAt s go) :
    FaultsAt s (unlessFaulted .lzw s go) := by
  rwa [unlessFaulted_of_none (by exact hf)]

theorem faultsAt_execBrLoad (bytes : List Byte) (hf : s.lzwFault = none) :
    FaultsAt s (execBrLoad bytes s) := by
  refine faultsAt_unlessFaulted hf ?_
  split
  · exact faultsAt_ok (by exact hf) _
  · exact faultsAt_raise _ _ s

theorem faultsAt_execBrRead (width : Nat) (hf : s.lzwFault = none) :
    FaultsAt s (execBrRead width s) := by
  refine faultsAt_unlessFaulted hf ?_
  split
  · exact faultsAt_refuse hf _
  · split
    · exact faultsAt_refuse hf _
    · obtain ⟨-, he⟩ | ⟨v, -, -, he⟩ | ⟨-, -, he⟩ :=
        consumeBits_cases width s fun v s' => ok (.number v) s' <;> rw [he]
      · exact faultsAt_raise _ _ s
      · exact faultsAt_ok (by exact hf) _
      · rintro _ _ ⟨⟩

theorem faultsAt_execCtInit (mcs cts : Nat) (hf : s.lzwFault = none) :
    FaultsAt s (execCtInit mcs cts s) := by
  refine faultsAt_unlessFaulted hf ?_
  split
  · exact faultsAt_ok (by exact hf) _
  · exact faultsAt_refuse hf _

theorem faultsAt_execCtLookup (code : Nat) (hf : s.lzwFault = none) :
    FaultsAt s (execCtLookup code s) := by
  refine faultsAt_unlessFaulted hf ?_
  split
  · exact faultsAt_refuse hf _
  · split
    · exact faultsAt_raise _ _ s
    · exact faultsAt_ok hf _

theorem faultsAt_execCtHas (code : Nat) (hf : s.lzwFault = none) :
    FaultsAt s (execCtHas code s) := by
  refine faultsAt_unlessFaulted hf ?_
  split
  · exact faultsAt_refuse hf _
  · exact faultsAt_ok hf _

theorem faultsAt_execCtInsert (words : List SymWord) (hf : s.lzwFault = none) :
    FaultsAt s (execCtInsert words s) := by
  refine faultsAt_unlessFaulted hf ?_
  split
  · exact faultsAt_refuse hf _
  · split
    · exact faultsAt_refuse hf _
    next seq _ =>
      obtain ⟨-, he⟩ | ⟨-, -, he⟩ | ⟨-, -, he⟩ := insertNext_cases seq s (ok .nothing) <;> rw [he]
      · exact faultsAt_raise _ _ s
      · exact faultsAt_raise _ _ s
      · exact faultsAt_ok (by exact hf) _

/-- Every operation of the LZW engine but `LZW.DECODE` raises its fault before it writes anything (R272). -/
theorem faultsAt_exec {i : Instr} (he : engineOfInstr i = .lzw) (hi : isCodeWord i = false)
    (hd : ∀ mcs cts bytes, i ≠ .lzwDecode mcs cts bytes) (hf : s.lzwFault = none) :
    FaultsAt s (exec i s) := by
  cases i with
  | brLoad bytes => exact faultsAt_execBrLoad bytes hf
  | brRead width => exact faultsAt_execBrRead width hf
  | ctInit mcs cts => exact faultsAt_execCtInit mcs cts hf
  | ctLookup code => exact faultsAt_execCtLookup code hf
  | ctHas code => exact faultsAt_execCtHas code hf
  | ctInsert words => exact faultsAt_execCtInsert words hf
  | lzwDecode mcs cts bytes => exact absurd rfl (hd mcs cts bytes)
  | frAppend _ | frHasfg | frSwg | frTakeg | frTakef | frClear | bStart | bEnd | bData _ => cases he
  | cwWiden _ _ _ | cwClear _ _ | cwEoi _ _ | cwPresent _ _ | cwAbsent _ _ => cases hi

end FaultsAt

/-! ### The record and the engine that wrote it -/

section Records

variable {i : Instr} {s t : State} {r : FaultRecord}

/-- An operation of the FR engine that writes its record does nothing but enter the fault (R270, R272). -/
theorem FrAnswer.eq_enterFault (h : FrAnswer s t) (hf : s.frFault = none) (hr : t.frFault = some r) :
    t = enterFault .fr r.kind r.info s := by
  cases h with
  | refused => rw [enterRefusal_fr_frFault, hf] at hr; cases hr
  | faulted => cases hr; rfl
  | performed =>
    have hs : s.frFault = some r := hr
    rw [hf] at hs; cases hs

/-- Only an instruction of the LZW engine writes the LZW engine's record (R20). -/
theorem engineOfInstr_of_lzwFault (h : exec i s = .next t) (hf : s.lzwFault = none)
    (hr : t.lzwFault = some r) : engineOfInstr i = .lzw := by
  cases he : engineOfInstr i with
  | lzw => rfl
  | fr =>
    have hsame := (frAnswer_of_exec he h).sameLzw
    rw [← hsame.lzwFault, hf] at hr; cases hr

/-- Only an instruction of the FR engine writes the FR engine's record (R20). -/
theorem engineOfInstr_of_frFault (h : exec i s = .next t) (hf : s.frFault = none)
    (hr : t.frFault = some r) : engineOfInstr i = .fr := by
  cases he : engineOfInstr i with
  | fr => rfl
  | lzw =>
    have hsame := sameFr_of_exec he h
    rw [← hsame.frFault, hf] at hr; cases hr

end Records

/-! ### A faulted engine (R271) -/

/-- A faulted LZW engine refuses each of its operations (R271). -/
theorem exec_of_lzwFault {i : Instr} {s : State} (hi : isCodeWord i = false)
    (he : engineOfInstr i = .lzw) (hf : s.lzwFault ≠ none) :
    exec i s = .next (enterRefusal .lzw .engineFaulted s) := by
  cases i with
  | brLoad _ | brRead _ | ctInit _ _ | ctLookup _ | ctHas _ | ctInsert _ | lzwDecode _ _ _ =>
    exact unlessFaulted_of_fault (by exact hf) _
  | frAppend _ | frHasfg | frSwg | frTakeg | frTakef | frClear | bStart | bEnd | bData _ => cases he
  | cwWiden _ _ _ | cwClear _ _ | cwEoi _ _ | cwPresent _ _ | cwAbsent _ _ => cases hi

/-! ### The obligations -/

/-- Settles O7: the record says which engine ran, and of that engine what fault entry leaves. -/
theorem faultEntryRecordsTheFault : Obligations.FaultEntryRecordsTheFault := by
  intro i s t r h
  constructor
  · intro hf hr
    have he := engineOfInstr_of_lzwFault h hf hr
    obtain ⟨hbr, hct, hp, hresp, hout⟩ := faultLeft_of_exec he h hf hr
    exact ⟨hbr, hct, hp, hresp, hout, sameFr_of_exec he h, fun hi hd => faultsAt_exec he hi hd hf t r h hr⟩
  · intro hf hr
    have he := engineOfInstr_of_frFault h hf hr
    exact ⟨(frAnswer_of_exec he h).eq_enterFault hf hr, congrArg faultKindOutput hr⟩

/-- Settles O9: each engine's operations share the check of its fault record. -/
theorem faultedEngineRefusesEveryOperation : Obligations.FaultedEngineRefusesEveryOperation :=
  fun _ _ hi => ⟨exec_of_lzwFault hi, exec_of_frFault⟩

end Sys2Proof.Machine
end
